-- ==== Sys2Proof/Word.lean ====
section
/-! DEFINITION. The word types of the machine and their plainest arithmetic (spec/00_scope.md R8). -/

namespace Sys2Proof

/-- One byte of memory or of an instruction. -/
abbrev Byte := BitVec 8

/-- An effective or linear address, held at the widest width the spec gives one (R6: 64 in `Mode64`). -/
abbrev Addr := BitVec 64

/-- A 128-bit lane: an XMM value, or either half of a YMM value (R10, R80). -/
abbrev Lane := BitVec 128

/-- One vector register, stored at the widest `MAXVL` of R6; bits from `MAXVL` up do not exist and are kept 0. -/
abbrev VReg := BitVec 512

/-- A register number as an encoding assembles it: an extension bit over a three-bit field (R56). -/
abbrev RegNum := BitVec 4

/-- The six segment registers (R14). -/
inductive SegReg where
  | es | cs | ss | ds | fs | gs
  deriving DecidableEq, Repr

end Sys2Proof
end

