-- ==== Sys2Proof/Config.lean ====
section
/-! DEFINITION. The implementation parameters of spec/00_scope.md R6, and the free values.

The parameters that R6 leaves OPEN (`MODE`, `MAXVL`, `VA_BITS`, the feature flags, `Translate`, `SegCheck`) are fields of
`Machine.State` that no step writes, so that every statement holds for each of their values; their types are here and
in Machine/State.lean. -/

namespace Sys2Proof

/-- The processor's operating mode, the parameter `MODE` of R6. -/
inductive Mode where
  | mode64 | compat32 | prot32 | prot16 | real | v8086
  deriving DecidableEq, Repr

/-- The parameter `MAXVL` of R6 and R7: the width of one vector register. -/
inductive MaxVl where
  | v128 | v256 | v512
  deriving DecidableEq, Repr

/-- The values of `MAXVL` that R6 admits where a VEX form is admitted: at least 256. -/
inductive WideVl where
  | v256 | v512
  deriving DecidableEq, Repr

/-- `MAXVL` and the CPUID flags `HAS_SSE4_1`, `HAS_AVX`, `HAS_AVX2` of a part, exactly in the combinations that R6 admits:
a flag implies the older ones, and a part that admits a VEX form has `MAXVL ≥ 256`. -/
inductive Part where
  /-- No AVX: no VEX form is admitted, and `MAXVL` is any of the three widths. -/
  | sse (sse41 : Bool) (maxVl : MaxVl)
  /-- AVX, and so SSE4_1. -/
  | avx (avx2 : Bool) (maxVl : WideVl)
  deriving DecidableEq, Repr

/-- The parameter `VA_BITS` of R6: the canonical form is 48 or 57 bits wide. -/
inductive VaBits where
  | va48 | va57
  deriving DecidableEq, Repr

/-- The three address sizes of R58 and R60. -/
inductive AddrSize where
  | a16 | a32 | a64
  deriving DecidableEq, Repr

/-- FREE VALUE (log 7). R62 tolerates a repeated prefix and does not say which of two DIFFERENT segment overrides
holds; this picks one of the overrides present, and nothing in Lean can tell which. -/
opaque Config.overridePick : List SegReg → Nat

/-- FREE VALUE (log 8). The parameter `PFAddr` of R105: which accessed byte of the faulting page CR2 receives,
given the operand's linear address, its width and the first byte that faults. -/
opaque Config.pfAddrPick : Addr → Nat → Addr → Nat

end Sys2Proof
end

