-- ==== Sys2Proof/Syntax.lean ====
section
/-! DEFINITION. The instructions as syntax: one constructor per row of spec/opcode_table.json.

A term keeps every bit of its encoding, the ignored ones too (spec/93_implementation_defined.md U1 to U3), so that
encoding a decoded instruction gives its own bytes back. -/

namespace Sys2Proof

/-- The four bits of a REX byte (R53). -/
structure Rex where
  w : Bool
  r : Bool
  x : Bool
  b : Bool
  deriving DecidableEq, Repr

/-- A byte that may stand before the opcode or the VEX prefix (R53, R62, R66). -/
inductive Prefix where
  /-- 66H. -/
  | opSize
  /-- 67H. -/
  | addrSize
  /-- 26H, 2EH, 36H, 3EH, 64H, 65H. -/
  | seg (s : SegReg)
  /-- F0H. -/
  | lock
  /-- F2H. -/
  | repne
  /-- F3H. -/
  | rep
  /-- 40H to 4FH in 64-bit mode. -/
  | rex (r : Rex)
  deriving DecidableEq, Repr

/-- What format L (R53) has beside its operands: the legacy prefixes in order, the mandatory 66H among them, and
the REX byte if there is one. -/
structure LegacyEnc where
  prefixes : List Prefix
  rex : Option Rex
  deriving DecidableEq, Repr

/-- What format V (R54) has beside its operands: the bytes before C4H in order, and the bits R, X, B (not
complemented) and W of the VEX prefix. -/
structure VexEnc where
  prefixes : List Prefix
  r : Bool
  x : Bool
  b : Bool
  w : Bool
  deriving DecidableEq, Repr

/-- The displacement of a 32-bit or 64-bit addressing form (R58). -/
inductive Disp where
  | none
  | d8 (d : BitVec 8)
  | d32 (d : BitVec 32)
  deriving DecidableEq, Repr

/-- The displacement of a 16-bit addressing form (R60). -/
inductive Disp16 where
  | none
  | d8 (d : BitVec 8)
  | d16 (d : BitVec 16)
  deriving DecidableEq, Repr

/-- The memory form of the second source operand. -/
inductive MemOp where
  /-- `GPR[B:rm]` and a displacement (R58). -/
  | base (reg : RegNum) (disp : Disp)
  /-- SIB form with a base register (R59); index 0100b is no index. -/
  | sib (scale : BitVec 2) (index base : RegNum) (disp : Disp)
  /-- SIB form with `base = 101b` and `mod = 00b`: no base register, a disp32 (R59). -/
  | sibNoBase (scale : BitVec 2) (index : RegNum) (disp : BitVec 32)
  /-- `mod = 00b`, `rm = 101b`: RIP-relative in 64-bit mode (R61), the disp32 alone elsewhere (R58). -/
  | disp32 (disp : BitVec 32)
  /-- 16-bit addressing by the base expression `rm` of R60. -/
  | base16 (rm : BitVec 3) (disp : Disp16)
  /-- 16-bit addressing, `mod = 00b`, `rm = 110b`: the disp16 alone (R60). -/
  | disp16 (disp : BitVec 16)
  deriving DecidableEq, Repr

/-- The six rows of spec/opcode_table.json. `dst` is ModRM:reg, `src1` is VEX.vvvv, `src2` is ModRM:r/m (R57). -/
inductive Instr where
  /-- `MPSADBW xmm1, xmm2, imm8` (R82). -/
  | mpsadbwReg (e : LegacyEnc) (dst src2 : RegNum) (imm8 : BitVec 8)
  /-- `MPSADBW xmm1, m128, imm8` (R82). -/
  | mpsadbwMem (e : LegacyEnc) (dst : RegNum) (src2 : MemOp) (imm8 : BitVec 8)
  /-- `VMPSADBW xmm1, xmm2, xmm3, imm8` (R83). -/
  | vmpsadbw128Reg (e : VexEnc) (dst src1 src2 : RegNum) (imm8 : BitVec 8)
  /-- `VMPSADBW xmm1, xmm2, m128, imm8` (R83). -/
  | vmpsadbw128Mem (e : VexEnc) (dst src1 : RegNum) (src2 : MemOp) (imm8 : BitVec 8)
  /-- `VMPSADBW ymm1, ymm2, ymm3, imm8` (R84). -/
  | vmpsadbw256Reg (e : VexEnc) (dst src1 src2 : RegNum) (imm8 : BitVec 8)
  /-- `VMPSADBW ymm1, ymm2, m256, imm8` (R84). -/
  | vmpsadbw256Mem (e : VexEnc) (dst src1 : RegNum) (src2 : MemOp) (imm8 : BitVec 8)
  deriving DecidableEq, Repr

end Sys2Proof
end

