-- ==== Sys2Proof/Machine/Layout.lean ====
section
/-! DEFINITION. What the bytes before the opcode and the operating mode fix: address size, extension bits, prefix
tests, and the length of an instruction (spec/30_encoding.md R53, R54, R62, R64). -/

namespace Sys2Proof

/-- The default address size of a mode: 64 in 64-bit mode, else the code segment's default (R62). -/
def Mode.addrSize : Mode → AddrSize
  | .mode64 => .a64
  | .compat32 => .a32
  | .prot32 => .a32
  | .prot16 => .a16
  | .real => .a16
  | .v8086 => .a16

/-- Prefix 67H switches 64 to 32, 32 to 16 and 16 to 32 (R62). -/
def AddrSize.toggled : AddrSize → AddrSize
  | .a64 => .a32
  | .a32 => .a16
  | .a16 => .a32

/-- The address size in bits. -/
def AddrSize.bits : AddrSize → Nat
  | .a16 => 16
  | .a32 => 32
  | .a64 => 64

/-- The width of the instruction pointer: 64 in 64-bit mode, 32 or 16 by the code segment elsewhere (R15). -/
def Mode.ipBits (m : Mode) : Nat := m.addrSize.bits

/-- The vector and general registers an encoding can name: 16 in 64-bit mode, 8 elsewhere (R11, R13). -/
def Mode.nreg : Mode → Nat
  | .mode64 => 16
  | _ => 8

/-- The VEX forms are not recognised in real-address and virtual-8086 mode (R65, R101, R114). -/
def Mode.takesVex : Mode → Bool
  | .mode64 => true
  | .compat32 => true
  | .prot32 => true
  | .prot16 => true
  | .real => false
  | .v8086 => false

/-- The address size of an instruction with these prefixes (R62); a repeated 67H acts as one. -/
def addrSizeOf (m : Mode) (ps : List Prefix) : AddrSize :=
  if ps.contains .addrSize then m.addrSize.toggled else m.addrSize

/-- The segment overrides among the prefixes, in order (R62). -/
def overridesOf : List Prefix → List SegReg
  | [] => []
  | .seg s :: ps => s :: overridesOf ps
  | _ :: ps => overridesOf ps

/-- The legacy prefixes that may stand before format L: 66H, 67H, a segment override, and F0H, which decodes
and raises `#UD` (R62, R101); F2H and F3H make another encoding (R67). -/
def Prefix.isLegacy : Prefix → Bool
  | .opSize => true
  | .addrSize => true
  | .seg _ => true
  | .lock => true
  | .repne => false
  | .rep => false
  | .rex _ => false

/-- What may precede C4H without `#UD`: segment overrides and 67H (R62). -/
def Prefix.allowedBeforeVex : Prefix → Bool
  | .addrSize => true
  | .seg _ => true
  | .opSize => false
  | .lock => false
  | .repne => false
  | .rep => false
  | .rex _ => false

def Prefix.isRex : Prefix → Bool
  | .rex _ => true
  | _ => false

/-- REX.R, 0 without a REX byte (R53). -/
def LegacyEnc.r (e : LegacyEnc) : Bool := match e.rex with | some x => x.r | none => false

/-- REX.X, 0 without a REX byte (R53). -/
def LegacyEnc.x (e : LegacyEnc) : Bool := match e.rex with | some x => x.x | none => false

/-- REX.B, 0 without a REX byte (R53). -/
def LegacyEnc.b (e : LegacyEnc) : Bool := match e.rex with | some x => x.b | none => false

/-- The register number of an extension bit and a three-bit field (R56). -/
def regNum (ext : Bool) (n : BitVec 3) : RegNum := BitVec.ofBool ext ++ n

/-- The displacement's length in bytes (R58). -/
def Disp.len : Disp → Nat
  | .none => 0
  | .d8 _ => 1
  | .d32 _ => 4

/-- The displacement's length in bytes (R60). -/
def Disp16.len : Disp16 → Nat
  | .none => 0
  | .d8 _ => 1
  | .d16 _ => 2

/-- `s + d` of R64: the SIB byte and the displacement. -/
def MemOp.len : MemOp → Nat
  | .base _ d => d.len
  | .sib _ _ _ d => 1 + d.len
  | .sibNoBase _ _ _ => 5
  | .disp32 _ => 4
  | .base16 _ d => d.len
  | .disp16 _ => 2

/-- `p + r + 3 + 1 + s + d + 1` of R64, for format L. -/
def LegacyEnc.len (e : LegacyEnc) (sd : Nat) : Nat :=
  e.prefixes.length + (if e.rex.isSome then 1 else 0) + 3 + 1 + sd + 1

/-- `p + 3 + 1 + 1 + s + d + 1` of R64, for format V. -/
def VexEnc.len (e : VexEnc) (sd : Nat) : Nat := e.prefixes.length + 3 + 1 + 1 + sd + 1

/-- The instruction's length in bytes, `len` of R64. -/
def Instr.len : Instr → Nat
  | .mpsadbwReg e _ _ _ => e.len 0
  | .mpsadbwMem e _ m _ => e.len m.len
  | .vmpsadbw128Reg e _ _ _ _ => e.len 0
  | .vmpsadbw128Mem e _ _ m _ => e.len m.len
  | .vmpsadbw256Reg e _ _ _ _ => e.len 0
  | .vmpsadbw256Mem e _ _ m _ => e.len m.len

/-- The destination register, `regnum` of R57. -/
def Instr.dst : Instr → RegNum
  | .mpsadbwReg _ d _ _ => d
  | .mpsadbwMem _ d _ _ => d
  | .vmpsadbw128Reg _ d _ _ _ => d
  | .vmpsadbw128Mem _ d _ _ _ => d
  | .vmpsadbw256Reg _ d _ _ _ => d
  | .vmpsadbw256Mem _ d _ _ _ => d

/-- The immediate byte (R63). -/
def Instr.imm8 : Instr → BitVec 8
  | .mpsadbwReg _ _ _ i => i
  | .mpsadbwMem _ _ _ i => i
  | .vmpsadbw128Reg _ _ _ _ i => i
  | .vmpsadbw128Mem _ _ _ _ i => i
  | .vmpsadbw256Reg _ _ _ _ i => i
  | .vmpsadbw256Mem _ _ _ _ i => i

/-- The bytes before REX, 0FH or C4H. -/
def Instr.prefixes : Instr → List Prefix
  | .mpsadbwReg e _ _ _ => e.prefixes
  | .mpsadbwMem e _ _ _ => e.prefixes
  | .vmpsadbw128Reg e _ _ _ _ => e.prefixes
  | .vmpsadbw128Mem e _ _ _ _ => e.prefixes
  | .vmpsadbw256Reg e _ _ _ _ => e.prefixes
  | .vmpsadbw256Mem e _ _ _ _ => e.prefixes

/-- The memory operand, if the second source is in memory (R12, R31). -/
def Instr.memOp : Instr → Option MemOp
  | .mpsadbwReg _ _ _ _ => none
  | .mpsadbwMem _ _ o _ => some o
  | .vmpsadbw128Reg _ _ _ _ _ => none
  | .vmpsadbw128Mem _ _ _ o _ => some o
  | .vmpsadbw256Reg _ _ _ _ _ => none
  | .vmpsadbw256Mem _ _ _ o _ => some o

/-- The bytes of the second source when it is in memory: 16 for the legacy and VEX.128 forms, 32 for VEX.256 (R31). -/
def Instr.operandBytes : Instr → Nat
  | .mpsadbwReg _ _ _ _ => 16
  | .mpsadbwMem _ _ _ _ => 16
  | .vmpsadbw128Reg _ _ _ _ _ => 16
  | .vmpsadbw128Mem _ _ _ _ _ => 16
  | .vmpsadbw256Reg _ _ _ _ _ => 32
  | .vmpsadbw256Mem _ _ _ _ _ => 32

/-- The legacy form, whose memory operand must be aligned (R34). -/
def Instr.isLegacy : Instr → Bool
  | .mpsadbwReg _ _ _ _ => true
  | .mpsadbwMem _ _ _ _ => true
  | .vmpsadbw128Reg _ _ _ _ _ => false
  | .vmpsadbw128Mem _ _ _ _ _ => false
  | .vmpsadbw256Reg _ _ _ _ _ => false
  | .vmpsadbw256Mem _ _ _ _ _ => false

end Sys2Proof
end

