-- ==== Sys2Proof/WellFormed.lean ====
section
/-! DEFINITION. Which instruction terms are encodings: each check below is a shape that spec/30_encoding.md gives the
bytes, and Tests/Slice0.lean shows an ill-formed term for each. -/

namespace Sys2Proof

/-- Format L (R53, R62): only legacy prefixes, the mandatory 66H among them, and REX in 64-bit mode only. -/
def LegacyEnc.wellFormed (m : Mode) (e : LegacyEnc) : Bool :=
  e.prefixes.all Prefix.isLegacy && e.prefixes.contains .opSize && (e.rex.isNone || m = .mode64)

/-- Format V (R54): a REX byte exists in 64-bit mode only, and outside 64-bit mode R, X and B are 0. -/
def VexEnc.wellFormed (m : Mode) (e : VexEnc) : Bool :=
  m = .mode64 || (e.prefixes.all (fun p => !p.isRex) && !e.r && !e.x && !e.b)

/-- A register operand whose bit 3 is the extension bit of the encoding (R56). -/
def RegNum.wellFormed (ext : Bool) (n : RegNum) : Bool := n.msb = ext

/-- VEX.vvvv: every value in 64-bit mode, below 8 elsewhere (R54, R69). -/
def vnumWellFormed (m : Mode) (n : RegNum) : Bool := m = .mode64 || !n.msb

/-- A memory operand of the address size `a`, with the extension bits `x` and `b` (R58 to R60). The four shapes that
the ModRM and SIB tables give to another form are ill-formed: a base with low bits 100 (it needs a SIB byte), a base
with low bits 101 and no displacement (in both tables), and BP alone in 16-bit addressing. -/
def MemOp.wellFormed (a : AddrSize) (x b : Bool) : MemOp → Bool
  | .base r d =>
    a ≠ .a16 && RegNum.wellFormed b r && r.setWidth 3 ≠ 4#3 && (r.setWidth 3 ≠ 5#3 || d ≠ .none)
  | .sib _ i r d =>
    a ≠ .a16 && RegNum.wellFormed x i && RegNum.wellFormed b r && (r.setWidth 3 ≠ 5#3 || d ≠ .none)
  | .sibNoBase _ i _ => a ≠ .a16 && RegNum.wellFormed x i
  | .disp32 _ => a ≠ .a16
  | .base16 rm d => a = .a16 && (rm ≠ 6#3 || d ≠ .none)
  | .disp16 _ => a = .a16

/-- `i` is an encoding of mode `m`. -/
def Instr.wellFormed (m : Mode) : Instr → Bool
  | .mpsadbwReg e d s _ => e.wellFormed m && RegNum.wellFormed e.r d && RegNum.wellFormed e.b s
  | .mpsadbwMem e d o _ =>
    e.wellFormed m && RegNum.wellFormed e.r d && o.wellFormed (addrSizeOf m e.prefixes) e.x e.b
  | .vmpsadbw128Reg e d v s _ =>
    e.wellFormed m && RegNum.wellFormed e.r d && vnumWellFormed m v && RegNum.wellFormed e.b s
  | .vmpsadbw128Mem e d v o _ =>
    e.wellFormed m && RegNum.wellFormed e.r d && vnumWellFormed m v &&
      o.wellFormed (addrSizeOf m e.prefixes) e.x e.b
  | .vmpsadbw256Reg e d v s _ =>
    e.wellFormed m && RegNum.wellFormed e.r d && vnumWellFormed m v && RegNum.wellFormed e.b s
  | .vmpsadbw256Mem e d v o _ =>
    e.wellFormed m && RegNum.wellFormed e.r d && vnumWellFormed m v &&
      o.wellFormed (addrSizeOf m e.prefixes) e.x e.b

/-- The check as a proposition that `decide` runs on. -/
abbrev Instr.WellFormed (m : Mode) (i : Instr) : Prop := i.wellFormed m = true

end Sys2Proof
end

