-- ==== Sys2Proof/Decode.lean ====
section
/-! DEFINITION. Bytes to instructions and back (spec/30_encoding.md R53 to R60, R62, R64, R67).

`decode` is total on any bytes: it answers the instruction and the bytes after it, or names why the bytes are no
(V)MPSADBW. `encode` is written from the same tables. -/

namespace Sys2Proof

/-- Why bytes are no (V)MPSADBW of spec/30_encoding.md (R67 and R134: the machine refuses, it does not guess `#UD`). -/
inductive DecodeError where
  /-- The bytes end before the instruction does (R134: they run past the program). -/
  | truncated
  /-- Another opcode. -/
  | otherOpcode
  /-- `0F 3A 42` with no 66H before it (R67). -/
  | noMandatory66
  /-- `0F 3A 42` with F2H or F3H before it (R67). -/
  | repBeforeLegacy
  /-- A REX byte that is not immediately before 0FH (R53). -/
  | misplacedRex
  /-- C4H outside 64-bit mode with bits 7:6 of the next byte not 11b: the LES instruction (R54). -/
  | les
  /-- VEX with m-mmmm other than 00011b (R67). -/
  | vexOtherMap
  /-- VEX with pp other than 01b (R67). -/
  | vexOtherPp
  /-- VEX outside 64-bit mode with the B bit stored as 0 (R54, decision D18). -/
  | vexBOutside64
  /-- VEX outside 64-bit mode with bit 3 of the stored vvvv 0 (R54, decision D18). -/
  | vexVvvvOutside64
  /-- C5H: as a two-byte VEX prefix it implies another opcode map (R54). -/
  | twoByteVex
  /-- 62H: as an EVEX prefix it opens a space the page lists no row of (R5 b, R67). -/
  | evex
  deriving DecidableEq, Repr

/-! ### Prefixes -/

/-- The segment register of an override byte (R62). -/
def SegReg.overrideByte : SegReg → Byte
  | .es => 0x26#8
  | .cs => 0x2E#8
  | .ss => 0x36#8
  | .ds => 0x3E#8
  | .fs => 0x64#8
  | .gs => 0x65#8

/-- `0100 W R X B` (R53). -/
def Rex.toByte (r : Rex) : Byte :=
  4#4 ++ BitVec.ofBool r.w ++ BitVec.ofBool r.r ++ BitVec.ofBool r.x ++ BitVec.ofBool r.b

def Rex.ofByte (b : Byte) : Rex := ⟨b.getLsbD 3, b.getLsbD 2, b.getLsbD 1, b.getLsbD 0⟩

def Prefix.toByte : Prefix → Byte
  | .opSize => 0x66#8
  | .addrSize => 0x67#8
  | .seg s => s.overrideByte
  | .lock => 0xF0#8
  | .repne => 0xF2#8
  | .rep => 0xF3#8
  | .rex r => r.toByte

/-- The prefix a byte is, if it is one: 40H to 4FH only in 64-bit mode (R53). -/
def Prefix.ofByte (m : Mode) (b : Byte) : Option Prefix :=
  if b = 0x66#8 then some .opSize
  else if b = 0x67#8 then some .addrSize
  else if b = 0x26#8 then some (.seg .es)
  else if b = 0x2E#8 then some (.seg .cs)
  else if b = 0x36#8 then some (.seg .ss)
  else if b = 0x3E#8 then some (.seg .ds)
  else if b = 0x64#8 then some (.seg .fs)
  else if b = 0x65#8 then some (.seg .gs)
  else if b = 0xF0#8 then some .lock
  else if b = 0xF2#8 then some .repne
  else if b = 0xF3#8 then some .rep
  else if b.extractLsb' 4 4 = 4#4 ∧ m = .mode64 then some (.rex (Rex.ofByte b))
  else none

/-- The longest run of prefixes at the head of the bytes. -/
def leadingPrefixes (m : Mode) : List Byte → List Prefix
  | [] => []
  | b :: bs =>
    match Prefix.ofByte m b with
    | some p => p :: leadingPrefixes m bs
    | none => []

/-- The bytes after the longest run of prefixes. -/
def afterPrefixes (m : Mode) : List Byte → List Byte
  | [] => []
  | b :: bs =>
    match Prefix.ofByte m b with
    | some _ => afterPrefixes m bs
    | none => b :: bs

/-- The REX byte, if the last prefix is one: REX is immediately before 0FH (R53). -/
def finalRex : List Prefix → Option Rex
  | [] => none
  | [.rex r] => some r
  | _ :: ps => finalRex ps

/-- The prefixes without a REX at their end. -/
def dropFinalRex : List Prefix → List Prefix
  | [] => []
  | [.rex _] => []
  | p :: ps => p :: dropFinalRex ps

/-! ### ModRM, SIB, displacement (R55, R58 to R60) -/

/-- Takes a disp8. -/
def takeD8 : List Byte → Except DecodeError (BitVec 8 × List Byte)
  | b :: bs => .ok (b, bs)
  | [] => .error .truncated

/-- Takes a little-endian disp16 (R33). -/
def takeD16 : List Byte → Except DecodeError (BitVec 16 × List Byte)
  | b0 :: b1 :: bs => .ok (b1 ++ b0, bs)
  | _ => .error .truncated

/-- Takes a little-endian disp32 (R33). -/
def takeD32 : List Byte → Except DecodeError (BitVec 32 × List Byte)
  | b0 :: b1 :: b2 :: b3 :: bs => .ok (b3 ++ b2 ++ b1 ++ b0, bs)
  | _ => .error .truncated

/-- The displacement that `mod` calls for (R58): none for 00, disp8 for 01, disp32 for 10. -/
def takeDisp (mod : BitVec 2) (bs : List Byte) : Except DecodeError (Disp × List Byte) :=
  if mod = 0#2 then .ok (.none, bs)
  else if mod = 1#2 then
    match takeD8 bs with
    | .ok (d, r) => .ok (.d8 d, r)
    | .error e => .error e
  else
    match takeD32 bs with
    | .ok (d, r) => .ok (.d32 d, r)
    | .error e => .error e

/-- The displacement that `mod` calls for in 16-bit addressing (R60). -/
def takeDisp16 (mod : BitVec 2) (bs : List Byte) : Except DecodeError (Disp16 × List Byte) :=
  if mod = 0#2 then .ok (.none, bs)
  else if mod = 1#2 then
    match takeD8 bs with
    | .ok (d, r) => .ok (.d8 d, r)
    | .error e => .error e
  else
    match takeD16 bs with
    | .ok (d, r) => .ok (.d16 d, r)
    | .error e => .error e

/-- The SIB forms (R59), after a ModRM byte with `rm = 100b`. -/
def decodeSib (x b : Bool) (mod : BitVec 2) : List Byte → Except DecodeError (MemOp × List Byte)
  | [] => .error .truncated
  | sb :: bs =>
    if sb.extractLsb' 0 3 = 5#3 ∧ mod = 0#2 then
      match takeD32 bs with
      | .ok (d, r) => .ok (.sibNoBase (sb.extractLsb' 6 2) (regNum x (sb.extractLsb' 3 3)) d, r)
      | .error e => .error e
    else
      match takeDisp mod bs with
      | .ok (d, r) =>
        .ok (.sib (sb.extractLsb' 6 2) (regNum x (sb.extractLsb' 3 3)) (regNum b (sb.extractLsb' 0 3)) d, r)
      | .error e => .error e

/-- A memory operand with 32-bit or 64-bit address size (R58). -/
def decodeMem (x b : Bool) (mod : BitVec 2) (rm : BitVec 3) (bs : List Byte) :
    Except DecodeError (MemOp × List Byte) :=
  if rm = 4#3 then decodeSib x b mod bs
  else if rm = 5#3 ∧ mod = 0#2 then
    match takeD32 bs with
    | .ok (d, r) => .ok (.disp32 d, r)
    | .error e => .error e
  else
    match takeDisp mod bs with
    | .ok (d, r) => .ok (.base (regNum b rm) d, r)
    | .error e => .error e

/-- A memory operand with 16-bit address size (R60). -/
def decodeMem16 (mod : BitVec 2) (rm : BitVec 3) (bs : List Byte) : Except DecodeError (MemOp × List Byte) :=
  if rm = 6#3 ∧ mod = 0#2 then
    match takeD16 bs with
    | .ok (d, r) => .ok (.disp16 d, r)
    | .error e => .error e
  else
    match takeDisp16 mod bs with
    | .ok (d, r) => .ok (.base16 rm d, r)
    | .error e => .error e

/-- A memory operand of address size `a`. -/
def decodeMemOp (a : AddrSize) (x b : Bool) (mod : BitVec 2) (rm : BitVec 3) (bs : List Byte) :
    Except DecodeError (MemOp × List Byte) :=
  if a = .a16 then decodeMem16 mod rm bs else decodeMem x b mod rm bs

/-! ### The two formats -/

/-- Format L after the bytes `0F 3A 42` (R53, R56, R57): ModRM, SIB and displacement, imm8. -/
def decodeLegacyTail (m : Mode) (e : LegacyEnc) : List Byte → Except DecodeError (Instr × List Byte)
  | [] => .error .truncated
  | mb :: bs =>
    if mb.extractLsb' 6 2 = 3#2 then
      match bs with
      | [] => .error .truncated
      | imm :: r => .ok (.mpsadbwReg e (regNum e.r (mb.extractLsb' 3 3)) (regNum e.b (mb.extractLsb' 0 3)) imm, r)
    else
      match decodeMemOp (addrSizeOf m e.prefixes) e.x e.b (mb.extractLsb' 6 2) (mb.extractLsb' 0 3) bs with
      | .error err => .error err
      | .ok (_, []) => .error .truncated
      | .ok (o, imm :: r) => .ok (.mpsadbwMem e (regNum e.r (mb.extractLsb' 3 3)) o imm, r)

/-- Format L after the prefixes `ps`, whose last may be REX, and 0FH. -/
def decodeLegacy (m : Mode) (ps : List Prefix) : List Byte → Except DecodeError (Instr × List Byte)
  | [] => .error .truncated
  | [b1] => if b1 = 0x3A#8 then .error .truncated else .error .otherOpcode
  | b1 :: b2 :: bs =>
    if b1 ≠ 0x3A#8 ∨ b2 ≠ 0x42#8 then .error .otherOpcode
    else if (dropFinalRex ps).any Prefix.isRex then .error .misplacedRex
    else if !(dropFinalRex ps).all Prefix.isLegacy then .error .repBeforeLegacy
    else if !(dropFinalRex ps).contains .opSize then .error .noMandatory66
    else decodeLegacyTail m ⟨dropFinalRex ps, finalRex ps⟩ bs

/-- Format V after `C4 b1 b2 42` (R54, R56, R57); `l` is VEX.L and `v` the register VEX.vvvv names. -/
def decodeVexTail (m : Mode) (e : VexEnc) (v : RegNum) (l : Bool) :
    List Byte → Except DecodeError (Instr × List Byte)
  | [] => .error .truncated
  | mb :: bs =>
    if mb.extractLsb' 6 2 = 3#2 then
      match bs with
      | [] => .error .truncated
      | imm :: r =>
        if l then
          .ok (.vmpsadbw256Reg e (regNum e.r (mb.extractLsb' 3 3)) v (regNum e.b (mb.extractLsb' 0 3)) imm, r)
        else
          .ok (.vmpsadbw128Reg e (regNum e.r (mb.extractLsb' 3 3)) v (regNum e.b (mb.extractLsb' 0 3)) imm, r)
    else
      match decodeMemOp (addrSizeOf m e.prefixes) e.x e.b (mb.extractLsb' 6 2) (mb.extractLsb' 0 3) bs with
      | .error err => .error err
      | .ok (_, []) => .error .truncated
      | .ok (o, imm :: r) =>
        if l then .ok (.vmpsadbw256Mem e (regNum e.r (mb.extractLsb' 3 3)) v o imm, r)
        else .ok (.vmpsadbw128Mem e (regNum e.r (mb.extractLsb' 3 3)) v o imm, r)

/-- Format V after the prefixes `ps` and C4H (R54). -/
def decodeVex (m : Mode) (ps : List Prefix) : List Byte → Except DecodeError (Instr × List Byte)
  | b1 :: b2 :: op :: bs =>
    if m ≠ .mode64 ∧ b1.extractLsb' 6 2 ≠ 3#2 then .error .les
    else if b1.extractLsb' 0 5 ≠ 3#5 then .error .vexOtherMap
    else if b2.extractLsb' 0 2 ≠ 1#2 then .error .vexOtherPp
    else if op ≠ 0x42#8 then .error .otherOpcode
    else if m ≠ .mode64 ∧ b1.getLsbD 5 = false then .error .vexBOutside64
    else if m ≠ .mode64 ∧ b2.getLsbD 6 = false then .error .vexVvvvOutside64
    else
      decodeVexTail m ⟨ps, !b1.getLsbD 7, !b1.getLsbD 6, !b1.getLsbD 5, b2.getLsbD 7⟩
        (~~~ b2.extractLsb' 3 4) (b2.getLsbD 2) bs
  | b1 :: _ => if m ≠ .mode64 ∧ b1.extractLsb' 6 2 ≠ 3#2 then .error .les else .error .truncated
  | [] => .error .truncated

/-- The instruction at the head of the bytes and the bytes after it, in mode `m`, or the reason there is none. -/
def decode (m : Mode) (bs : List Byte) : Except DecodeError (Instr × List Byte) :=
  match afterPrefixes m bs with
  | [] => .error .truncated
  | b :: r =>
    if b = 0x0F#8 then decodeLegacy m (leadingPrefixes m bs) r
    else if b = 0xC4#8 then decodeVex m (leadingPrefixes m bs) r
    else if b = 0xC5#8 then .error .twoByteVex
    else if b = 0x62#8 then .error .evex
    else .error .otherOpcode

/-! ### The encoder -/

/-- `mod`, `reg`, `rm` as one byte (R55); the SIB byte has the same three fields. -/
def modRM (mod : BitVec 2) (reg rm : BitVec 3) : Byte := mod ++ reg ++ rm

/-- The two bytes of a disp16, low byte first (R33). -/
def d16Bytes (d : BitVec 16) : List Byte := [d.extractLsb' 0 8, d.extractLsb' 8 8]

/-- The four bytes of a disp32, low byte first (R33). -/
def d32Bytes (d : BitVec 32) : List Byte :=
  [d.extractLsb' 0 8, d.extractLsb' 8 8, d.extractLsb' 16 8, d.extractLsb' 24 8]

/-- `mod` of a displacement (R58). -/
def Disp.mod : Disp → BitVec 2
  | .none => 0#2
  | .d8 _ => 1#2
  | .d32 _ => 2#2

def Disp.bytes : Disp → List Byte
  | .none => []
  | .d8 d => [d]
  | .d32 d => d32Bytes d

/-- `mod` of a displacement (R60). -/
def Disp16.mod : Disp16 → BitVec 2
  | .none => 0#2
  | .d8 _ => 1#2
  | .d16 _ => 2#2

def Disp16.bytes : Disp16 → List Byte
  | .none => []
  | .d8 d => [d]
  | .d16 d => d16Bytes d

/-- ModRM, SIB and displacement of a memory operand, with the three bits of ModRM.reg. -/
def MemOp.bytes (reg : BitVec 3) : MemOp → List Byte
  | .base r d => modRM d.mod reg (r.setWidth 3) :: d.bytes
  | .sib sc i r d => modRM d.mod reg 4#3 :: modRM sc (i.setWidth 3) (r.setWidth 3) :: d.bytes
  | .sibNoBase sc i d => modRM 0#2 reg 4#3 :: modRM sc (i.setWidth 3) 5#3 :: d32Bytes d
  | .disp32 d => modRM 0#2 reg 5#3 :: d32Bytes d
  | .base16 rm d => modRM d.mod reg rm :: d.bytes
  | .disp16 d => modRM 0#2 reg 6#3 :: d16Bytes d

/-- Prefixes, REX, `0F 3A 42` (R53). -/
def LegacyEnc.head (e : LegacyEnc) : List Byte :=
  e.prefixes.map Prefix.toByte ++ (match e.rex with | some r => [r.toByte] | none => []) ++
    [0x0F#8, 0x3A#8, 0x42#8]

/-- Byte 1 of the three-byte VEX prefix: R, X and B complemented, m-mmmm = 00011b (R54). -/
def VexEnc.byte1 (e : VexEnc) : Byte :=
  BitVec.ofBool (!e.r) ++ BitVec.ofBool (!e.x) ++ BitVec.ofBool (!e.b) ++ 3#5

/-- Byte 2 of the three-byte VEX prefix: W, vvvv complemented, L, pp = 01b (R54). -/
def VexEnc.byte2 (e : VexEnc) (v : RegNum) (l : Bool) : Byte :=
  BitVec.ofBool e.w ++ (~~~ v) ++ BitVec.ofBool l ++ 1#2

/-- Prefixes, `C4 b1 b2 42` (R54). -/
def VexEnc.head (e : VexEnc) (v : RegNum) (l : Bool) : List Byte :=
  e.prefixes.map Prefix.toByte ++ [0xC4#8, e.byte1, e.byte2 v l, 0x42#8]

/-- The bytes of a well-formed instruction. -/
def encode : Instr → List Byte
  | .mpsadbwReg e d s imm => e.head ++ [modRM 3#2 (d.setWidth 3) (s.setWidth 3)] ++ [imm]
  | .mpsadbwMem e d o imm => e.head ++ o.bytes (d.setWidth 3) ++ [imm]
  | .vmpsadbw128Reg e d v s imm => e.head v false ++ [modRM 3#2 (d.setWidth 3) (s.setWidth 3)] ++ [imm]
  | .vmpsadbw128Mem e d v o imm => e.head v false ++ o.bytes (d.setWidth 3) ++ [imm]
  | .vmpsadbw256Reg e d v s imm => e.head v true ++ [modRM 3#2 (d.setWidth 3) (s.setWidth 3)] ++ [imm]
  | .vmpsadbw256Mem e d v o imm => e.head v true ++ o.bytes (d.setWidth 3) ++ [imm]

/-! ### The opcode table (R72) -/

/-- A row of spec/opcode_table.json: a byte string `b` matches when `b[k] AND mask[k] = pattern[k]` for k = 0 to 4. -/
structure TableRow where
  pattern : List Byte
  mask : List Byte
  deriving DecidableEq, Repr

/-- The six rows, in the table's order: within a form the register row is tried first (R72). -/
def opcodeTable : List TableRow := [
  ⟨[0x66#8, 0x0F#8, 0x3A#8, 0x42#8, 0xC0#8], [0xFF#8, 0xFF#8, 0xFF#8, 0xFF#8, 0xC0#8]⟩,
  ⟨[0x66#8, 0x0F#8, 0x3A#8, 0x42#8, 0x00#8], [0xFF#8, 0xFF#8, 0xFF#8, 0xFF#8, 0x00#8]⟩,
  ⟨[0xC4#8, 0x03#8, 0x01#8, 0x42#8, 0xC0#8], [0xFF#8, 0x1F#8, 0x07#8, 0xFF#8, 0xC0#8]⟩,
  ⟨[0xC4#8, 0x03#8, 0x01#8, 0x42#8, 0x00#8], [0xFF#8, 0x1F#8, 0x07#8, 0xFF#8, 0x00#8]⟩,
  ⟨[0xC4#8, 0x03#8, 0x05#8, 0x42#8, 0xC0#8], [0xFF#8, 0x1F#8, 0x07#8, 0xFF#8, 0xC0#8]⟩,
  ⟨[0xC4#8, 0x03#8, 0x05#8, 0x42#8, 0x00#8], [0xFF#8, 0x1F#8, 0x07#8, 0xFF#8, 0x00#8]⟩]

/-- The first five bytes match the row. -/
def TableRow.accepts (r : TableRow) (bs : List Byte) : Bool :=
  List.zipWith (fun b m => b &&& m) (bs.take 5) r.mask = r.pattern

/-- The index of the first row that the bytes match. -/
def tableRowOf (bs : List Byte) : Option Nat := opcodeTable.findIdx? (fun r => r.accepts bs)

/-- The row an instruction belongs to. -/
def Instr.tableRow : Instr → Nat
  | .mpsadbwReg _ _ _ _ => 0
  | .mpsadbwMem _ _ _ _ => 1
  | .vmpsadbw128Reg _ _ _ _ _ => 2
  | .vmpsadbw128Mem _ _ _ _ _ => 3
  | .vmpsadbw256Reg _ _ _ _ _ => 4
  | .vmpsadbw256Mem _ _ _ _ _ => 5

/-- The instruction without its optional prefixes and REX, over which the table is written (R72): the mandatory 66H
stays in format L. -/
def Instr.strip (i : Instr) : Instr :=
  match i with
  | .mpsadbwReg _ d s imm => .mpsadbwReg ⟨[.opSize], none⟩ d s imm
  | .mpsadbwMem _ d o imm => .mpsadbwMem ⟨[.opSize], none⟩ d o imm
  | .vmpsadbw128Reg e d v s imm => .vmpsadbw128Reg ⟨[], e.r, e.x, e.b, e.w⟩ d v s imm
  | .vmpsadbw128Mem e d v o imm => .vmpsadbw128Mem ⟨[], e.r, e.x, e.b, e.w⟩ d v o imm
  | .vmpsadbw256Reg e d v s imm => .vmpsadbw256Reg ⟨[], e.r, e.x, e.b, e.w⟩ d v s imm
  | .vmpsadbw256Mem e d v o imm => .vmpsadbw256Mem ⟨[], e.r, e.x, e.b, e.w⟩ d v o imm

/-! ### The opcode table's numbering -/

/-- The bytes of the number `w`, the first byte its least significant, `nbits` in all, and then zeros up to the
longest instruction that executes (15 bytes, R64). -/
def tableBytes (nbits w : Nat) : List Byte :=
  (List.range (nbits / 8)).map (fun k => BitVec.ofNat 8 (w >>> (8 * k))) ++ List.replicate (15 - nbits / 8) 0#8

/-- The instruction the decoder reads from a word of spec/opcode_table.json, in 64-bit mode (log 26). -/
def decodeTableWord (nbits w : Nat) : Option Instr :=
  match decode .mode64 (tableBytes nbits w) with
  | .ok (i, _) => some i
  | .error _ => none

end Sys2Proof
end

