-- ==== Sys2Proof/Machine/State.lean ====
section
/-! DEFINITION. What the machine holds, why a step can stop, and the state after reset.

Every field is plain data. The fields are those of the table in spec/10_state.md section 1, the parameters of
spec/00_scope.md R6 that the spec leaves OPEN, and the launch parameters of spec/20_memory.md R38 and
spec/70_reset_and_hazards.md R134. -/

namespace Sys2Proof.Machine

open Sys2Proof

/-- The offsets `first` to `last`, both included. -/
structure OffsetRange where
  first : Nat
  last : Nat
  deriving DecidableEq, Repr

/-- A segment register (R14): its selector, and the base, limit and rights it holds. No offset above `limit` lies inside
the segment, and none in a range of `outside` does (log 15): a segment that begins at offset 0 has no such range, an
expand-down segment has the range below its first offset, and any other set of offsets that the parameter `SegCheck` of
R6 may accept is written the same way. `readable` says that the segment may be read, `null` that a null selector was
loaded (R104 b). -/
structure Segment where
  selector : BitVec 16
  base : Addr
  limit : BitVec 32
  outside : List OffsetRange
  readable : Bool
  null : Bool
  deriving DecidableEq, Repr

/-- Why translation denies a data read: what the error code of R116 tells apart. -/
inductive Denial where
  /-- The page is not present. -/
  | notPresent
  /-- The page is present and lacks permission. -/
  | protection
  /-- A reserved bit is set in a paging entry; `p` is the P bit reported with it, which R116 does not fix (log 10). -/
  | reservedBit (p : Bool)
  /-- A protection key denies the read. -/
  | key
  deriving DecidableEq, Repr

/-- One row of the parameter `Translate` (R37): `size` linear addresses from `base` stand at `phys`, and `deny` says for
each privilege level 0 to 3 whether a data read is denied there, and why; `none` lets it pass. -/
structure Region where
  base : Nat
  size : Nat
  phys : Nat
  deny : Vector (Option Denial) 4
  deriving DecidableEq, Repr

/-- The parameter `Translate` of R6 and R37 as plain data: paging off, or a list of regions of which the first that
holds an address counts and outside which no page is present (log 10). -/
inductive Translation where
  | off
  | paged (regions : List Region)
  deriving DecidableEq, Repr

/-- A range of physical addresses that belongs to a device (R35). -/
structure Window where
  base : Nat
  size : Nat
  deriving DecidableEq, Repr

/-- Memory: the bytes that differ from what an unlisted address reads as, addresses strictly rising. -/
abbrev Memory := List Host.Cell

/-- The machine. -/
structure State where
  /-- `VR[0]` to `VR[15]` (R10, R11); outside 64-bit mode an encoding reaches the first eight. -/
  vr : Vector VReg 16
  /-- `GPR[0]` to `GPR[15]` (R13). -/
  gpr : Vector Addr 16
  /-- The segment registers (R14). -/
  es : Segment
  cs : Segment
  ss : Segment
  ds : Segment
  fs : Segment
  gs : Segment
  /-- The instruction pointer (R15), below 2 to the power of the mode's width. -/
  rip : Addr
  /-- EFLAGS and MXCSR, which no instruction here reads or writes (R16). -/
  eflags : BitVec 32
  mxcsr : BitVec 32
  /-- The control registers of R18, and CR2, which records a page fault's address (R105). -/
  cr0 : BitVec 64
  cr2 : BitVec 64
  cr4 : BitVec 64
  xcr0 : BitVec 64
  /-- The current privilege level (R18). -/
  cpl : BitVec 2
  /-- The operating mode, `MODE` of R6. -/
  mode : Mode
  /-- `MAXVL` of R6 and R7 and the CPUID feature flags of R17, constants of the part. -/
  part : Part
  /-- `VA_BITS` of R6. -/
  vaBits : VaBits
  /-- `Translate` of R6 and R37. -/
  translation : Translation
  /-- The physical ranges that are no ordinary memory (R35). -/
  devices : List Window
  /-- Memory by physical address (R30). -/
  mem : Memory
  /-- `BASE`, the instruction pointer's value at the program's first byte, and `|P|`, its length (R134). -/
  progBase : Addr
  progLen : Nat
  deriving DecidableEq, Repr

/-- How a step stops with an exception of (V)MPSADBW (R109: the faulted state is final for the run). Every one of them
leaves each register, the flags and memory as they were, the instruction pointer at the instruction's first byte. Safe:
what a handler would do is not modelled (R110, log 1), so nothing is claimed after it. -/
inductive Fault where
  /-- `#UD`, vector 6 (R101): raised by every meaning when an enabling bit or feature flag is missing, or a prefix
  does not go with the encoding. -/
  | invalidOpcode
  /-- `#NM`, vector 7 (R102): raised by every meaning when CR0.TS = 1. -/
  | deviceNotAvailable
  /-- `#SS(0)`, vector 12 (R103): raised by a memory operand through SS. -/
  | stackSegment
  /-- `#GP(0)`, vector 13 (R104): raised by a memory operand through another segment, by a misaligned operand of the
  legacy form, and by every meaning when the instruction is longer than 15 bytes. -/
  | generalProtection
  /-- `#PF(code)`, vector 14 (R105, R116): raised by a memory operand; `cr2` is the address that CR2 receives. -/
  | pageFault (code : BitVec 32) (cr2 : Addr)
  deriving DecidableEq, Repr

/-- Why there is no next state without an exception. All are safe: nothing is claimed of such a step. -/
inductive Refusal where
  /-- Raised by `exec` for an instruction that has no meaning yet; no arm does. -/
  | notModelled (mnemonic : String)
  /-- Raised by `step` at `RIP = BASE + |P|`: the run is over, successfully (R134). -/
  | endOfProgram
  /-- Raised by `step`: the bytes at RIP are no (V)MPSADBW, or run past the program (R67, R134). -/
  | undecoded (e : DecodeError)
  /-- Raised by `step`: the instruction's bytes wrap or leave the canonical addresses (R15, decision D10). -/
  | fetchStraddles
  /-- Raised by a memory operand with a byte outside ordinary memory (R35, decision D19). -/
  | deviceMemory
  deriving DecidableEq, Repr

/-! ### Reset (R130; log 2 and 3) -/

/-- A segment register after reset, but CS: selector and base 0, offsets 0 to FFFFH, readable (PRESUMED, log 2). -/
def resetSegment : Segment := ⟨0#16, 0#64, 0xFFFF#32, [], true, false⟩

/-- General registers after reset: 0 but for EDX, which holds processor identification (R130; the value, log 2). -/
def resetGpr : Vector Addr 16 := (Vector.replicate 16 0#64).set 2 0x806F0#64

/-- The machine right after reset: the values of R130, those of log 2 where R130 gives none, and the parameters of
log 3. No program is loaded. -/
def State.reset : State where
  vr := Vector.replicate 16 0#512
  gpr := resetGpr
  es := resetSegment
  cs := ⟨0xF000#16, 0xFFFF0000#64, 0xFFFF#32, [], true, false⟩
  ss := resetSegment
  ds := resetSegment
  fs := resetSegment
  gs := resetSegment
  rip := 0xFFF0#64
  eflags := 0x2#32
  mxcsr := 0x1F80#32
  cr0 := 0x60000010#64
  cr2 := 0#64
  cr4 := 0#64
  xcr0 := 1#64
  cpl := 0#2
  mode := .real
  part := .avx true .v256
  vaBits := .va48
  translation := .off
  devices := []
  mem := []
  progBase := 0xFFF0#64
  progLen := 0

end Sys2Proof.Machine
end

