-- ==== Sys2Proof/Machine/Flags.lean ====
section
/-! DEFINITION. The bits an instruction consults, and the bits of a page-fault code (spec/10_state.md R16 to R18,
spec/60_exceptions.md R101, R107, R116). No instruction computes a flag: "Flags Affected: None" (R16). -/

namespace Sys2Proof.Machine

open Sys2Proof

/-! ### The enabling bits of R18 -/

/-- CR0.EM, bit 2. -/
def State.em (s : State) : Bool := s.cr0.getLsbD 2

/-- CR0.TS, bit 3. -/
def State.ts (s : State) : Bool := s.cr0.getLsbD 3

/-- CR4.OSFXSR, bit 9. -/
def State.osfxsr (s : State) : Bool := s.cr4.getLsbD 9

/-- CR4.OSXSAVE, bit 18. -/
def State.osxsave (s : State) : Bool := s.cr4.getLsbD 18

/-- `XCR0[2:1] = 11b`: AVX state and SSE state both enabled. -/
def State.avxState (s : State) : Bool := s.xcr0.getLsbD 2 && s.xcr0.getLsbD 1

/-! ### The CPUID feature flags (R6, R17) -/

/-- `HAS_SSE4_1`; a part with AVX has it. -/
def State.hasSse41 (s : State) : Bool :=
  match s.part with
  | .sse f _ => f
  | .avx _ _ => true

/-- `HAS_AVX`. -/
def State.hasAvx (s : State) : Bool :=
  match s.part with
  | .sse _ _ => false
  | .avx _ _ => true

/-- `HAS_AVX2`. -/
def State.hasAvx2 (s : State) : Bool :=
  match s.part with
  | .sse _ _ => false
  | .avx f _ => f

/-! ### Invalid-opcode causes (R101) -/

/-- A LOCK prefix is present. -/
def hasLock (ps : List Prefix) : Bool := ps.contains .lock

/-- The `#UD` causes of the legacy form: no SSE4_1, CR0.EM = 1, CR4.OSFXSR = 0, a LOCK prefix (R101). -/
def State.legacyUd (s : State) (e : LegacyEnc) : Bool :=
  !s.hasSse41 || s.em || !s.osfxsr || hasLock e.prefixes

/-- The `#UD` causes of a VEX form whose feature flag is `flag`: the mode, the flag, CR4.OSXSAVE = 0,
`XCR0[2:1] ≠ 11b`, and a LOCK, 66H, F2H, F3H or REX prefix before the VEX prefix (R101). -/
def State.vexUd (s : State) (flag : Bool) (e : VexEnc) : Bool :=
  !s.mode.takesVex || !flag || !s.osxsave || !s.avxState || !e.prefixes.all Prefix.allowedBeforeVex

/-! ### The page-fault error code (R116) -/

/-- Bit 0 P, bit 2 U/S, bit 3 RSVD, bit 5 PK; W/R and I/D are 0 for a data read (R116). -/
def pfCode (present : Bool) (cpl : BitVec 2) (rsvd key : Bool) : BitVec 32 :=
  (if present then 1#32 else 0#32) ||| (if cpl = 3#2 then 4#32 else 0#32) |||
    (if rsvd then 8#32 else 0#32) ||| (if key then 32#32 else 0#32)

/-- The error code of a data read that is denied at level `cpl` (R116). -/
def Denial.code (d : Denial) (cpl : BitVec 2) : BitVec 32 :=
  match d with
  | .notPresent => pfCode false cpl false false
  | .protection => pfCode true cpl false false
  | .reservedBit p => pfCode p cpl true false
  | .key => pfCode true cpl false true

/-! ### What identifies an exception (R107) -/

/-- The vector number. -/
def Fault.vector : Fault → Nat
  | .invalidOpcode => 6
  | .deviceNotAvailable => 7
  | .stackSegment => 12
  | .generalProtection => 13
  | .pageFault _ _ => 14

/-- The error code, if the exception carries one. -/
def Fault.errorCode : Fault → Option (BitVec 32)
  | .invalidOpcode => none
  | .deviceNotAvailable => none
  | .stackSegment => some 0#32
  | .generalProtection => some 0#32
  | .pageFault c _ => some c

/-- The address recorded in CR2, for a page fault only. -/
def Fault.cr2Value : Fault → Option Addr
  | .pageFault _ a => some a
  | _ => none

end Sys2Proof.Machine
end

