-- ==== Sys2Proof/Machine/Ops.lean ====
section
/-! DEFINITION. The named operations over registers and memory that every instruction shares: register access, raising an
exception, the checks before execution, segmentation, translation, the operand read, and the fetch. -/

namespace Sys2Proof.Machine

open Sys2Proof

/-- One step of a computation that may stop: goes on with the value, or stops as it stopped. -/
def andThen {α β : Type} (o : Host.Outcome α Fault Refusal) (k : α → Host.Outcome β Fault Refusal) :
    Host.Outcome β Fault Refusal :=
  match o with
  | .next a => k a
  | .fault f => .fault f
  | .refused r => .refused r

/-! ### Widths -/

/-- The low `n` bits, zero-extended. -/
def lowBits (n : Nat) (a : Addr) : Addr := (a.setWidth n).setWidth 64

/-- `MAXVL` in bits (R6). -/
def maxVlBits : MaxVl → Nat
  | .v128 => 128
  | .v256 => 256
  | .v512 => 512

/-- `MAXVL` of the part (R6, R7). DESIGN CHOICE (log 32): R7 counts the widest register that the processor implements AND HAS
ENABLED, and no rule says which enabling bits decide that; here it is a constant of the part, whatever XCR0 holds. -/
def State.maxVl (s : State) : MaxVl :=
  match s.part with
  | .sse _ m => m
  | .avx _ .v256 => .v256
  | .avx _ .v512 => .v512

/-- `VA_BITS` in bits (R6). -/
def vaBitsNat : VaBits → Nat
  | .va48 => 48
  | .va57 => 57

/-! ### Registers -/

/-- `VR[n]` (R8, R10). -/
def State.readVr (s : State) (n : RegNum) : VReg := s.vr[n.toNat]'n.isLt

/-- `VR[n] <- v`: all `MAXVL` bits; the storage above them stays 0 (R8, R10). -/
def State.writeVr (s : State) (n : RegNum) (v : VReg) : State :=
  { s with vr := s.vr.set n.toNat ((v.setWidth (maxVlBits s.maxVl)).setWidth 512) n.isLt }

/-- `XMM[n]`, bits 127:0 of `VR[n]` (R8). -/
def State.xmm (s : State) (n : RegNum) : Lane := (s.readVr n).setWidth 128

/-- `YMM[n]`, bits 255:0 of `VR[n]` (R8). -/
def State.ymm (s : State) (n : RegNum) : BitVec 256 := (s.readVr n).setWidth 256

/-- `GPR[n]` read at an address size, zero-extended (R58). -/
def State.gprAt (s : State) (a : AddrSize) (n : RegNum) : Addr := lowBits a.bits (s.gpr[n.toNat]'n.isLt)

/-- The segment register of a name (R14). -/
def State.seg (s : State) : SegReg → Segment
  | .es => s.es
  | .cs => s.cs
  | .ss => s.ss
  | .ds => s.ds
  | .fs => s.fs
  | .gs => s.gs

/-- `RIP + len`, modulo 2 to the power of the instruction pointer's width (R15). -/
def State.nextRip (s : State) (len : Nat) : Addr := lowBits s.mode.ipBits (s.rip + BitVec.ofNat 64 len)

/-- Stages 6 and 7 of R86: writes the destination register and moves past the instruction. -/
def State.complete (s : State) (dst : RegNum) (v : VReg) (len : Nat) : State :=
  { s.writeVr dst v with rip := s.nextRip len }

/-! ### Taking an exception (R109, R110) -/

/-- Raises an exception: the step stops with it, and no register, flag or byte of memory has changed (R109). The spec
gives no entry (R110), so there is no next state. -/
def raise {α : Type} (f : Fault) : Host.Outcome α Fault Refusal := .fault f

/-- The state in which the machine stands when a step has stopped with `f`: as before the instruction, and CR2 holds
the address of a page fault (R105, R109). It is what the parameter `Deliver` of R110 would be given. -/
def State.atFault (s : State) (f : Fault) : State :=
  match f with
  | .pageFault _ a => { s with cr2 := a }
  | _ => s

/-- The checks before the operand, in the order of R108: `#GP(0)` for the length, `#UD`, `#NM`. -/
def State.preCheck (s : State) (len : Nat) (ud : Bool) : Option Fault :=
  if 15 < len then some .generalProtection
  else if ud then some .invalidOpcode
  else if s.ts then some .deviceNotAvailable
  else none

/-! ### From effective address to linear address (R36) -/

/-- `LA` of R36. -/
def State.linear (s : State) (seg : SegReg) (ea : Addr) : Addr :=
  match s.mode with
  | .mode64 => if seg = .fs ∨ seg = .gs then (s.seg seg).base + ea else ea
  | .real => ((s.seg seg).selector.setWidth 64 <<< 4) + ea
  | .v8086 => ((s.seg seg).selector.setWidth 64 <<< 4) + ea
  | .compat32 => lowBits 32 ((s.seg seg).base + ea)
  | .prot32 => lowBits 32 ((s.seg seg).base + ea)
  | .prot16 => lowBits 32 ((s.seg seg).base + ea)

/-- The linear address `LA + j` of byte `j` of an operand, at the width of a linear address (R33; log 9). -/
def State.byteAddr (s : State) (la : Addr) (j : Nat) : Addr :=
  if s.mode = .mode64 then la + BitVec.ofNat 64 j else lowBits 32 (la + BitVec.ofNat 64 j)

/-- The linear addresses of an operand of `n` bytes, in increasing order. -/
def State.byteAddrs (s : State) (la : Addr) (n : Nat) : List Addr := (List.range n).map (s.byteAddr la)

/-- Canonical form: bits 63 down to `VA_BITS - 1` all equal (R36). -/
def canonical (va : VaBits) (a : Addr) : Bool :=
  a >>> (vaBitsNat va - 1) = 0#64 || a >>> (vaBitsNat va - 1) = BitVec.allOnes 64 >>> (vaBitsNat va - 1)

/-- The fault of an address that fails its segment's check: `#SS(0)` for SS, `#GP(0)` otherwise (R36). -/
def segFault (seg : SegReg) : Fault := if seg = .ss then .stackSegment else .generalProtection

/-- The range holds the offset. -/
def OffsetRange.holds (r : OffsetRange) (off : Nat) : Bool := decide (r.first ≤ off) && decide (off ≤ r.last)

/-- The offset lies inside the segment: not above the limit, and in no range outside it (R36; log 15). -/
def Segment.inside (g : Segment) (off : Nat) : Bool :=
  decide (off ≤ g.limit.toNat) && !g.outside.any (fun r => r.holds off)

/-- The segment may be read: it is readable, and no null selector was loaded (R36, R104 b). That a null SS fails here,
and so raises `#SS(0)`, is DEDUCED (log 15): R104 (b) names the null selector for CS, DS, ES, FS and GS only and R103 is
silent, but R36 asks of every segment that it be readable, and a null selector names none that could be. -/
def Segment.mayRead (g : Segment) : Bool := g.readable && !g.null

/-- The segment may be read, and every offset `EA` to `EA + n - 1` lies inside it (R36, R103, R104 b). -/
def State.segLimitCheck (s : State) (seg : SegReg) (ea : Addr) (n : Nat) : Option Fault :=
  if (s.seg seg).mayRead && (List.range n).all (fun j => (s.seg seg).inside (ea.toNat + j)) then none
  else some (segFault seg)

/-- `SegCheck(S, EA, n)` of R6 and R36: canonical form in 64-bit mode, the range 0 to FFFFH in real-address and virtual-8086
mode, and elsewhere what the segment register holds, its rights and its set of offsets, both open; every one of the `n`
bytes is checked (R32). -/
def State.segCheck (s : State) (seg : SegReg) (ea : Addr) (n : Nat) : Option Fault :=
  match s.mode with
  | .mode64 =>
    if (s.byteAddrs (s.linear seg ea) n).all (canonical s.vaBits) then none else some (segFault seg)
  | .real => if ea.toNat + n ≤ 0x10000 then none else some .generalProtection
  | .v8086 => if ea.toNat + n ≤ 0x10000 then none else some .generalProtection
  | .compat32 => s.segLimitCheck seg ea n
  | .prot32 => s.segLimitCheck seg ea n
  | .prot16 => s.segLimitCheck seg ea n

/-! ### Translation (R37) -/

def Region.holds (r : Region) (a : Addr) : Bool := r.base ≤ a.toNat && decide (a.toNat < r.base + r.size)

/-- Where the region puts an address. -/
def Region.place (r : Region) (a : Addr) : Nat := r.phys + (a.toNat - r.base)

/-- What the region denies a data read at level `cpl`, if anything. -/
def Region.denial (r : Region) (cpl : BitVec 2) : Option Denial := r.deny[cpl.toNat]'cpl.isLt

/-- A data read of one address in a region at level `cpl`: its place, or the error code of R116. -/
def Region.read (r : Region) (cpl : BitVec 2) (a : Addr) : Except (BitVec 32) Nat :=
  match r.denial cpl with
  | none => .ok (r.place a)
  | some d => .error (d.code cpl)

/-- `Translate(LA, data read, CPL)` of R37 for one address: the physical address, or the error code of R116. Paging
plays no part in real-address mode (R105). -/
def State.translate (s : State) (a : Addr) : Except (BitVec 32) Nat :=
  match s.translation with
  | .off => .ok a.toNat
  | .paged regions =>
    if s.mode = .real then .ok a.toNat
    else
      match regions.find? (fun r => r.holds a) with
      | some r => r.read s.cpl a
      | none => .error (Denial.notPresent.code s.cpl)

/-- Translates addresses in order: all the places, or the first address that faults and its error code (R37, R105:
the lower page's fault is reported). DESIGN CHOICE (log 31): the order is that of the operand's bytes, so that for an operand
that wraps the linear address space the page at the top comes before the page at 0; R105 does not say which of the two is
the lower. -/
def State.translateAll (s : State) : List Addr → Except (Addr × BitVec 32) (List Nat)
  | [] => .ok []
  | a :: as =>
    match s.translate a with
    | .error c => .error (a, c)
    | .ok p =>
      match s.translateAll as with
      | .error x => .error x
      | .ok ps => .ok (p :: ps)

/-- The number of address bits within a page: PRESUMED (log 8); only CR2's bound depends on it. -/
def pageBits : Nat := 12

/-- Two linear addresses in one page. -/
def samePage (a b : Addr) : Bool := a >>> pageBits = b >>> pageBits

/-- The addresses that CR2 may receive (R105): the accessed bytes that lie in the page of the byte that faults. -/
def State.pfCandidates (s : State) (la : Addr) (n : Nat) (bad : Addr) : List Addr :=
  (s.byteAddrs la n).filter (samePage bad)

/-- The parameter `PFAddr` of R105: one of the candidates, and nothing says which (log 8). -/
def State.pfAddr (s : State) (la : Addr) (n : Nat) (bad : Addr) : Addr :=
  ((s.pfCandidates la n bad)[Config.pfAddrPick la n bad % (s.pfCandidates la n bad).length]?).getD bad

/-! ### The operand read (R31 to R35) -/

/-- The physical address belongs to a device. -/
def State.isDevice (s : State) (p : Nat) : Bool :=
  s.devices.any (fun w => w.base ≤ p && decide (p < w.base + w.size))

/-- The bytes at physical addresses; refuses when one of them is no ordinary memory (R35). -/
def State.readPhys (s : State) (ps : List Nat) : Host.Outcome (List Byte) Fault Refusal :=
  if ps.any s.isDevice then .refused .deviceMemory else .next (ps.map s.mem.read)

/-- Translates and reads the `n` bytes at linear address `la` (R31, R37). -/
def State.readLinear (s : State) (la : Addr) (n : Nat) : Host.Outcome (List Byte) Fault Refusal :=
  match s.translateAll (s.byteAddrs la n) with
  | .ok ps => s.readPhys ps
  | .error (bad, code) => raise (.pageFault code (s.pfAddr la n bad))

/-- The `n` bytes of a memory operand, with the checks in the order of R86 and R108: segment or canonical form, the
alignment of the legacy form, translation. -/
def State.readOperand (s : State) (aligned : Bool) (seg : SegReg) (ea : Addr) (n : Nat) :
    Host.Outcome (List Byte) Fault Refusal :=
  match s.segCheck seg ea n with
  | some f => raise f
  | none =>
    if aligned && decide ((s.linear seg ea).toNat % 16 ≠ 0) then raise .generalProtection
    else s.readLinear (s.linear seg ea) n

/-! ### Fetching an instruction (R15, R30, R41, R134) -/

/-- The linear address of the instruction byte at offset `RIP + j`: through CS outside 64-bit mode (R30, R130). -/
def State.fetchLinear (s : State) (j : Nat) : Addr :=
  match s.mode with
  | .mode64 => s.nextRip j
  | _ => lowBits 32 (s.cs.base + s.nextRip j)

/-- Where an instruction byte stands: the program is taken as mapped and executable (R41), so a region that holds the
address places it whatever its rights, and without one it stands at its own linear address (log 11). -/
def State.fetchPhys (s : State) (a : Addr) : Nat :=
  match s.translation with
  | .off => a.toNat
  | .paged regions =>
    if s.mode = .real then a.toNat
    else
      match regions.find? (fun r => r.holds a) with
      | some r => r.place a
      | none => a.toNat

/-- The instruction byte at `RIP + j`. DESIGN CHOICE (log 11): a byte that stands in a device window is fetched from memory
like any other; R35 refuses a memory OPERAND there and says nothing of the fetch. -/
def State.fetchByte (s : State) (j : Nat) : Byte := s.mem.read (s.fetchPhys (s.fetchLinear j))

/-- `n` instruction bytes from `RIP + j` on. -/
def State.fetchFrom (s : State) : Nat → Nat → List Byte
  | 0, _ => []
  | n + 1, j => s.fetchByte j :: s.fetchFrom n (j + 1)

/-- How far RIP stands behind `BASE`, at the instruction pointer's width. -/
def State.progOffset (s : State) : Nat := (lowBits s.mode.ipBits (s.rip - s.progBase)).toNat

/-- The run is over, successfully: `RIP = BASE + |P|` (R134). -/
def State.atEnd (s : State) : Bool := s.progOffset = s.progLen

/-- The program's bytes from RIP to its end (R134); none when RIP stands outside the program. -/
def State.fetchBytes (s : State) : List Byte := s.fetchFrom (s.progLen - s.progOffset) 0

/-- The bytes of an instruction of `len` bytes at RIP wrap the address space or leave the canonical addresses (R15). -/
def State.fetchStraddles (s : State) (len : Nat) : Bool :=
  match s.mode with
  | .mode64 =>
    decide (2 ^ 64 < s.rip.toNat + len) || !(List.range len).all (fun j => canonical s.vaBits (s.fetchLinear j))
  | _ =>
    decide (2 ^ s.mode.ipBits < s.rip.toNat + len) ||
      decide (2 ^ 32 < (lowBits 32 (s.cs.base + s.rip)).toNat + len)

/-! ### What the outside can do (R130, R131, R134) -/

/-- INIT, as opposed to RESET (R130): the vector registers, MXCSR and XCR0 keep their values, and so do memory and what
is fixed for the part or its platform; everything else is as after RESET. -/
def State.init (s : State) : State :=
  { State.reset with
    vr := s.vr
    mxcsr := s.mxcsr
    xcr0 := s.xcr0
    mem := s.mem
    part := s.part
    vaBits := s.vaBits
    devices := s.devices }

/-! ### Launching a program (R131, R134; log 5) -/

/-- What system software must have set before any form executes (R131): 64-bit mode, CR0.EM = 0, CR0.TS = 0,
CR4.OSFXSR = 1, CR4.OSXSAVE = 1, `XCR0[2:1] = 11b`. -/
def State.enabled (s : State) : State :=
  { s with
    mode := .mode64
    cr0 := s.cr0 &&& ~~~ 0xC#64
    cr4 := s.cr4 ||| 0x40200#64
    xcr0 := s.xcr0 ||| 6#64 }

/-- Puts bytes where the fetch from RIP reads them, the first at offset `j`. -/
def State.placeBytes (s : State) : List Byte → Nat → Memory → Memory
  | [], _, m => m
  | b :: bs, j, m => s.placeBytes bs (j + 1) (m.write (s.fetchPhys (s.fetchLinear j)) b)

/-- Loads a program at RIP: `BASE = RIP` and `P` is the bytes (R134). -/
def State.loadProgram (s : State) (bs : List Byte) : State :=
  { s with mem := s.placeBytes bs 0 s.mem, progBase := s.rip, progLen := bs.length }

end Sys2Proof.Machine
end

