-- ==== Sys2Proof/Machine/Operands.lean ====
section
/-! DEFINITION. The memory form of the second source operand: effective address, segment, and the operand read
(spec/30_encoding.md R58 to R62, spec/20_memory.md R31). -/

namespace Sys2Proof.Machine

open Sys2Proof

/-! ### Displacements -/

/-- The displacement sign-extended, not scaled (R58). -/
def dispVal : Disp → Addr
  | .none => 0#64
  | .d8 d => d.signExtend 64
  | .d32 d => d.signExtend 64

/-- The displacement of a 16-bit form (R60). -/
def dispVal16 : Disp16 → Addr
  | .none => 0#64
  | .d8 d => d.signExtend 64
  | .d16 d => d.setWidth 64

/-! ### Effective address -/

/-- `index_val` of R59: 0 when `X:index = 0100b`, else the index register shifted by the scale. -/
def State.indexVal (s : State) (a : AddrSize) (scale : BitVec 2) (index : RegNum) : Addr :=
  if index = 4#4 then 0#64 else s.gprAt a index <<< scale.toNat

/-- The base expressions of R60, by `rm`. -/
def State.base16Val (s : State) (rm : BitVec 3) : Addr :=
  match rm.toNat with
  | 0 => s.gprAt .a16 3#4 + s.gprAt .a16 6#4
  | 1 => s.gprAt .a16 3#4 + s.gprAt .a16 7#4
  | 2 => s.gprAt .a16 5#4 + s.gprAt .a16 6#4
  | 3 => s.gprAt .a16 5#4 + s.gprAt .a16 7#4
  | 4 => s.gprAt .a16 6#4
  | 5 => s.gprAt .a16 7#4
  | 6 => s.gprAt .a16 5#4
  | _ => s.gprAt .a16 3#4

/-- The effective address of a memory operand with address size `a`, in an instruction of `len` bytes: the sum modulo
2 to the power of the address size (R58 to R61). -/
def State.effAddr (s : State) (a : AddrSize) (len : Nat) : MemOp → Addr
  | .base r d => lowBits a.bits (s.gprAt a r + dispVal d)
  | .sib sc i r d => lowBits a.bits (s.gprAt a r + s.indexVal a sc i + dispVal d)
  | .sibNoBase sc i d => lowBits a.bits (s.indexVal a sc i + d.signExtend 64)
  | .disp32 d =>
    if s.mode = .mode64 then lowBits a.bits (s.nextRip len + d.signExtend 64)
    else lowBits a.bits (d.signExtend 64)
  | .base16 rm d => lowBits 16 (s.base16Val rm + dispVal16 d)
  | .disp16 d => d.setWidth 64

/-! ### Segment (R62) -/

/-- SS for a base register (E/R)SP or (E/R)BP, DS otherwise (R62). -/
def baseSeg (r : RegNum) : SegReg := if r = 4#4 ∨ r = 5#4 then .ss else .ds

/-- The default segment of a memory operand (R60, R62). -/
def defaultSeg : MemOp → SegReg
  | .base r _ => baseSeg r
  | .sib _ _ r _ => baseSeg r
  | .sibNoBase _ _ _ => .ds
  | .disp32 _ => .ds
  | .base16 rm _ => if rm = 2#3 ∨ rm = 3#3 ∨ rm = 6#3 then .ss else .ds
  | .disp16 _ => .ds

/-- An override that adds a base in 64-bit mode (R62). -/
def addsBase (g : SegReg) : Bool := g = .fs || g = .gs

/-- What an override makes the segment of an operand whose default is `d`, in 64-bit mode: the override's own segment (R36),
but for SS. DEDUCED (log 30): R103 counts override 36H outside 64-bit mode only, so that SS leaves the default there. -/
def overrideSeg64 (d g : SegReg) : SegReg := if g = .ss then d else g

/-- The segments that the overrides offer in place of the default `d` (R36, R62). In 64-bit mode the address takes the base
of an FS or GS override whatever other override stands beside it, since the others have no effect on the address; without
one the others still replace the segment, through which only the check is made. -/
def effectiveOverrides (m : Mode) (ps : List Prefix) (d : SegReg) : List SegReg :=
  if m ≠ .mode64 then overridesOf ps
  else if (overridesOf ps).any addsBase then (overridesOf ps).filter addsBase
  else (overridesOf ps).map (overrideSeg64 d)

/-- The override among these, if any: the one when they agree (a repeated prefix is tolerated, R62), else one of them
and nothing says which (log 7). -/
def pickOverride : List SegReg → Option SegReg
  | [] => none
  | g :: gs =>
    if gs.all (fun h => h = g) then some g
    else (g :: gs)[Config.overridePick (g :: gs) % (g :: gs).length]?

/-- `S` of R36, the segment of a memory operand: an override's, or the default (R62). -/
def operandSeg (m : Mode) (ps : List Prefix) (o : MemOp) : SegReg :=
  (pickOverride (effectiveOverrides m ps (defaultSeg o))).getD (defaultSeg o)

/-! ### The operand -/

/-- The effective address of the memory operand of an instruction with these prefixes and this length. -/
def State.operandAddr (s : State) (ps : List Prefix) (len : Nat) (o : MemOp) : Addr :=
  s.effAddr (addrSizeOf s.mode ps) len o

/-- `LA` of R36 for the memory operand. -/
def State.operandLinear (s : State) (ps : List Prefix) (len : Nat) (o : MemOp) : Addr :=
  s.linear (operandSeg s.mode ps o) (s.operandAddr ps len o)

/-- Stage 3 of R86: the `n` bytes of the memory operand. -/
def State.readMemOp (s : State) (aligned : Bool) (ps : List Prefix) (len : Nat) (o : MemOp) (n : Nat) :
    Host.Outcome (List Byte) Fault Refusal :=
  s.readOperand aligned (operandSeg s.mode ps o) (s.operandAddr ps len o) n

end Sys2Proof.Machine
end

