-- ==== Sys2Proof/Machine/Sad.lean ====
section
/-! DEFINITION. The lane function `SAD8` and the immediate's select fields (spec/40_mpsadbw.md R80, R81;
spec/30_encoding.md R63). -/

namespace Sys2Proof.Machine

open Sys2Proof

/-- `byte(v, j)` of R8. -/
def byteOf {w : Nat} (v : BitVec w) (j : Nat) : Byte := v.extractLsb' (8 * j) 8

/-- `word(v, i)` of R8. -/
def wordOf {w : Nat} (v : BitVec w) (i : Nat) : BitVec 16 := v.extractLsb' (16 * i) 16

/-- `|x - y|` of two unsigned bytes: the absolute value of the exact difference (R81). -/
def absDiff (x y : Byte) : Nat := ((x.toNat : Int) - (y.toNat : Int)).natAbs

/-- `t_i` of R80, for the byte offsets `o1` of block_1 and `o2` of block_2. -/
def sadSum (a b : Lane) (o1 o2 i : Nat) : Nat :=
  absDiff (byteOf a (o1 + i + 0)) (byteOf b (o2 + 0)) + absDiff (byteOf a (o1 + i + 1)) (byteOf b (o2 + 1)) +
    absDiff (byteOf a (o1 + i + 2)) (byteOf b (o2 + 2)) + absDiff (byteOf a (o1 + i + 3)) (byteOf b (o2 + 3))

/-- Eight 16-bit words as one lane, word 0 in the low bits. -/
def packWords (t : Nat → Nat) : Lane :=
  BitVec.ofNat 16 (t 7) ++ BitVec.ofNat 16 (t 6) ++ BitVec.ofNat 16 (t 5) ++ BitVec.ofNat 16 (t 4) ++
    BitVec.ofNat 16 (t 3) ++ BitVec.ofNat 16 (t 2) ++ BitVec.ofNat 16 (t 1) ++ BitVec.ofNat 16 (t 0)

/-- `SAD8(a, b, s1, s2)` of R80. -/
def sad8 (a b : Lane) (s1 : BitVec 1) (s2 : BitVec 2) : Lane :=
  packWords (sadSum a b (4 * s1.toNat) (4 * s2.toNat))

/-! ### The select fields of R63 -/

/-- `imm8[2]`: block_1 of the low lane. -/
def s1Lo (imm : BitVec 8) : BitVec 1 := imm.extractLsb' 2 1

/-- `imm8[1:0]`: block_2 of the low lane. -/
def s2Lo (imm : BitVec 8) : BitVec 2 := imm.extractLsb' 0 2

/-- `imm8[5]`: block_3 of the upper lane. -/
def s1Hi (imm : BitVec 8) : BitVec 1 := imm.extractLsb' 5 1

/-- `imm8[4:3]`: block_4 of the upper lane. -/
def s2Hi (imm : BitVec 8) : BitVec 2 := imm.extractLsb' 3 2

/-- The 128-bit computation of R82 and R83. -/
def sad128 (a b : Lane) (imm : BitVec 8) : Lane := sad8 a b (s1Lo imm) (s2Lo imm)

/-- The 256-bit computation of R84: each lane by itself, `hi ++ lo`. -/
def sad256 (a b : BitVec 256) (imm : BitVec 8) : BitVec 256 :=
  sad8 (a.extractLsb' 128 128) (b.extractLsb' 128 128) (s1Hi imm) (s2Hi imm) ++
    sad8 (a.extractLsb' 0 128) (b.extractLsb' 0 128) (s1Lo imm) (s2Lo imm)

/-- The legacy form's write: bits 127:0 replaced, the bits above kept (R82). -/
def keepUpper (old : VReg) (r : Lane) : VReg := old.extractLsb' 128 384 ++ r

end Sys2Proof.Machine
end

