-- ==== Sys2Proof/Machine/Mpsadbw.lean ====
section
/-! DEFINITION. The meanings of the six rows of the opcode table, one definition each (spec/40_mpsadbw.md R82 to R86).

Each follows the stages of R86: the checks before the operand, the operand, the sources as they were before the
instruction (R85), the result, the write of the destination, and RIP. -/

namespace Sys2Proof.Machine

open Sys2Proof

/-- `MPSADBW xmm1, xmm2, imm8` (R82). -/
def execMpsadbwReg (e : LegacyEnc) (dst src2 : RegNum) (imm : BitVec 8) (s : State) :
    Host.Outcome State Fault Refusal :=
  match s.preCheck (Instr.mpsadbwReg e dst src2 imm).len (s.legacyUd e) with
  | some f => raise f
  | none =>
    .next (s.complete dst (keepUpper (s.readVr dst) (sad128 (s.xmm dst) (s.xmm src2) imm))
      (Instr.mpsadbwReg e dst src2 imm).len)

/-- `MPSADBW xmm1, m128, imm8` (R82); the operand must be 16-byte aligned (R34). -/
def execMpsadbwMem (e : LegacyEnc) (dst : RegNum) (o : MemOp) (imm : BitVec 8) (s : State) :
    Host.Outcome State Fault Refusal :=
  match s.preCheck (Instr.mpsadbwMem e dst o imm).len (s.legacyUd e) with
  | some f => raise f
  | none =>
    andThen (s.readMemOp true e.prefixes (Instr.mpsadbwMem e dst o imm).len o 16) fun m =>
      .next (s.complete dst (keepUpper (s.readVr dst) (sad128 (s.xmm dst) (BitVec.ofNat 128 (leNat m)) imm))
        (Instr.mpsadbwMem e dst o imm).len)

/-- `VMPSADBW xmm1, xmm2, xmm3, imm8` (R83). -/
def execVmpsadbw128Reg (e : VexEnc) (dst src1 src2 : RegNum) (imm : BitVec 8) (s : State) :
    Host.Outcome State Fault Refusal :=
  match s.preCheck (Instr.vmpsadbw128Reg e dst src1 src2 imm).len (s.vexUd s.hasAvx e) with
  | some f => raise f
  | none =>
    .next (s.complete dst ((sad128 (s.xmm src1) (s.xmm src2) imm).setWidth 512)
      (Instr.vmpsadbw128Reg e dst src1 src2 imm).len)

/-- `VMPSADBW xmm1, xmm2, m128, imm8` (R83); no alignment requirement (R34). -/
def execVmpsadbw128Mem (e : VexEnc) (dst src1 : RegNum) (o : MemOp) (imm : BitVec 8) (s : State) :
    Host.Outcome State Fault Refusal :=
  match s.preCheck (Instr.vmpsadbw128Mem e dst src1 o imm).len (s.vexUd s.hasAvx e) with
  | some f => raise f
  | none =>
    andThen (s.readMemOp false e.prefixes (Instr.vmpsadbw128Mem e dst src1 o imm).len o 16) fun m =>
      .next (s.complete dst ((sad128 (s.xmm src1) (BitVec.ofNat 128 (leNat m)) imm).setWidth 512)
        (Instr.vmpsadbw128Mem e dst src1 o imm).len)

/-- `VMPSADBW ymm1, ymm2, ymm3, imm8` (R84). -/
def execVmpsadbw256Reg (e : VexEnc) (dst src1 src2 : RegNum) (imm : BitVec 8) (s : State) :
    Host.Outcome State Fault Refusal :=
  match s.preCheck (Instr.vmpsadbw256Reg e dst src1 src2 imm).len (s.vexUd s.hasAvx2 e) with
  | some f => raise f
  | none =>
    .next (s.complete dst ((sad256 (s.ymm src1) (s.ymm src2) imm).setWidth 512)
      (Instr.vmpsadbw256Reg e dst src1 src2 imm).len)

/-- `VMPSADBW ymm1, ymm2, m256, imm8` (R84); no alignment requirement (R34). -/
def execVmpsadbw256Mem (e : VexEnc) (dst src1 : RegNum) (o : MemOp) (imm : BitVec 8) (s : State) :
    Host.Outcome State Fault Refusal :=
  match s.preCheck (Instr.vmpsadbw256Mem e dst src1 o imm).len (s.vexUd s.hasAvx2 e) with
  | some f => raise f
  | none =>
    andThen (s.readMemOp false e.prefixes (Instr.vmpsadbw256Mem e dst src1 o imm).len o 32) fun m =>
      .next (s.complete dst ((sad256 (s.ymm src1) (BitVec.ofNat 256 (leNat m)) imm).setWidth 512)
        (Instr.vmpsadbw256Mem e dst src1 o imm).len)

end Sys2Proof.Machine
end

