-- ==== Sys2Proof/Machine/Dispatch.lean ====
section
/-! DEFINITION. One arm per constructor of `Instr`, each one call of its meaning. -/

namespace Sys2Proof.Machine

open Sys2Proof

def exec (i : Instr) (s : State) : Host.Outcome State Fault Refusal :=
  match i with
  | .mpsadbwReg e dst src2 imm => Sys2Proof.Machine.execMpsadbwReg e dst src2 imm s
  | .mpsadbwMem e dst o imm => Sys2Proof.Machine.execMpsadbwMem e dst o imm s
  | .vmpsadbw128Reg e dst src1 src2 imm => Sys2Proof.Machine.execVmpsadbw128Reg e dst src1 src2 imm s
  | .vmpsadbw128Mem e dst src1 o imm => Sys2Proof.Machine.execVmpsadbw128Mem e dst src1 o imm s
  | .vmpsadbw256Reg e dst src1 src2 imm => Sys2Proof.Machine.execVmpsadbw256Reg e dst src1 src2 imm s
  | .vmpsadbw256Mem e dst src1 o imm => Sys2Proof.Machine.execVmpsadbw256Mem e dst src1 o imm s

end Sys2Proof.Machine
end

