-- ==== Sys2Proof/Machine/Step.lean ====
section
/-! DEFINITION. One step: fetch the bytes at RIP, decode, execute (spec/40_mpsadbw.md R86, spec/70_reset_and_hazards.md
R134); and the load that puts one word of the opcode table where the next step fetches. -/

namespace Sys2Proof.Machine

open Sys2Proof

/-- One step. At the program's end the run is over (R134); bytes that are no (V)MPSADBW or run past the program are
refused (R67, R134), and so is an instruction whose bytes wrap (R15); otherwise the instruction executes. -/
def step (s : State) : Host.Outcome State Fault Refusal :=
  if s.atEnd then .refused .endOfProgram
  else
    match decode s.mode s.fetchBytes with
    | .error e => .refused (.undecoded e)
    | .ok (i, _) => if s.fetchStraddles i.len then .refused .fetchStraddles else exec i s

/-- The launch of R134 with the word `w` of the opcode table as the program, under the premises of R131 that no
instruction of the scope can set up (log 5). -/
def State.withFetchWord (s : State) (nbits w : Nat) : State := s.enabled.loadProgram (tableBytes nbits w)

end Sys2Proof.Machine
end

