-- ==== Sys2Proof/Machine/Assembly.lean ====
section
/-! DEFINITION. The page's assembler syntax as data (spec/30_encoding.md R50, R57, R70, R71): mnemonics, operands in order, the
operand-encoding row and the CPUID flag of each form. -/

namespace Sys2Proof

/-- An operand of the page's syntax. -/
inductive AsmOperand where
  | xmm (n : RegNum)
  | ymm (n : RegNum)
  | m128 (o : MemOp)
  | m256 (o : MemOp)
  | imm8 (i : BitVec 8)
  deriving DecidableEq, Repr

/-- The rows of the operand-encoding table (R57). -/
inductive OpEn where
  | rmi | rvmi
  deriving DecidableEq, Repr

/-- The CPUID feature flags (R17). -/
inductive CpuidFlag where
  | sse41 | avx | avx2
  deriving DecidableEq, Repr

def Instr.mnemonic : Instr → String
  | .mpsadbwReg _ _ _ _ => "MPSADBW"
  | .mpsadbwMem _ _ _ _ => "MPSADBW"
  | .vmpsadbw128Reg _ _ _ _ _ => "VMPSADBW"
  | .vmpsadbw128Mem _ _ _ _ _ => "VMPSADBW"
  | .vmpsadbw256Reg _ _ _ _ _ => "VMPSADBW"
  | .vmpsadbw256Mem _ _ _ _ _ => "VMPSADBW"

/-- The operands in Intel order, destination first (R70). -/
def Instr.intelOperands : Instr → List AsmOperand
  | .mpsadbwReg _ d s i => [.xmm d, .xmm s, .imm8 i]
  | .mpsadbwMem _ d o i => [.xmm d, .m128 o, .imm8 i]
  | .vmpsadbw128Reg _ d v s i => [.xmm d, .xmm v, .xmm s, .imm8 i]
  | .vmpsadbw128Mem _ d v o i => [.xmm d, .xmm v, .m128 o, .imm8 i]
  | .vmpsadbw256Reg _ d v s i => [.ymm d, .ymm v, .ymm s, .imm8 i]
  | .vmpsadbw256Mem _ d v o i => [.ymm d, .ymm v, .m256 o, .imm8 i]

/-- The operands in AT&T order, which is the reverse (R70). -/
def Instr.attOperands (i : Instr) : List AsmOperand := i.intelOperands.reverse

/-- Row RMI for the legacy form, RVMI for the VEX forms (R50, R57). -/
def Instr.opEn (i : Instr) : OpEn := if i.isLegacy then .rmi else .rvmi

/-- SSE4_1, AVX or AVX2 (R17, R50). -/
def Instr.cpuidFlag : Instr → CpuidFlag
  | .mpsadbwReg _ _ _ _ => .sse41
  | .mpsadbwMem _ _ _ _ => .sse41
  | .vmpsadbw128Reg _ _ _ _ _ => .avx
  | .vmpsadbw128Mem _ _ _ _ _ => .avx
  | .vmpsadbw256Reg _ _ _ _ _ => .avx2
  | .vmpsadbw256Mem _ _ _ _ _ => .avx2

/-- The CPUID leaf, subleaf, output register (0 EAX, 1 EBX, 2 ECX, 3 EDX) and bit of a flag (R17). -/
def CpuidFlag.location : CpuidFlag → Nat × Nat × Nat × Nat
  | .sse41 => (1, 0, 2, 19)
  | .avx => (1, 0, 2, 28)
  | .avx2 => (7, 0, 1, 5)

end Sys2Proof
end

