-- ==== Sys2Proof/Machine/Operation.lean ====
section
/-! DEFINITION. The page's own Operation sections, word by word and in their own order (spec/00_scope.md R9,
spec/40_mpsadbw.md R80, R85), and the C intrinsics (R88). No step runs them: the meanings are written over `sad8`, and a
statement says that the two agree. -/

namespace Sys2Proof.Machine

open Sys2Proof

/-- `v[lo+7:lo]`, a byte slice at a bit offset (R8). -/
def bitByte (v : VReg) (lo : Nat) : Byte := v.extractLsb' lo 8

/-- `DEST[lo+15:lo] ← x`, every other bit kept. -/
def setWord (v : VReg) (lo : Nat) (x : BitVec 16) : VReg :=
  (v &&& ~~~ ((0xFFFF#512) <<< lo)) ||| (x.setWidth 512 <<< lo)

/-- One result line: `DEST[16i+15+base : 16i+base] ← TEMP0 + TEMP1 + TEMP2 + TEMP3`, from the captured bytes. -/
def opLine (b1 b2 : Nat → Byte) (base : Nat) (dest : VReg) (i : Nat) : VReg :=
  setWord dest (16 * i + base)
    (BitVec.ofNat 16 (absDiff (b1 i) (b2 0) + absDiff (b1 (i + 1)) (b2 1) + absDiff (b1 (i + 2)) (b2 2) +
      absDiff (b1 (i + 3)) (b2 3)))

/-- The eight result lines in order. -/
def opLines (b1 b2 : Nat → Byte) (base : Nat) (dest : VReg) : VReg :=
  (List.range 8).foldl (opLine b1 b2 base) dest

/-- The text for the low lane: `BLK2_OFFSET ← imm8[1:0]*32`, `BLK1_OFFSET ← imm8[2]*32`, the bytes captured, the lines. -/
def opLow (imm : BitVec 8) (src1 src2 dest : VReg) : VReg :=
  opLines (fun k => bitByte src1 ((s1Lo imm).toNat * 32 + 8 * k)) (fun k => bitByte src2 ((s2Lo imm).toNat * 32 + 8 * k))
    0 dest

/-- The text for the upper lane: `BLK2_OFFSET ← imm8[4:3]*32 + 128`, `BLK1_OFFSET ← imm8[5]*32 + 128` (R84). -/
def opHigh (imm : BitVec 8) (src1 src2 dest : VReg) : VReg :=
  opLines (fun k => bitByte src1 ((s1Hi imm).toNat * 32 + 128 + 8 * k))
    (fun k => bitByte src2 ((s2Hi imm).toNat * 32 + 128 + 8 * k)) 128 dest

/-- The legacy Operation: DEST is the first source too, and its bits above 127 stay (R9, R82). -/
def State.opLegacy (s : State) (dst src2 : RegNum) (imm : BitVec 8) : State :=
  s.writeVr dst (opLow imm (s.readVr dst) (s.readVr src2) (s.readVr dst))

/-- The VEX.128 Operation, ending `DEST[MAXVL-1:128] ← 0` (R83). -/
def State.opVex128 (s : State) (dst src1 src2 : RegNum) (imm : BitVec 8) : State :=
  s.writeVr dst ((opLow imm (s.readVr src1) (s.readVr src2) (s.readVr dst)).setWidth 128 |>.setWidth 512)

/-- The first half of the VEX.256 Operation, assigned to DEST before the upper lane's bytes are read (R85). -/
def State.opVex256Low (s : State) (dst src1 src2 : RegNum) (imm : BitVec 8) : State :=
  s.writeVr dst (opLow imm (s.readVr src1) (s.readVr src2) (s.readVr dst))

/-- The VEX.256 Operation in its own order: the upper lane reads the registers as the first half left them; then the
bits above 255 are zeroed (R84, R85). -/
def State.opVex256 (s : State) (dst src1 src2 : RegNum) (imm : BitVec 8) : State :=
  (s.opVex256Low dst src1 src2 imm).writeVr dst
    ((opHigh imm ((s.opVex256Low dst src1 src2 imm).readVr src1) ((s.opVex256Low dst src1 src2 imm).readVr src2)
      ((s.opVex256Low dst src1 src2 imm).readVr dst)).setWidth 256 |>.setWidth 512)

/-! ### The intrinsics (R88) -/

/-- `_mm_mpsadbw_epu8(s1, s2, mask)`. -/
def mmMpsadbwEpu8 (s1 s2 : Lane) (mask : BitVec 32) : Lane :=
  sad8 s1 s2 (mask.extractLsb' 2 1) (mask.extractLsb' 0 2)

/-- `_mm256_mpsadbw_epu8(s1, s2, mask)`: the value of R84 with `imm8 = mask[7:0]`. -/
def mm256MpsadbwEpu8 (s1 s2 : BitVec 256) (mask : BitVec 32) : BitVec 256 := sad256 s1 s2 (mask.extractLsb' 0 8)

end Sys2Proof.Machine
end

