-- ==== Sys2Proof/Safety.lean ====
section
/-! DEFINITION. The terms in which claims are made: the invariant of the machine, the launch premises, the causes of an
invalid opcode, the operand a memory form reads, and what a good run is. Each is written from the spec's own words, not
from the definitions of the meanings. -/

namespace Sys2Proof.Machine

open Sys2Proof

/-! ### The invariant -/

/-- What every step keeps: memory in canonical form; no bit of a vector register at `MAXVL` or above (R10); the
instruction pointer within its mode's width (R15); and the parameters as R6 and R18 admit them (a feature flag implies
the older ones and a VEX form needs `MAXVL ≥ 256`, both true of every `Part`; `XCR0[2:1]` is never 10b). -/
structure State.Inv (s : State) : Prop where
  memory : s.mem.wf
  vectors : ∀ (n : RegNum) (b : Nat), maxVlBits s.maxVl ≤ b → (s.readVr n).getLsbD b = false
  ip : s.rip.toNat < 2 ^ s.mode.ipBits
  flags : (s.hasAvx2 = true → s.hasAvx = true) ∧ (s.hasAvx = true → s.hasSse41 = true)
  width : s.hasAvx = true → 256 ≤ maxVlBits s.maxVl
  xcr0 : s.xcr0.getLsbD 2 = true → s.xcr0.getLsbD 1 = true

/-! ### Launch premises (R18, R131) -/

/-- The legacy form executes: not over 15 bytes, SSE4_1, EM = 0, OSFXSR = 1, TS = 0, no LOCK prefix. -/
def State.LegacyReady (s : State) (e : LegacyEnc) (len : Nat) : Prop :=
  len ≤ 15 ∧ s.hasSse41 = true ∧ s.cr0.getLsbD 2 = false ∧ s.cr4.getLsbD 9 = true ∧ s.cr0.getLsbD 3 = false ∧
    Prefix.lock ∉ e.prefixes

/-- A VEX form with feature flag `flag` executes: not over 15 bytes, the flag, OSXSAVE = 1, `XCR0[2:1] = 11b`, TS = 0, a
mode that takes VEX, and only segment overrides and 67H before the VEX prefix. -/
def State.VexReady (s : State) (flag : Bool) (e : VexEnc) (len : Nat) : Prop :=
  len ≤ 15 ∧ flag = true ∧ s.cr4.getLsbD 18 = true ∧ s.xcr0.getLsbD 2 = true ∧ s.xcr0.getLsbD 1 = true ∧
    s.cr0.getLsbD 3 = false ∧ s.mode ≠ .real ∧ s.mode ≠ .v8086 ∧
    ∀ p ∈ e.prefixes, p = .addrSize ∨ ∃ g, p = .seg g

/-! ### The causes of `#UD`, row by row of R101 -/

/-- The rows that concern the legacy form. -/
def State.LegacyUdCause (s : State) (e : LegacyEnc) : Prop :=
  s.cr0.getLsbD 2 = true ∨ s.cr4.getLsbD 9 = false ∨ Prefix.lock ∈ e.prefixes ∨ s.hasSse41 = false

/-- The rows that concern a VEX form with feature flag `flag`. -/
def State.VexUdCause (s : State) (flag : Bool) (e : VexEnc) : Prop :=
  s.mode = .real ∨ s.mode = .v8086 ∨ s.cr4.getLsbD 18 = false ∨
    ¬ (s.xcr0.getLsbD 2 = true ∧ s.xcr0.getLsbD 1 = true) ∨ Prefix.lock ∈ e.prefixes ∨
    (∃ p ∈ e.prefixes, p = .opSize ∨ p = .repne ∨ p = .rep ∨ ∃ r, p = .rex r) ∨ flag = false

/-- A cause of R101 applies to the instruction. -/
def State.UdCause (s : State) : Instr → Prop
  | .mpsadbwReg e _ _ _ => s.LegacyUdCause e
  | .mpsadbwMem e _ _ _ => s.LegacyUdCause e
  | .vmpsadbw128Reg e _ _ _ _ => s.VexUdCause s.hasAvx e
  | .vmpsadbw128Mem e _ _ _ _ => s.VexUdCause s.hasAvx e
  | .vmpsadbw256Reg e _ _ _ _ => s.VexUdCause s.hasAvx2 e
  | .vmpsadbw256Mem e _ _ _ _ => s.VexUdCause s.hasAvx2 e

/-- None of the causes that R108 puts before the operand applies. -/
def State.Decodable (s : State) (i : Instr) : Prop := i.len ≤ 15 ∧ ¬ s.UdCause i ∧ s.cr0.getLsbD 3 = false

/-- The part has the CPUID feature flag (R17). -/
def State.hasFlag (s : State) : CpuidFlag → Bool
  | .sse41 => s.hasSse41
  | .avx => s.hasAvx
  | .avx2 => s.hasAvx2

/-! ### The memory operand -/

/-- The displacement as an integer: none is 0, disp8 and disp32 are signed and not scaled (R58). -/
def dispInt : Disp → Int
  | .none => 0
  | .d8 d => d.toInt
  | .d32 d => d.toInt

/-- The displacement of a 16-bit form as an integer: disp8 is signed, disp16 counts modulo 2^16 (R60). -/
def disp16Int : Disp16 → Int
  | .none => 0
  | .d8 d => d.toInt
  | .d16 d => d.toNat

/-- The address size of the code before any prefix: 64 in 64-bit mode, elsewhere 32 or 16 (R62). -/
def codeSize : Mode → AddrSize
  | .mode64 => .a64
  | .compat32 => .a32
  | .prot32 => .a32
  | .prot16 => .a16
  | .real => .a16
  | .v8086 => .a16

/-- What prefix 67H makes of the address size: 64 to 32, 32 to 16, 16 to 32 (R62). -/
def switchedSize : AddrSize → AddrSize
  | .a64 => .a32
  | .a32 => .a16
  | .a16 => .a32

/-- The segment of the instruction's memory operand (R62). -/
def Instr.segOf (i : Instr) (s : State) (o : MemOp) : SegReg := operandSeg s.mode i.prefixes o

/-- `EA` of the instruction's memory operand (R58 to R61). -/
def Instr.eaOf (i : Instr) (s : State) (o : MemOp) : Addr := s.operandAddr i.prefixes i.len o

/-- `LA` of the instruction's memory operand (R36). -/
def Instr.laOf (i : Instr) (s : State) (o : MemOp) : Addr := s.operandLinear i.prefixes i.len o

/-- The first `n` bytes at linear address `la` can be read, and byte `j` of them is `m j` (R33, R35, R37). -/
def State.BytesAt (s : State) (la : Addr) (n : Nat) (m : Nat → Byte) : Prop :=
  ∀ j < n, ∃ p, s.translate (s.byteAddr la j) = .ok p ∧ s.isDevice p = false ∧ s.mem.read p = m j

/-- Canonical form, bit by bit: bits 63 down to `VA_BITS - 1` all equal (R36). -/
def Canonical (va : VaBits) (a : Addr) : Prop := ∀ b, vaBitsNat va - 1 ≤ b → b < 64 → a.getLsbD b = a.getLsbD 63

/-- The offset lies outside the segment: above its limit, or in one of the ranges outside it (R36; log 15). -/
def Segment.Outside (g : Segment) (off : Nat) : Prop :=
  g.limit.toNat < off ∨ ∃ r ∈ g.outside, r.first ≤ off ∧ off ≤ r.last

/-- The segment is null or may not be read, or an offset `EA` to `EA + n - 1` lies outside it (R36, R103, R104 b; that a
null SS counts is DEDUCED, log 15). -/
def Segment.Fails (g : Segment) (ea : Addr) (n : Nat) : Prop :=
  g.readable = false ∨ g.null = true ∨ ∃ j < n, g.Outside (ea.toNat + j)

/-- Some byte of the `n` at `EA` fails its segment's check (R36, R103, R104): not canonical in 64-bit mode, above FFFFH in
real-address and virtual-8086 mode, and elsewhere outside the segment or in one that is null or may not be read. -/
def State.SegFails (s : State) (g : SegReg) (ea : Addr) (n : Nat) : Prop :=
  match s.mode with
  | .mode64 => ∃ j < n, ¬ Canonical s.vaBits (s.byteAddr (s.linear g ea) j)
  | .real => ∃ j < n, 0xFFFF < ea.toNat + j
  | .v8086 => ∃ j < n, 0xFFFF < ea.toNat + j
  | .compat32 => (s.seg g).Fails ea n
  | .prot32 => (s.seg g).Fails ea n
  | .prot16 => (s.seg g).Fails ea n

/-- The memory operand passes every check of R36 and R37 and holds the bytes `m`. -/
def State.OperandReads (s : State) (i : Instr) (o : MemOp) (m : Nat → Byte) : Prop :=
  ¬ s.SegFails (Instr.segOf i s o) (Instr.eaOf i s o) i.operandBytes ∧
    s.BytesAt (Instr.laOf i s o) i.operandBytes m

/-- Byte `j` of the memory operand is one the arithmetic reads: block_2 of the low lane, or block_4 of the upper lane of
the 256-bit form (R33, R63). -/
def inBlock (i : Instr) (j : Nat) : Prop :=
  (4 * (i.imm8.toNat % 4) ≤ j ∧ j < 4 * (i.imm8.toNat % 4) + 4) ∨
    (i.operandBytes = 32 ∧ 16 + 4 * (i.imm8.toNat / 8 % 4) ≤ j ∧ j < 16 + 4 * (i.imm8.toNat / 8 % 4) + 4)

/-! ### Results -/

/-- The bytes of a vector register. -/
def State.vrByte (s : State) (n : RegNum) (j : Nat) : Byte := byteOf (s.readVr n) j

/-- `t_i` of R80 over two byte sequences. -/
def sadOf (a b : Nat → Byte) (o1 o2 i : Nat) : Nat :=
  ((List.range 4).map fun k => (((a (o1 + i + k)).toNat : Int) - ((b (o2 + k)).toNat : Int)).natAbs).sum

/-- Word `w + i` of `v`, for i = 0 to 7, is `t_i` of `a` and `b` at the byte offsets `o1` and `o2`. -/
def LaneHolds (v : VReg) (w : Nat) (a b : Nat → Byte) (o1 o2 : Nat) : Prop :=
  ∀ i < 8, (wordOf v (w + i)).toNat = sadOf a b o1 o2 i

/-- All that a completed (V)MPSADBW leaves as it was (R20): every vector register but the destination, every general and
segment register, the flags, MXCSR, the control registers, the mode and the parameters (`part` holds MAXVL and the
feature flags), and every byte of memory. -/
def State.SameBut (s t : State) (dst : RegNum) : Prop :=
  (∀ n, n ≠ dst → t.readVr n = s.readVr n) ∧
    t.gpr = s.gpr ∧ t.es = s.es ∧ t.cs = s.cs ∧ t.ss = s.ss ∧ t.ds = s.ds ∧ t.fs = s.fs ∧ t.gs = s.gs ∧
    t.eflags = s.eflags ∧ t.mxcsr = s.mxcsr ∧
    t.cr0 = s.cr0 ∧ t.cr2 = s.cr2 ∧ t.cr4 = s.cr4 ∧ t.xcr0 = s.xcr0 ∧ t.cpl = s.cpl ∧
    t.mode = s.mode ∧ t.part = s.part ∧ t.vaBits = s.vaBits ∧
    t.translation = s.translation ∧ t.devices = s.devices ∧ t.progBase = s.progBase ∧ t.progLen = s.progLen ∧
    ∀ a, t.mem.read a = s.mem.read a

/-! ### Outcomes and runs -/

/-- The next state, if there is one. -/
def stateOf (o : Host.Outcome State Fault Refusal) : Option State :=
  match o with
  | .next s => some s
  | .fault _ => none
  | .refused _ => none

/-- The exception, if the step stopped with one. -/
def faultOf (o : Host.Outcome State Fault Refusal) : Option Fault :=
  match o with
  | .next _ => none
  | .fault f => some f
  | .refused _ => none

/-- The refusal, if the step was refused. -/
def refusalOf (o : Host.Outcome State Fault Refusal) : Option Refusal :=
  match o with
  | .next _ => none
  | .fault _ => none
  | .refused r => some r

/-- A change of the state carried through an outcome. -/
def mapNext (f : State → State) (o : Host.Outcome State Fault Refusal) : Host.Outcome State Fault Refusal :=
  match o with
  | .next s => .next (f s)
  | .fault x => .fault x
  | .refused r => .refused r

/-- A successful run of `k` instructions (R134): they all complete, and RIP stands at the program's end. -/
def State.Succeeds (s : State) (k : Nat) : Prop :=
  ∃ t, Host.Core.run Sys2Proof.core k s = .next t ∧ t.atEnd = true

end Sys2Proof.Machine
end

