-- ==== Sys2Proof/Certificates/Slice0/Obligations.lean ====
section
/-! DEFINITION. The statements for the provers. Each docstring names the rule of the spec that it formalises. -/

open Sys2Proof Sys2Proof.Machine

/-! ### Encoding -/

/-- Words written out from the layouts of R53 to R61 decode to the instructions they stand for (95_test_vectors.md E1,
E6, E8, E10, E13, E16, E18, E20, E21, E25). -/
def Obligations.SpelledWordsDecode : Prop :=
  decode .mode64 [0x66#8, 0x0F#8, 0x3A#8, 0x42#8, 0xC1#8, 0x00#8] =
      .ok (.mpsadbwReg ⟨[.opSize], none⟩ 0#4 1#4 0x00#8, []) ∧
    decode .mode64 [0x66#8, 0x45#8, 0x0F#8, 0x3A#8, 0x42#8, 0xC1#8, 0x01#8] =
      .ok (.mpsadbwReg ⟨[.opSize], some ⟨false, true, false, true⟩⟩ 8#4 9#4 0x01#8, []) ∧
    decode .mode64 [0x66#8, 0x0F#8, 0x3A#8, 0x42#8, 0x4C#8, 0x8B#8, 0x10#8, 0x07#8] =
      .ok (.mpsadbwMem ⟨[.opSize], none⟩ 1#4 (.sib 2#2 1#4 3#4 (.d8 0x10#8)) 0x07#8, []) ∧
    decode .mode64 [0x66#8, 0x0F#8, 0x3A#8, 0x42#8, 0x15#8, 0x06#8, 0x01#8, 0x00#8, 0x00#8, 0x03#8] =
      .ok (.mpsadbwMem ⟨[.opSize], none⟩ 2#4 (.disp32 0x106#32) 0x03#8, []) ∧
    decode .mode64 [0x66#8, 0x0F#8, 0x3A#8, 0x42#8, 0xAD#8, 0x78#8, 0x56#8, 0x34#8, 0x12#8, 0x02#8] =
      .ok (.mpsadbwMem ⟨[.opSize], none⟩ 5#4 (.base 5#4 (.d32 0x12345678#32)) 0x02#8, []) ∧
    decode .mode64 [0xC4#8, 0xE3#8, 0x71#8, 0x42#8, 0xC2#8, 0x00#8] =
      .ok (.vmpsadbw128Reg ⟨[], false, false, false, false⟩ 0#4 1#4 2#4 0x00#8, []) ∧
    decode .mode64 [0xC4#8, 0x43#8, 0x01#8, 0x42#8, 0xC1#8, 0x02#8] =
      .ok (.vmpsadbw128Reg ⟨[], true, false, true, false⟩ 8#4 15#4 9#4 0x02#8, []) ∧
    decode .mode64 [0xC4#8, 0x83#8, 0x51#8, 0x42#8, 0x64#8, 0xF4#8, 0xF8#8, 0x06#8] =
      .ok (.vmpsadbw128Mem ⟨[], false, true, true, false⟩ 4#4 5#4 (.sib 3#2 14#4 12#4 (.d8 0xF8#8)) 0x06#8, []) ∧
    decode .mode64 [0xC4#8, 0xE3#8, 0x75#8, 0x42#8, 0xC2#8, 0x3F#8] =
      .ok (.vmpsadbw256Reg ⟨[], false, false, false, false⟩ 0#4 1#4 2#4 0x3F#8, []) ∧
    decode .mode64 [0xC4#8, 0xE3#8, 0x6D#8, 0x42#8, 0x4C#8, 0x8B#8, 0x10#8, 0x15#8] =
      .ok (.vmpsadbw256Mem ⟨[], false, false, false, false⟩ 1#4 2#4 (.sib 2#2 1#4 3#4 (.d8 0x10#8)) 0x15#8, [])

/-- Decoding the bytes of a well-formed instruction of any mode gives it back, every operand and every ignored bit, with
the bytes that follow. -/
def Obligations.DecodeOfEncode : Prop :=
  ∀ (m : Mode) (i : Instr) (rest : List Byte), i.WellFormed m → decode m (encode i ++ rest) = .ok (i, rest)

/-- Whatever decodes is well-formed, and its encoding is the bytes it was read from: each byte string has one reading. -/
def Obligations.EncodeOfDecode : Prop :=
  ∀ (m : Mode) (bs : List Byte) (i : Instr) (rest : List Byte),
    decode m bs = .ok (i, rest) → i.WellFormed m ∧ encode i ++ rest = bs

/-- R72: stripped of its optional prefixes and REX, every instruction matches its own row of the opcode table first. -/
def Obligations.OpcodeTableRowMatches : Prop :=
  ∀ (i : Instr) (rest : List Byte), tableRowOf (encode i.strip ++ rest) = some i.tableRow

/-- R64: a decoded instruction took exactly `len` bytes, and at least six. -/
def Obligations.DecodedLength : Prop :=
  ∀ (m : Mode) (bs : List Byte) (i : Instr) (rest : List Byte),
    decode m bs = .ok (i, rest) → bs.length = i.len + rest.length ∧ 6 ≤ i.len

/-- R54: the second and third byte of a VEX encoding without prefixes: `E3H` when R, X and B are 0, and
`(W << 7) | ((~src1 & 15) << 3) | (L << 2) | 1`. -/
def Obligations.VexPrefixBytes : Prop :=
  ∀ (w : Bool) (dst src1 src2 : RegNum) (imm : BitVec 8),
    (encode (.vmpsadbw128Reg ⟨[], false, false, false, w⟩ dst src1 src2 imm)).take 3 =
        [0xC4#8, 0xE3#8, BitVec.ofNat 8 (w.toNat * 128 + (15 - src1.toNat) * 8 + 1)] ∧
      (encode (.vmpsadbw256Reg ⟨[], false, false, false, w⟩ dst src1 src2 imm)).take 3 =
        [0xC4#8, 0xE3#8, BitVec.ofNat 8 (w.toNat * 128 + (15 - src1.toNat) * 8 + 4 + 1)]

/-- R67: the machine refuses the encodings next to this instruction: `0F 3A 42` with no 66H, or with F2H or F3H; VEX with
another pp or another map; a 62H or a C5H in the opcode's place. That a C5H never begins this instruction is R54; that C5H,
and 62H before any opcode, are refused rather than read as `#UD` is the spec's own choice (D18, log 19). -/
def Obligations.NeighbourEncodingsRefused : Prop :=
  ∀ (s : State) (ps r : List Byte), s.atEnd = false → (∀ b ∈ ps, Prefix.ofByte s.mode b ≠ none) →
    (s.fetchBytes = ps ++ [0x0F#8, 0x3A#8, 0x42#8] ++ r → 0x66#8 ∉ ps ∨ 0xF2#8 ∈ ps ∨ 0xF3#8 ∈ ps →
      ∃ e, step s = .refused (.undecoded e)) ∧
    (∀ b1 b2 : Byte, s.fetchBytes = ps ++ [0xC4#8, b1, b2] ++ r →
      b1.extractLsb' 0 5 ≠ 3#5 ∨ b2.extractLsb' 0 2 ≠ 1#2 → ∃ e, step s = .refused (.undecoded e)) ∧
    (s.fetchBytes = ps ++ [0x62#8] ++ r → ∃ e, step s = .refused (.undecoded e)) ∧
    (s.fetchBytes = ps ++ [0xC5#8] ++ r → ∃ e, step s = .refused (.undecoded e))

/-- R68: VEX.W and REX.W are ignored: with either value the same instruction executes with the same operands. -/
def Obligations.WBitsIgnored : Prop :=
  (∀ (ps : List Prefix) (x : Rex) (w : Bool) (dst src2 : RegNum) (o : MemOp) (imm : BitVec 8) (s : State),
    exec (.mpsadbwReg ⟨ps, some { x with w := w }⟩ dst src2 imm) s = exec (.mpsadbwReg ⟨ps, some x⟩ dst src2 imm) s ∧
      exec (.mpsadbwMem ⟨ps, some { x with w := w }⟩ dst o imm) s = exec (.mpsadbwMem ⟨ps, some x⟩ dst o imm) s) ∧
  (∀ (e : VexEnc) (w : Bool) (dst src1 src2 : RegNum) (o : MemOp) (imm : BitVec 8) (s : State),
    exec (.vmpsadbw128Reg { e with w := w } dst src1 src2 imm) s = exec (.vmpsadbw128Reg e dst src1 src2 imm) s ∧
      exec (.vmpsadbw128Mem { e with w := w } dst src1 o imm) s = exec (.vmpsadbw128Mem e dst src1 o imm) s ∧
      exec (.vmpsadbw256Reg { e with w := w } dst src1 src2 imm) s = exec (.vmpsadbw256Reg e dst src1 src2 imm) s ∧
      exec (.vmpsadbw256Mem { e with w := w } dst src1 o imm) s = exec (.vmpsadbw256Mem e dst src1 o imm) s)

/-! ### The lane function -/

/-- R80: word `i` of `SAD8(a, b, s1, s2)` is `t_i`, and the result depends on no byte of `a` but block_1 and on no byte of
`b` but block_2. -/
def Obligations.LaneFunctionWords : Prop :=
  ∀ (a b : Lane) (s1 : BitVec 1) (s2 : BitVec 2),
    (∀ i < 8, (wordOf (sad8 a b s1 s2) i).toNat = sadOf (byteOf a) (byteOf b) (4 * s1.toNat) (4 * s2.toNat) i) ∧
    (∀ a' b' : Lane, (∀ k < 11, byteOf a' (4 * s1.toNat + k) = byteOf a (4 * s1.toNat + k)) →
      (∀ k < 4, byteOf b' (4 * s2.toNat + k) = byteOf b (4 * s2.toNat + k)) → sad8 a' b' s1 s2 = sad8 a b s1 s2)

/-- R81: each difference is the exact absolute difference of two unsigned bytes, 0 to 255 and symmetric; each word is
the exact sum of four of them, at most 1020, and bits 15:10 of every word are 0. -/
def Obligations.LaneArithmeticExact : Prop :=
  (∀ x y : Byte, absDiff x y ≤ 255 ∧ absDiff x y = absDiff y x ∧
    (x.toNat ≤ y.toNat → absDiff x y + x.toNat = y.toNat)) ∧
  (∀ (a b : Lane) (s1 : BitVec 1) (s2 : BitVec 2), ∀ i < 8,
    (wordOf (sad8 a b s1 s2) i).toNat =
        absDiff (byteOf a (4 * s1.toNat + i)) (byteOf b (4 * s2.toNat)) +
        absDiff (byteOf a (4 * s1.toNat + i + 1)) (byteOf b (4 * s2.toNat + 1)) +
        absDiff (byteOf a (4 * s1.toNat + i + 2)) (byteOf b (4 * s2.toNat + 2)) +
        absDiff (byteOf a (4 * s1.toNat + i + 3)) (byteOf b (4 * s2.toNat + 3)) ∧
      (wordOf (sad8 a b s1 s2) i).toNat ≤ 1020 ∧
      ∀ k, 10 ≤ k → k < 16 → (wordOf (sad8 a b s1 s2) i).getLsbD k = false)

/-! ### Results of the six rows, and that each completes -/

/-- R82, register row: with the premises of R18 met the instruction completes; its words are the sums of R80 over the old
destination and the second source; bits MAXVL-1:128 keep their value; RIP advances; nothing else changes. -/
def Obligations.LegacyRegisterResult : Prop :=
  ∀ (e : LegacyEnc) (dst src2 : RegNum) (imm : BitVec 8) (s : State),
    s.LegacyReady e (Instr.mpsadbwReg e dst src2 imm).len →
    ∃ t, exec (.mpsadbwReg e dst src2 imm) s = .next t ∧
      LaneHolds (t.readVr dst) 0 (s.vrByte dst) (s.vrByte src2) (4 * (imm.toNat / 4 % 2)) (4 * (imm.toNat % 4)) ∧
      (∀ b, 128 ≤ b → b < maxVlBits s.maxVl → (t.readVr dst).getLsbD b = (s.readVr dst).getLsbD b) ∧
      t.rip.toNat = (s.rip.toNat + (Instr.mpsadbwReg e dst src2 imm).len) % 2 ^ s.mode.ipBits ∧ s.SameBut t dst

/-- R82, memory row: as the register row, the second source the 16 bytes at an aligned `LA`, byte `j` at `LA + j`. -/
def Obligations.LegacyMemoryResult : Prop :=
  ∀ (e : LegacyEnc) (dst : RegNum) (o : MemOp) (imm : BitVec 8) (s : State) (m : Nat → Byte),
    s.LegacyReady e (Instr.mpsadbwMem e dst o imm).len → s.OperandReads (.mpsadbwMem e dst o imm) o m →
    (Instr.laOf (.mpsadbwMem e dst o imm) s o).toNat % 16 = 0 →
    ∃ t, exec (.mpsadbwMem e dst o imm) s = .next t ∧
      LaneHolds (t.readVr dst) 0 (s.vrByte dst) m (4 * (imm.toNat / 4 % 2)) (4 * (imm.toNat % 4)) ∧
      (∀ b, 128 ≤ b → b < maxVlBits s.maxVl → (t.readVr dst).getLsbD b = (s.readVr dst).getLsbD b) ∧
      t.rip.toNat = (s.rip.toNat + (Instr.mpsadbwMem e dst o imm).len) % 2 ^ s.mode.ipBits ∧ s.SameBut t dst

/-- R83, register row: the sums of R80 over the two source registers, and every bit above 127 zero. -/
def Obligations.Vex128RegisterResult : Prop :=
  ∀ (e : VexEnc) (dst src1 src2 : RegNum) (imm : BitVec 8) (s : State),
    s.VexReady s.hasAvx e (Instr.vmpsadbw128Reg e dst src1 src2 imm).len →
    ∃ t, exec (.vmpsadbw128Reg e dst src1 src2 imm) s = .next t ∧
      LaneHolds (t.readVr dst) 0 (s.vrByte src1) (s.vrByte src2) (4 * (imm.toNat / 4 % 2)) (4 * (imm.toNat % 4)) ∧
      (∀ b, 128 ≤ b → (t.readVr dst).getLsbD b = false) ∧
      t.rip.toNat = (s.rip.toNat + (Instr.vmpsadbw128Reg e dst src1 src2 imm).len) % 2 ^ s.mode.ipBits ∧
      s.SameBut t dst

/-- R83, memory row: the second source is the 16 bytes at `LA`, at any alignment (R34). -/
def Obligations.Vex128MemoryResult : Prop :=
  ∀ (e : VexEnc) (dst src1 : RegNum) (o : MemOp) (imm : BitVec 8) (s : State) (m : Nat → Byte),
    s.VexReady s.hasAvx e (Instr.vmpsadbw128Mem e dst src1 o imm).len →
    s.OperandReads (.vmpsadbw128Mem e dst src1 o imm) o m →
    ∃ t, exec (.vmpsadbw128Mem e dst src1 o imm) s = .next t ∧
      LaneHolds (t.readVr dst) 0 (s.vrByte src1) m (4 * (imm.toNat / 4 % 2)) (4 * (imm.toNat % 4)) ∧
      (∀ b, 128 ≤ b → (t.readVr dst).getLsbD b = false) ∧
      t.rip.toNat = (s.rip.toNat + (Instr.vmpsadbw128Mem e dst src1 o imm).len) % 2 ^ s.mode.ipBits ∧ s.SameBut t dst

/-- R84, register row: each lane by itself, the low one with `imm8[2]`, `imm8[1:0]` and the upper one with `imm8[5]`,
`imm8[4:3]`; every bit above 255 zero. That VEX.L = 1 executes (D1) and that the bits above 255 are zeroed (D3), where the
page is silent, are the spec's own choices (log 20). -/
def Obligations.Vex256RegisterResult : Prop :=
  ∀ (e : VexEnc) (dst src1 src2 : RegNum) (imm : BitVec 8) (s : State),
    s.VexReady s.hasAvx2 e (Instr.vmpsadbw256Reg e dst src1 src2 imm).len →
    ∃ t, exec (.vmpsadbw256Reg e dst src1 src2 imm) s = .next t ∧
      LaneHolds (t.readVr dst) 0 (s.vrByte src1) (s.vrByte src2) (4 * (imm.toNat / 4 % 2)) (4 * (imm.toNat % 4)) ∧
      LaneHolds (t.readVr dst) 8 (s.vrByte src1) (s.vrByte src2) (16 + 4 * (imm.toNat / 32 % 2))
        (16 + 4 * (imm.toNat / 8 % 4)) ∧
      (∀ b, 256 ≤ b → (t.readVr dst).getLsbD b = false) ∧
      t.rip.toNat = (s.rip.toNat + (Instr.vmpsadbw256Reg e dst src1 src2 imm).len) % 2 ^ s.mode.ipBits ∧
      s.SameBut t dst

/-- R84, memory row: the second source is the 32 bytes at `LA`, at any alignment (R34); every bit above 255 zero. That
VEX.L = 1 executes (D1) and that the bits above 255 are zeroed (D3) are the spec's own choices (log 20). -/
def Obligations.Vex256MemoryResult : Prop :=
  ∀ (e : VexEnc) (dst src1 : RegNum) (o : MemOp) (imm : BitVec 8) (s : State) (m : Nat → Byte),
    s.VexReady s.hasAvx2 e (Instr.vmpsadbw256Mem e dst src1 o imm).len →
    s.OperandReads (.vmpsadbw256Mem e dst src1 o imm) o m →
    ∃ t, exec (.vmpsadbw256Mem e dst src1 o imm) s = .next t ∧
      LaneHolds (t.readVr dst) 0 (s.vrByte src1) m (4 * (imm.toNat / 4 % 2)) (4 * (imm.toNat % 4)) ∧
      LaneHolds (t.readVr dst) 8 (s.vrByte src1) m (16 + 4 * (imm.toNat / 32 % 2)) (16 + 4 * (imm.toNat / 8 % 4)) ∧
      (∀ b, 256 ≤ b → (t.readVr dst).getLsbD b = false) ∧
      t.rip.toNat = (s.rip.toNat + (Instr.vmpsadbw256Mem e dst src1 o imm).len) % 2 ^ s.mode.ipBits ∧ s.SameBut t dst

/-! ### Laws over the forms -/

/-- R87 (a) to (f) over the register rows with the destination as first source, from one state in which all three forms
complete: with `imm8[2:0]` equal the
low lanes agree, the 256-bit form is two 128-bit ones, the legacy form is the VEX.128 form but for the upper bits, ignored
bits do not matter, words are at most 03FCH, and a window equal to block_2 gives 0. -/
def Obligations.FormsAgree : Prop :=
  ∀ (l : LegacyEnc) (v : VexEnc) (dst src2 : RegNum) (imm : BitVec 8) (s : State),
    s.LegacyReady l (Instr.mpsadbwReg l dst src2 imm).len →
    s.VexReady s.hasAvx v (Instr.vmpsadbw128Reg v dst dst src2 imm).len → s.hasAvx2 = true →
    ∃ t1 t2 t3, exec (.mpsadbwReg l dst src2 imm) s = .next t1 ∧
      exec (.vmpsadbw128Reg v dst dst src2 imm) s = .next t2 ∧
      exec (.vmpsadbw256Reg v dst dst src2 imm) s = .next t3 ∧
      (t1.xmm dst = t2.xmm dst ∧ t2.xmm dst = t3.xmm dst) ∧
      (∀ s' t', (s'.xmm dst = (s.ymm dst).extractLsb' 128 128 ∧ s'.xmm src2 = (s.ymm src2).extractLsb' 128 128) →
        exec (.vmpsadbw128Reg v dst dst src2 (imm >>> 3)) s' = .next t' →
        (t3.ymm dst).extractLsb' 128 128 = t'.xmm dst) ∧
      (∀ b, 128 ≤ b → b < maxVlBits s.maxVl →
        (t1.readVr dst).getLsbD b = (s.readVr dst).getLsbD b ∧ (t2.readVr dst).getLsbD b = false) ∧
      (∀ imm' : BitVec 8, imm'.toNat % 8 = imm.toNat % 8 →
        exec (.mpsadbwReg l dst src2 imm') s = .next t1 ∧ exec (.vmpsadbw128Reg v dst dst src2 imm') s = .next t2) ∧
      (∀ imm' : BitVec 8, imm'.toNat % 64 = imm.toNat % 64 → exec (.vmpsadbw256Reg v dst dst src2 imm') s = .next t3) ∧
      (∀ i < 16, (wordOf (t3.readVr dst) i).toNat ≤ 0x3FC) ∧
      (∀ i < 8, (∀ k < 4, s.vrByte dst (4 * (imm.toNat / 4 % 2) + i + k) = s.vrByte src2 (4 * (imm.toNat % 4) + k)) →
        wordOf (t1.readVr dst) i = 0#16)

/-- R63: the ignored bits of imm8 change neither the result nor the exceptions nor the length: bits 7:3 in the legacy and
VEX.128 forms, bits 7:6 in the VEX.256 form. -/
def Obligations.ImmediateIgnoredBits : Prop :=
  ∀ (imm imm' : BitVec 8) (s : State),
    (imm'.toNat % 8 = imm.toNat % 8 →
      (∀ e dst src2, exec (.mpsadbwReg e dst src2 imm') s = exec (.mpsadbwReg e dst src2 imm) s) ∧
      (∀ e dst o, exec (.mpsadbwMem e dst o imm') s = exec (.mpsadbwMem e dst o imm) s) ∧
      (∀ e dst src1 src2, exec (.vmpsadbw128Reg e dst src1 src2 imm') s = exec (.vmpsadbw128Reg e dst src1 src2 imm) s) ∧
      (∀ e dst src1 o, exec (.vmpsadbw128Mem e dst src1 o imm') s = exec (.vmpsadbw128Mem e dst src1 o imm) s)) ∧
    (imm'.toNat % 64 = imm.toNat % 64 →
      (∀ e dst src1 src2, exec (.vmpsadbw256Reg e dst src1 src2 imm') s = exec (.vmpsadbw256Reg e dst src1 src2 imm) s) ∧
      (∀ e dst src1 o, exec (.vmpsadbw256Mem e dst src1 o imm') s = exec (.vmpsadbw256Mem e dst src1 o imm) s))

/-- R80, R85: for the register rows, the page's Operation sections, run word by word in their own order over the register
file, leave the destination as the meanings do, whatever registers coincide, the VEX.256 section included, whose upper
lane reads the registers after DEST[127:0] has been assigned. The zeroing of the bits above 255 at the end of the VEX.256
section is no line of the page: it is the spec's own choice (D3, log 20). -/
def Obligations.PageOperationsRefined : Prop :=
  ∀ (s : State) (dst src1 src2 : RegNum) (imm : BitVec 8), s.Inv →
    (∀ e t, exec (.mpsadbwReg e dst src2 imm) s = .next t → (s.opLegacy dst src2 imm).vr = t.vr) ∧
    (∀ e t, exec (.vmpsadbw128Reg e dst src1 src2 imm) s = .next t → (s.opVex128 dst src1 src2 imm).vr = t.vr) ∧
    (∀ e t, exec (.vmpsadbw256Reg e dst src1 src2 imm) s = .next t → (s.opVex256 dst src1 src2 imm).vr = t.vr)

/-- R88: each intrinsic is the value the instruction leaves, for `imm8 = mask[7:0]`. -/
def Obligations.IntrinsicsAreTheInstruction : Prop :=
  ∀ (dst src1 src2 : RegNum) (mask : BitVec 32) (s t : State),
    (∀ e, exec (.mpsadbwReg e dst src2 (mask.setWidth 8)) s = .next t →
      t.xmm dst = mmMpsadbwEpu8 (s.xmm dst) (s.xmm src2) mask) ∧
    (∀ e, exec (.vmpsadbw128Reg e dst src1 src2 (mask.setWidth 8)) s = .next t →
      t.xmm dst = mmMpsadbwEpu8 (s.xmm src1) (s.xmm src2) mask) ∧
    (∀ e, exec (.vmpsadbw256Reg e dst src1 src2 (mask.setWidth 8)) s = .next t →
      t.ymm dst = mm256MpsadbwEpu8 (s.ymm src1) (s.ymm src2) mask)

/-- R83, R84: the destination of a VEX form is written only: unless it is also a source, its old value does not enter the
outcome at all. -/
def Obligations.VexOldDestinationIrrelevant : Prop :=
  ∀ (e : VexEnc) (dst src1 src2 : RegNum) (o : MemOp) (imm : BitVec 8) (v : VReg) (s : State), dst ≠ src1 →
    (dst ≠ src2 →
      exec (.vmpsadbw128Reg e dst src1 src2 imm) (s.writeVr dst v) = exec (.vmpsadbw128Reg e dst src1 src2 imm) s ∧
      exec (.vmpsadbw256Reg e dst src1 src2 imm) (s.writeVr dst v) = exec (.vmpsadbw256Reg e dst src1 src2 imm) s) ∧
    exec (.vmpsadbw128Mem e dst src1 o imm) (s.writeVr dst v) = exec (.vmpsadbw128Mem e dst src1 o imm) s ∧
    exec (.vmpsadbw256Mem e dst src1 o imm) (s.writeVr dst v) = exec (.vmpsadbw256Mem e dst src1 o imm) s

/-! ### What an instruction leaves alone, and what it cannot see -/

/-- R20: a completed (V)MPSADBW changes the destination register and RIP, which advances by the length, and nothing else:
no other vector register, no general register, no flag, no control bit and no byte of memory. -/
def Obligations.CompletedInstructionFrame : Prop :=
  ∀ (i : Instr) (s t : State), exec i s = .next t →
    s.SameBut t i.dst ∧ t.rip.toNat = (s.rip.toNat + i.len) % 2 ^ s.mode.ipBits

/-- R80, R31: a memory form depends on no byte of memory but the four bytes of block_2 and, in the 256-bit form, of
block_4: with every other byte of memory changed at will, the outcome is the same. -/
def Obligations.OnlyTheBlocksMatter : Prop :=
  ∀ (i : Instr) (o : MemOp) (s : State) (mem' : Memory), i.memOp = some o →
    (∀ j < i.operandBytes, inBlock i j → ∀ p, s.translate (s.byteAddr (Instr.laOf i s o) j) = .ok p →
      mem'.read p = s.mem.read p) →
    exec i { s with mem := mem' } = mapNext (fun t => { t with mem := mem' }) (exec i s)

/-- R16: no form reads or writes EFLAGS or MXCSR: with other values in them the outcome is the same but for them. -/
def Obligations.FlagsNeitherReadNorWritten : Prop :=
  ∀ (i : Instr) (s : State) (f x : BitVec 32),
    exec i { s with eflags := f, mxcsr := x } = mapNext (fun t => { t with eflags := f, mxcsr := x }) (exec i s)

/-- R113: what completes at one privilege level completes at every other with the same result: a register form without
condition, a memory form where translation lets every byte of its operand be read at that level too. -/
def Obligations.PrivilegeLevelIrrelevant : Prop :=
  ∀ (i : Instr) (s t : State) (c : BitVec 2),
    (∀ o, i.memOp = some o → ∀ j < i.operandBytes,
      ∃ p, ({ s with cpl := c } : State).translate (s.byteAddr (Instr.laOf i s o) j) = .ok p) →
    exec i s = .next t → exec i { s with cpl := c } = .next { t with cpl := c }

/-- R100: no exception depends on the data computed: with any other contents of the vector registers the same exception
is raised. -/
def Obligations.ExceptionsIndependentOfData : Prop :=
  ∀ (i : Instr) (s : State) (f : Fault) (v : Vector VReg 16),
    exec i s = .fault f → exec i { s with vr := v } = .fault f

/-! ### Exceptions -/

/-- R101: not over 15 bytes, an instruction raises `#UD` exactly when one of the causes applies; it is vector 6, carries no
error code, and nothing is recorded beyond it. -/
def Obligations.InvalidOpcodeCauses : Prop :=
  (∀ (i : Instr) (s : State), i.len ≤ 15 → (exec i s = .fault .invalidOpcode ↔ s.UdCause i)) ∧
  Fault.invalidOpcode.vector = 6 ∧ Fault.invalidOpcode.errorCode = none ∧
  ∀ s : State, s.atFault .invalidOpcode = s

/-- R100, with D1: the VEX.L = 1 encoding raises `#UD` on a part without AVX2, and with AVX2 it is no cause of `#UD`. -/
def Obligations.VexL1NeedsAvx2 : Prop :=
  ∀ (e : VexEnc) (dst src1 src2 : RegNum) (o : MemOp) (imm : BitVec 8) (s : State),
    (s.hasAvx2 = false → (Instr.vmpsadbw256Reg e dst src1 src2 imm).len ≤ 15 →
      exec (.vmpsadbw256Reg e dst src1 src2 imm) s = .fault .invalidOpcode) ∧
    (s.hasAvx2 = false → (Instr.vmpsadbw256Mem e dst src1 o imm).len ≤ 15 →
      exec (.vmpsadbw256Mem e dst src1 o imm) s = .fault .invalidOpcode) ∧
    (s.hasAvx2 = true → exec (.vmpsadbw256Reg e dst src1 src2 imm) s = .fault .invalidOpcode →
      exec (.vmpsadbw128Reg e dst src1 src2 imm) s = .fault .invalidOpcode)

/-- R102: with CR0.TS = 1 and no cause of `#UD`, every form raises `#NM`, in every mode; it is vector 7 and carries no
error code. -/
def Obligations.DeviceNotAvailableCause : Prop :=
  (∀ (i : Instr) (s : State), i.len ≤ 15 →
    (exec i s = .fault .deviceNotAvailable ↔ ¬ s.UdCause i ∧ s.cr0.getLsbD 3 = true)) ∧
  Fault.deviceNotAvailable.vector = 7 ∧ Fault.deviceNotAvailable.errorCode = none

/-- R103: past the checks before the operand, `#SS(0)` is raised exactly by a memory operand through SS whose address is
not canonical in 64-bit mode, or illegal in the segment in protected and compatibility mode. That a null SS counts there is
the model's reading (log 15): R103 does not name it. That this check comes before alignment and translation is the spec's
own choice (R108, D16, log 14). -/
def Obligations.StackSegmentCauses : Prop :=
  ∀ (i : Instr) (s : State), s.Decodable i →
    (exec i s = .fault .stackSegment ↔
      ∃ o, i.memOp = some o ∧ Instr.segOf i s o = .ss ∧ s.mode ≠ .real ∧ s.mode ≠ .v8086 ∧
        s.SegFails .ss (Instr.eaOf i s o) i.operandBytes)

/-- R104: `#GP(0)` is raised exactly by an instruction over 15 bytes, and, past the checks before the operand, by a
memory operand that fails its check through a segment other than SS (through any segment in real-address and virtual-8086
mode), or is a misaligned operand of the legacy form that passes it; it is vector 13 with error code 0. R104 (a) alone gives
`#GP` for every misaligned operand of the legacy form: that one which also fails its check through SS reports `#SS(0)`, and
that one whose translation fails too reports `#GP(0)`, is the order inside (4) to (6) of R108, the spec's own choice (D16,
log 14). -/
def Obligations.GeneralProtectionCauses : Prop :=
  Fault.generalProtection.vector = 13 ∧ Fault.generalProtection.errorCode = some 0#32 ∧
  ∀ (i : Instr) (s : State), exec i s = .fault .generalProtection ↔
    15 < i.len ∨ (s.Decodable i ∧ ∃ o, i.memOp = some o ∧
      ((s.SegFails (Instr.segOf i s o) (Instr.eaOf i s o) i.operandBytes ∧
          (Instr.segOf i s o ≠ .ss ∨ s.mode = .real ∨ s.mode = .v8086)) ∨
        (¬ s.SegFails (Instr.segOf i s o) (Instr.eaOf i s o) i.operandBytes ∧ i.isLegacy = true ∧
          (Instr.laOf i s o).toNat % 16 ≠ 0)))

/-- R105, R37: past the checks before it, the first byte of the operand whose translation fails raises `#PF` with that
byte's error code, and CR2 is an accessed byte in the same page as that byte; nothing is said of which. The first byte is
that of the lower page (D16), and for an operand that wraps the linear address space that of the page at the top, by the
model's choice (log 31). The size of the page is the model's (log 8). -/
def Obligations.PageFaultOfLowestByte : Prop :=
  ∀ (i : Instr) (o : MemOp) (s : State) (j : Nat) (c : BitVec 32), s.Decodable i → i.memOp = some o →
    ¬ s.SegFails (Instr.segOf i s o) (Instr.eaOf i s o) i.operandBytes →
    (i.isLegacy = true → (Instr.laOf i s o).toNat % 16 = 0) → j < i.operandBytes →
    (∀ k < j, ∃ p, s.translate (s.byteAddr (Instr.laOf i s o) k) = .ok p) →
    s.translate (s.byteAddr (Instr.laOf i s o) j) = .error c →
    ∃ a, exec i s = .fault (.pageFault c a) ∧
      (∃ k < i.operandBytes, a = s.byteAddr (Instr.laOf i s o) k) ∧
      a >>> pageBits = (s.byteAddr (Instr.laOf i s o) j) >>> pageBits

/-- R116: the error code of a page fault is that of the first byte of the operand whose translation fails, every byte before it
translating: that of the lower page (R105, the spec's own choice D16), and of the page at the top for an operand that wraps
the linear address space, by the model's choice (log 31). W/R, I/D and every bit from 6 up are 0 and U/S is 1 exactly at CPL 3; for a byte that no region holds the
code is 0 below CPL 3 and 4 at CPL 3; for a byte whose region denies the read, RSVD is 1 exactly for a reserved bit, PK
exactly for a protection key, and P is 0 for a page not present and 1 for a protection violation, a key's included. R116
does not say what P is beside a reserved bit, and neither does the statement. -/
def Obligations.PageFaultErrorCode : Prop :=
  ∀ (i : Instr) (s : State) (c : BitVec 32) (a : Addr), exec i s = .fault (.pageFault c a) →
    c.getLsbD 1 = false ∧ c.getLsbD 4 = false ∧ (∀ b, 6 ≤ b → c.getLsbD b = false) ∧
    (c.getLsbD 2 = true ↔ s.cpl = 3#2) ∧
    ∃ o j regions, i.memOp = some o ∧ j < i.operandBytes ∧
      (∀ k < j, ∃ p, s.translate (s.byteAddr (Instr.laOf i s o) k) = .ok p) ∧
      s.translate (s.byteAddr (Instr.laOf i s o) j) = .error c ∧ s.translation = .paged regions ∧
      match regions.find? (fun r => r.holds (s.byteAddr (Instr.laOf i s o) j)) with
      | none => c = if s.cpl = 3#2 then 4#32 else 0#32
      | some r =>
        ∃ d, r.denial s.cpl = some d ∧ (d = .notPresent → c.getLsbD 0 = false) ∧
          (d = .protection ∨ d = .key → c.getLsbD 0 = true) ∧
          (c.getLsbD 3 = true ↔ ∃ p, d = .reservedBit p) ∧ (c.getLsbD 5 = true ↔ d = .key)

/-- R108: when several causes apply the first in this order is reported: length, `#UD`, `#NM`, then for a memory operand
the segment or canonical check, misalignment of the legacy form, and the page fault of the first byte that fails. The order
among those last three is what R108 calls this spec's choice (D16, log 14); that the first byte of an operand that wraps the
linear address space is the one at the top is the model's (log 31). -/
def Obligations.ExceptionPriority : Prop :=
  ∀ (i : Instr) (s : State),
    (15 < i.len → exec i s = .fault .generalProtection) ∧
    (i.len ≤ 15 → s.UdCause i → exec i s = .fault .invalidOpcode) ∧
    (i.len ≤ 15 → ¬ s.UdCause i → s.cr0.getLsbD 3 = true → exec i s = .fault .deviceNotAvailable) ∧
    (∀ o, s.Decodable i → i.memOp = some o →
      (s.SegFails (Instr.segOf i s o) (Instr.eaOf i s o) i.operandBytes →
        exec i s = .fault .stackSegment ∨ exec i s = .fault .generalProtection) ∧
      (¬ s.SegFails (Instr.segOf i s o) (Instr.eaOf i s o) i.operandBytes → i.isLegacy = true →
        (Instr.laOf i s o).toNat % 16 ≠ 0 → exec i s = .fault .generalProtection) ∧
      (¬ s.SegFails (Instr.segOf i s o) (Instr.eaOf i s o) i.operandBytes →
        (i.isLegacy = true → (Instr.laOf i s o).toNat % 16 = 0) →
        ∀ j < i.operandBytes, (∀ k < j, ∃ p, s.translate (s.byteAddr (Instr.laOf i s o) k) = .ok p) →
          ∀ c, s.translate (s.byteAddr (Instr.laOf i s o) j) = .error c → ∃ a, exec i s = .fault (.pageFault c a)))

/-- R32: every byte of the operand is checked, also those the arithmetic does not use: if one of the 16 or 32 fails its
segment's check or its translation, the instruction raises an exception. -/
def Obligations.EveryOperandByteChecked : Prop :=
  ∀ (i : Instr) (o : MemOp) (s : State), i.memOp = some o →
    (s.SegFails (Instr.segOf i s o) (Instr.eaOf i s o) i.operandBytes ∨
      ∃ j < i.operandBytes, ∃ c, s.translate (s.byteAddr (Instr.laOf i s o) j) = .error c) →
    ∃ f, exec i s = .fault f

/-- R34: a misaligned operand of the legacy form that passes its segment's check raises `#GP(0)` in every mode, and a VEX
form whose operand can be read completes at any alignment. That the legacy form does so even where its translation
would fail is the order of R108, the spec's own choice (D16, log 14). -/
def Obligations.AlignmentRule : Prop :=
  ∀ (i : Instr) (o : MemOp) (s : State) (m : Nat → Byte), s.Decodable i → i.memOp = some o →
    (i.isLegacy = true → ¬ s.SegFails (Instr.segOf i s o) (Instr.eaOf i s o) i.operandBytes →
      (Instr.laOf i s o).toNat % 16 ≠ 0 → exec i s = .fault .generalProtection) ∧
    (i.isLegacy = false → s.OperandReads i o m → ∃ t, exec i s = .next t)

/-- R107: the vector numbers and error codes; only `#PF` records an address, and after it CR2 holds that address while
every other fault leaves CR2 alone. -/
def Obligations.ExceptionIdentity : Prop :=
  (Fault.invalidOpcode.vector = 6 ∧ Fault.deviceNotAvailable.vector = 7 ∧ Fault.stackSegment.vector = 12 ∧
    Fault.generalProtection.vector = 13 ∧ ∀ c a, (Fault.pageFault c a).vector = 14) ∧
  (Fault.invalidOpcode.errorCode = none ∧ Fault.deviceNotAvailable.errorCode = none ∧
    Fault.stackSegment.errorCode = some 0#32 ∧ Fault.generalProtection.errorCode = some 0#32 ∧
    ∀ c a, (Fault.pageFault c a).errorCode = some c) ∧
  (∀ (s : State) (f : Fault), (∀ c a, f = .pageFault c a → (s.atFault f).cr2 = a) ∧
    (f.vector ≠ 14 → f.cr2Value = none ∧ (s.atFault f).cr2 = s.cr2))

/-- R109: a fault of a step leaves every register, RIP, the flags and memory as they were; only CR2 may differ. And the
instruction can be restarted: with any translation put in place of the one that may have faulted, the step from the
faulted state is the step from the state before the fault, but for CR2. -/
def Obligations.FaultChangesNothing : Prop :=
  ∀ (s : State) (f : Fault), step s = .fault f →
    (s.atFault f).rip = s.rip ∧ (∀ n, (s.atFault f).readVr n = s.readVr n) ∧
      (∀ dst, s.SameBut { s.atFault f with cr2 := s.cr2 } dst) ∧
      ∀ tr : Translation, step { s.atFault f with translation := tr } =
        mapNext (fun t => { t with cr2 := (s.atFault f).cr2 }) (step { s with translation := tr })

/-- R106, R107: whatever an execution raises is `#UD`, `#NM`, `#SS`, `#GP` or `#PF`; and R133: a register form, and a memory
form no byte of whose operand stands in a device window, completes or raises an exception, and is never refused. -/
def Obligations.CompletesOrRaises : Prop :=
  ∀ (i : Instr) (s : State),
    (∀ f, exec i s = .fault f → f.vector ∈ [6, 7, 12, 13, 14]) ∧
    ((∀ o, i.memOp = some o → ∀ j < i.operandBytes, ∀ p,
        s.translate (s.byteAddr (Instr.laOf i s o) j) = .ok p → s.isDevice p = false) →
      (∃ t, exec i s = .next t) ∨ ∃ f, exec i s = .fault f)

/-- R114, R101: in real-address and virtual-8086 mode every VEX form raises `#UD`, and the legacy form completes there
with its own premises met. -/
def Obligations.RealAndVirtualMode : Prop :=
  ∀ (i : Instr) (s : State), s.mode = .real ∨ s.mode = .v8086 → i.len ≤ 15 →
    (i.isLegacy = false → exec i s = .fault .invalidOpcode) ∧
    (∀ e dst src2 imm, i = .mpsadbwReg e dst src2 imm → s.LegacyReady e i.len → ∃ t, exec i s = .next t)

/-! ### Addresses -/

/-- R59: the SIB form, with 32-bit or 64-bit address size `A` and modulo 2^A: the index is not used when `X:index = 0100b`
and is R12 when X = 1; the scale multiplies by 1, 2, 4 or 8; with no base register the address is the index and a
sign-extended disp32, and it is not RIP-relative. -/
def Obligations.SibAddress : Prop :=
  ∀ (s : State) (a : AddrSize) (sc : BitVec 2) (i b : RegNum) (d : Disp) (d32 : BitVec 32) (len : Nat),
    a = .a32 ∨ a = .a64 →
    let r := fun n : RegNum => ((s.gprAt a n).toNat : Int)
    let ea := fun o : MemOp => ((s.effAddr a len o).toNat : Int)
    ea (.sib sc 4#4 b d) = (r b + dispInt d) % 2 ^ a.bits ∧
    (i ≠ 4#4 → ea (.sib sc i b d) = (r b + r i * 2 ^ sc.toNat + dispInt d) % 2 ^ a.bits) ∧
    ea (.sibNoBase sc 4#4 d32) = d32.toInt % 2 ^ a.bits ∧
    (i ≠ 4#4 → ea (.sibNoBase sc i d32) = (r i * 2 ^ sc.toNat + d32.toInt) % 2 ^ a.bits)

/-- R61: in 64-bit mode the RIP-relative form adds the displacement to the address after the instruction's last byte,
modulo 2^64, or with prefix 67H truncated to 32 bits; its default segment is DS; at address 0 the ten bytes of the rule's
example address 110H. -/
def Obligations.RipRelativeAddress : Prop :=
  (∀ (s : State) (i : Instr) (d : BitVec 32), s.mode = .mode64 → i.memOp = some (.disp32 d) →
    (.addrSize ∉ i.prefixes → Instr.eaOf i s (.disp32 d) = s.rip + BitVec.ofNat 64 i.len + d.signExtend 64) ∧
    (.addrSize ∈ i.prefixes → (Instr.eaOf i s (.disp32 d)).toNat =
      (s.rip + BitVec.ofNat 64 i.len + d.signExtend 64).toNat % 2 ^ 32) ∧
    ((∀ g, .seg g ∉ i.prefixes) → Instr.segOf i s (.disp32 d) = .ds)) ∧
  (∀ (s : State) (i : Instr) (o : MemOp), s.mode = .mode64 → s.rip = 0#64 →
    decode .mode64 [0x66#8, 0x0F#8, 0x3A#8, 0x42#8, 0x15#8, 0x06#8, 0x01#8, 0x00#8, 0x00#8, 0x03#8] = .ok (i, []) →
    i.memOp = some o → Instr.eaOf i s o = 0x110#64 ∧ Instr.laOf i s o = 0x110#64)

/-- R60: the eight base expressions of 16-bit addressing and their default segments, with no displacement, a sign-extended
disp8 or a disp16, sums modulo 2^16; and the disp16 alone. -/
def Obligations.SixteenBitAddress : Prop :=
  ∀ (s : State) (len : Nat) (d : Disp16) (d16 : BitVec 16),
    let r := fun n : RegNum => ((s.gprAt .a16 n).toNat : Int)
    let ea := fun rm => ((s.effAddr .a16 len (.base16 rm d)).toNat : Int)
    let g := fun rm => defaultSeg (.base16 rm d)
    ea 0#3 = (r 3#4 + r 6#4 + disp16Int d) % 65536 ∧ g 0#3 = .ds ∧
    ea 1#3 = (r 3#4 + r 7#4 + disp16Int d) % 65536 ∧ g 1#3 = .ds ∧
    ea 2#3 = (r 5#4 + r 6#4 + disp16Int d) % 65536 ∧ g 2#3 = .ss ∧
    ea 3#3 = (r 5#4 + r 7#4 + disp16Int d) % 65536 ∧ g 3#3 = .ss ∧
    ea 4#3 = (r 6#4 + disp16Int d) % 65536 ∧ g 4#3 = .ds ∧
    ea 5#3 = (r 7#4 + disp16Int d) % 65536 ∧ g 5#3 = .ds ∧
    ea 6#3 = (r 5#4 + disp16Int d) % 65536 ∧ g 6#3 = .ss ∧
    ea 7#3 = (r 3#4 + disp16Int d) % 65536 ∧ g 7#3 = .ds ∧
    (s.effAddr .a16 len (.disp16 d16)).toNat = d16.toNat ∧ defaultSeg (.disp16 d16) = .ds

/-- R62, R36: the default segment of the forms with a SIB byte or a 32-bit or 64-bit base is SS for the base registers 4 and
5, DS otherwise, and holds without an override. Overrides that agree replace it, but for SS in 64-bit mode, which leaves it
(DEDUCED from R103, log 30). In 64-bit mode FS without GS gives FS whatever else is present, GS without FS gives GS, and
without both the segment is never one that adds a base. Of overrides that differ one that is present is taken, by the
model's choice (log 7: R62 is silent); in 64-bit mode it is FS or GS if both are present, and without both an override
that is not SS, or the default if SS is among them. -/
def Obligations.OperandSegment : Prop :=
  ∀ (m : Mode) (ps : List Prefix) (o : MemOp),
    (∀ (r i : RegNum) (sc : BitVec 2) (d : Disp) (d32 : BitVec 32),
      (r = 4#4 ∨ r = 5#4 → defaultSeg (.base r d) = .ss ∧ defaultSeg (.sib sc i r d) = .ss) ∧
      (r ≠ 4#4 → r ≠ 5#4 → defaultSeg (.base r d) = .ds ∧ defaultSeg (.sib sc i r d) = .ds) ∧
      defaultSeg (.sibNoBase sc i d32) = .ds ∧ defaultSeg (.disp32 d32) = .ds) ∧
    ((∀ g, .seg g ∉ ps) → operandSeg m ps o = defaultSeg o) ∧
    (∀ g, .seg g ∈ ps → (∀ h, .seg h ∈ ps → h = g) → m ≠ .mode64 ∨ g ≠ .ss → operandSeg m ps o = g) ∧
    (m = .mode64 → (∀ h, .seg h ∈ ps → h = .ss) → operandSeg m ps o = defaultSeg o) ∧
    (m = .mode64 → .seg .fs ∈ ps → .seg .gs ∉ ps → operandSeg m ps o = .fs) ∧
    (m = .mode64 → .seg .gs ∈ ps → .seg .fs ∉ ps → operandSeg m ps o = .gs) ∧
    (m = .mode64 → .seg .fs ∈ ps → .seg .gs ∈ ps → operandSeg m ps o = .fs ∨ operandSeg m ps o = .gs) ∧
    (m = .mode64 → .seg .fs ∉ ps → .seg .gs ∉ ps → operandSeg m ps o ≠ .fs ∧ operandSeg m ps o ≠ .gs) ∧
    (∀ g, .seg g ∈ ps → m = .mode64 → .seg .fs ∉ ps → .seg .gs ∉ ps →
      (.seg .ss ∈ ps ∧ operandSeg m ps o = defaultSeg o) ∨ (.seg (operandSeg m ps o) ∈ ps ∧ operandSeg m ps o ≠ .ss)) ∧
    (∀ g, .seg g ∈ ps → m ≠ .mode64 → .seg (operandSeg m ps o) ∈ ps) ∧
    (operandSeg m ps o = defaultSeg o ∨ .seg (operandSeg m ps o) ∈ ps)

/-- R36: in 64-bit mode the linear address is the effective address but for FS and GS, which add their base modulo 2^64; in
protected and compatibility mode it is base plus EA modulo 2^32; in real-address and virtual-8086 mode it is sixteen times
the selector plus EA. -/
def Obligations.LinearAddress : Prop :=
  ∀ (s : State) (g : SegReg) (ea : Addr),
    (s.mode = .mode64 → g = .fs ∨ g = .gs → (s.linear g ea).toNat = ((s.seg g).base.toNat + ea.toNat) % 2 ^ 64) ∧
    (s.mode = .mode64 → g ≠ .fs → g ≠ .gs → s.linear g ea = ea) ∧
    (s.mode = .compat32 ∨ s.mode = .prot32 ∨ s.mode = .prot16 →
      (s.linear g ea).toNat = ((s.seg g).base.toNat + ea.toNat) % 2 ^ 32) ∧
    (s.mode = .real ∨ s.mode = .v8086 → ea.toNat < 2 ^ 32 →
      (s.linear g ea).toNat = 16 * (s.seg g).selector.toNat + ea.toNat)

/-! ### Reset, launch and step -/

/-- R130: the values after RESET that the rule gives, the address of the first fetch, and what INIT keeps. -/
def Obligations.ResetValues : Prop :=
  (∀ n, State.reset.readVr n = 0#512) ∧
  (∀ n : RegNum, n ≠ 2#4 → State.reset.gprAt .a64 n = 0#64) ∧
  State.reset.eflags = 0x2#32 ∧ State.reset.rip = 0xFFF0#64 ∧ State.reset.cs.base = 0xFFFF0000#64 ∧
  State.reset.fetchLinear 0 = 0xFFFFFFF0#64 ∧ State.reset.cr0 = 0x60000010#64 ∧ State.reset.em = false ∧
  State.reset.ts = false ∧ State.reset.mode = .real ∧ State.reset.translation = .off ∧
  State.reset.cr4 = 0#64 ∧ State.reset.osfxsr = false ∧ State.reset.osxsave = false ∧
  State.reset.xcr0 = 1#64 ∧ State.reset.mxcsr = 0x1F80#32 ∧ State.reset.cpl = 0#2 ∧
  ∀ s : State, s.init.vr = s.vr ∧ s.init.mxcsr = s.mxcsr ∧ s.init.xcr0 = s.xcr0

/-- R130: straight out of reset every form of (V)MPSADBW raises `#UD`. -/
def Obligations.ResetRaisesInvalidOpcode : Prop :=
  ∀ i : Instr, i.len ≤ 15 → exec i State.reset = .fault .invalidOpcode

/-- The reset state meets the invariant. -/
def Obligations.ResetMeetsInvariant : Prop := State.reset.Inv

/-- From every state that meets the invariant a step leads to one that meets it: memory canonical, no bit of a vector
register at MAXVL or above, the instruction pointer within its width, the parameters admissible. -/
def Obligations.StepKeepsInvariant : Prop :=
  ∀ s t : State, s.Inv → step s = .next t → t.Inv

/-- Where the program has not ended and the bytes at RIP decode to `i`, a step refuses `i` if its bytes wrap the address
space or leave the canonical addresses (R15, the spec's own choice D10), before any exception `i` would raise (the model's
order, log 27), and otherwise executes exactly `i`, at that state. -/
def Obligations.StepRunsDecoded : Prop :=
  ∀ (s : State) (i : Instr) (rest : List Byte), s.atEnd = false → decode s.mode s.fetchBytes = .ok (i, rest) →
    (s.fetchStraddles i.len = false → step s = exec i s) ∧
    (s.fetchStraddles i.len = true → step s = .refused .fetchStraddles)

/-- R134, R67: a run is over successfully exactly when RIP stands at `BASE + |P|`, at the instruction pointer's width, so that
a program may end at the very top of the address space; before that bytes that do not decode are refused. R134 counts a
refusal as an unsuccessful end; that the successful end is answered as the refusal `endOfProgram` is the model's reading
(log 6). A run ends at its first fault too (R109), of which this says nothing. -/
def Obligations.RunEndsAtProgramEnd : Prop :=
  ∀ s : State, s.rip.toNat < 2 ^ s.mode.ipBits → s.progBase.toNat < 2 ^ s.mode.ipBits →
    s.progLen < 2 ^ s.mode.ipBits →
    (step s = .refused .endOfProgram ↔ s.rip.toNat = (s.progBase.toNat + s.progLen) % 2 ^ s.mode.ipBits) ∧
    (∀ e, s.rip.toNat ≠ (s.progBase.toNat + s.progLen) % 2 ^ s.mode.ipBits → decode s.mode s.fetchBytes = .error e →
      step s = .refused (.undecoded e))

/-- R134: a program loaded at RIP is what the fetch reads, byte for byte, and loading keeps memory canonical. -/
def Obligations.LoadedProgramIsFetched : Prop :=
  ∀ (s : State) (bs : List Byte), s.mode = .mode64 → s.translation = .off → s.mem.wf →
    s.rip.toNat + bs.length ≤ 2 ^ 64 → bs.length < 2 ^ 64 →
    (s.loadProgram bs).fetchBytes = bs ∧ (s.loadProgram bs).mem.wf ∧
      (∀ a, a < s.rip.toNat ∨ s.rip.toNat + bs.length ≤ a → (s.loadProgram bs).mem.read a = s.mem.read a)

/-- R131: once the premises of the rule are set up and a program is loaded, its first instruction executes: the step runs it,
and it raises neither `#UD` nor `#NM` where the part has that form's feature flag and no prefix forbids it. That the
launch is in 64-bit mode is the model's choice (log 5). -/
def Obligations.EnabledProgramStarts : Prop :=
  ∀ (s : State) (i : Instr) (bs rest : List Byte), s.translation = .off → s.mem.wf →
    s.rip.toNat + bs.length < 2 ^ 47 → decode .mode64 bs = .ok (i, rest) →
    step (s.enabled.loadProgram bs) = exec i (s.enabled.loadProgram bs) ∧
    (i.len ≤ 15 → s.hasFlag i.cpuidFlag = true →
      (∀ p ∈ i.prefixes, p ≠ .lock) → (i.isLegacy = false → ∀ p ∈ i.prefixes, p.allowedBeforeVex = true) →
      (s.enabled.loadProgram bs).Decodable i)

/-! ### Addresses: the base form and the address size -/

/-- R58: with 32-bit or 64-bit address size `A`, a base register and a displacement: the sum, modulo 2^A, of the register
read at width A and of nothing, the sign-extended disp8 or the sign-extended disp32; and outside 64-bit mode the disp32
alone. A register read at an address size is its low bits. -/
def Obligations.BaseAddress : Prop :=
  ∀ (s : State) (a : AddrSize) (r : RegNum) (d : Disp) (d32 : BitVec 32) (len : Nat),
    (s.gprAt a r).toNat = (s.gpr[r.toNat]'r.isLt).toNat % 2 ^ a.bits ∧
    (a = .a32 ∨ a = .a64 →
      ((s.effAddr a len (.base r d)).toNat : Int) = (((s.gprAt a r).toNat : Int) + dispInt d) % 2 ^ a.bits ∧
      (s.mode ≠ .mode64 → ((s.effAddr a len (.disp32 d32)).toNat : Int) = d32.toInt % 2 ^ a.bits))

/-- R62: the address size at which an instruction forms its effective address is 64 in 64-bit mode and the code segment's 32
or 16 elsewhere; prefix 67H, once or repeated, switches 64 to 32, 32 to 16 and 16 to 32. -/
def Obligations.AddressSize : Prop :=
  ∀ (i : Instr) (o : MemOp) (s : State),
    (.addrSize ∉ i.prefixes → Instr.eaOf i s o = s.effAddr (codeSize s.mode) i.len o) ∧
    (.addrSize ∈ i.prefixes → Instr.eaOf i s o = s.effAddr (switchedSize (codeSize s.mode)) i.len o)
end

