-- ==== Sys2Proof/Laws/Decode.lean ====
section
/-! SUPPORT. The small lemmas of the decoder and the encoder: each byte and field read back as it was written. -/

namespace Sys2Proof

/-! ### Bytes of prefixes -/

theorem Rex.ofByte_toByte (r : Rex) : Rex.ofByte r.toByte = r := by
  obtain ⟨w, r, x, b⟩ := r
  cases w <;> cases r <;> cases x <;> cases b <;> rfl

/-- A prefix reads back from its byte in every mode that has it. -/
theorem Prefix.ofByte_toByte (m : Mode) (p : Prefix) (h : p.isRex = true → m = .mode64) :
    Prefix.ofByte m p.toByte = some p := by
  cases p with
  | seg g => cases g <;> rfl
  | rex r =>
    obtain rfl := h rfl
    obtain ⟨w, r, x, b⟩ := r
    cases w <;> cases r <;> cases x <;> cases b <;> rfl
  | _ => rfl

/-- The byte of a prefix that was read. -/
theorem Prefix.toByte_of_ofByte {m : Mode} {b : Byte} {p : Prefix} (h : Prefix.ofByte m b = some p) :
    p.toByte = b ∧ (p.isRex = true → m = .mode64) := by
  have all : ∀ b : Byte, ∀ p ∈ Prefix.ofByte m b, p.toByte = b ∧ (p.isRex = true → m = .mode64) := by
    cases m <;> decide
  exact all b p h

/-- No opcode byte that the decoder looks at is a prefix. -/
theorem Prefix.ofByte_opcode (m : Mode) :
    Prefix.ofByte m 0x0F#8 = none ∧ Prefix.ofByte m 0xC4#8 = none ∧ Prefix.ofByte m 0xC5#8 = none ∧
      Prefix.ofByte m 0x62#8 = none := by
  cases m <;> decide

/-! ### Runs of prefixes -/

theorem leadingPrefixes_append (m : Mode) (ps : List Prefix) (bs : List Byte)
    (h : ∀ p ∈ ps, p.isRex = true → m = .mode64) :
    leadingPrefixes m (ps.map Prefix.toByte ++ bs) = ps ++ leadingPrefixes m bs := by
  induction ps with
  | nil => rfl
  | cons p ps ih =>
    simp only [List.map_cons, List.cons_append, leadingPrefixes, Prefix.ofByte_toByte m p (h p (by simp))]
    rw [ih fun q hq => h q (by simp [hq])]

theorem afterPrefixes_append (m : Mode) (ps : List Prefix) (bs : List Byte)
    (h : ∀ p ∈ ps, p.isRex = true → m = .mode64) :
    afterPrefixes m (ps.map Prefix.toByte ++ bs) = afterPrefixes m bs := by
  induction ps with
  | nil => rfl
  | cons p ps ih =>
    simp only [List.map_cons, List.cons_append, afterPrefixes, Prefix.ofByte_toByte m p (h p (by simp))]
    exact ih fun q hq => h q (by simp [hq])

/-- The bytes are the prefixes read and the bytes after them. -/
theorem prefixes_append_after (m : Mode) (bs : List Byte) :
    (leadingPrefixes m bs).map Prefix.toByte ++ afterPrefixes m bs = bs := by
  induction bs with
  | nil => rfl
  | cons b bs ih =>
    simp only [leadingPrefixes, afterPrefixes]
    cases hp : Prefix.ofByte m b with
    | none => rfl
    | some p => simp [(Prefix.toByte_of_ofByte hp).1, ih]

/-- Every prefix read belongs to the mode. -/
theorem leadingPrefixes_rex (m : Mode) (bs : List Byte) :
    ∀ p ∈ leadingPrefixes m bs, p.isRex = true → m = .mode64 := by
  induction bs with
  | nil => simp [leadingPrefixes]
  | cons b bs ih =>
    simp only [leadingPrefixes]
    cases hp : Prefix.ofByte m b with
    | none => simp
    | some p =>
      intro q hq
      rcases List.mem_cons.mp hq with rfl | hq
      · exact (Prefix.toByte_of_ofByte hp).2
      · exact ih q hq

theorem finalRex_append (ps : List Prefix) (r : Rex) : finalRex (ps ++ [.rex r]) = some r := by
  induction ps with
  | nil => rfl
  | cons p ps ih => cases ps <;> cases p <;> simp_all [finalRex]

theorem dropFinalRex_append (ps : List Prefix) (r : Rex) : dropFinalRex (ps ++ [.rex r]) = ps := by
  induction ps with
  | nil => rfl
  | cons p ps ih => cases ps <;> cases p <;> simp_all [dropFinalRex]

theorem finalRex_none {ps : List Prefix} (h : ∀ p ∈ ps, p.isRex = false) : finalRex ps = none := by
  induction ps with
  | nil => rfl
  | cons p ps ih => cases ps <;> cases p <;> simp_all [finalRex, Prefix.isRex]

theorem dropFinalRex_eq {ps : List Prefix} (h : ∀ p ∈ ps, p.isRex = false) : dropFinalRex ps = ps := by
  induction ps with
  | nil => rfl
  | cons p ps ih => cases ps <;> cases p <;> simp_all [dropFinalRex, Prefix.isRex]

/-- The prefixes are those without the final REX, and then the REX. -/
theorem dropFinalRex_finalRex (ps : List Prefix) :
    dropFinalRex ps ++ (match finalRex ps with | some r => [Prefix.rex r] | none => []) = ps := by
  induction ps with
  | nil => rfl
  | cons p ps ih => cases ps <;> cases p <;> simp_all [finalRex, dropFinalRex]

/-! ### Fields -/

theorem regNum_msb (x : Bool) (n : BitVec 3) : (regNum x n).msb = x := by revert x n; decide

theorem regNum_setWidth (x : Bool) (n : BitVec 3) : (regNum x n).setWidth 3 = n := by revert x n; decide

/-- A register number is its extension bit over its field (R56). -/
theorem regNum_eq (r : RegNum) : regNum r.msb (r.setWidth 3) = r := by revert r; decide

theorem modRM_mod (a : BitVec 2) (b c : BitVec 3) : (modRM a b c).extractLsb' 6 2 = a := by revert a b c; decide

theorem modRM_reg (a : BitVec 2) (b c : BitVec 3) : (modRM a b c).extractLsb' 3 3 = b := by revert a b c; decide

theorem modRM_rm (a : BitVec 2) (b c : BitVec 3) : (modRM a b c).extractLsb' 0 3 = c := by revert a b c; decide

theorem modRM_eq (b : Byte) : modRM (b.extractLsb' 6 2) (b.extractLsb' 3 3) (b.extractLsb' 0 3) = b := by
  revert b; decide

theorem takeD16_bytes (d : BitVec 16) (bs : List Byte) : takeD16 (d16Bytes d ++ bs) = .ok (d, bs) := by
  simp only [d16Bytes, List.cons_append, List.nil_append, takeD16]
  congr 2
  apply BitVec.eq_of_getLsbD_eq
  intro k hk
  simp only [BitVec.getLsbD_append, BitVec.getLsbD_extractLsb']
  grind

theorem takeD32_bytes (d : BitVec 32) (bs : List Byte) : takeD32 (d32Bytes d ++ bs) = .ok (d, bs) := by
  simp only [d32Bytes, List.cons_append, List.nil_append, takeD32]
  congr 2
  apply BitVec.eq_of_getLsbD_eq
  intro k hk
  simp only [BitVec.getLsbD_append, BitVec.getLsbD_extractLsb']
  grind

/-! ### Lengths (R64) -/

theorem Disp.bytes_length (d : Disp) : d.bytes.length = d.len := by cases d <;> rfl

theorem Disp16.bytes_length (d : Disp16) : d.bytes.length = d.len := by cases d <;> rfl

theorem MemOp.bytes_length (o : MemOp) (r : BitVec 3) : (o.bytes r).length = 1 + o.len := by
  cases o with
  | base g d => simp [MemOp.bytes, MemOp.len, Disp.bytes_length]; omega
  | sib sc i g d => simp [MemOp.bytes, MemOp.len, Disp.bytes_length]; omega
  | base16 g d => simp [MemOp.bytes, MemOp.len, Disp16.bytes_length]; omega
  | _ => rfl

theorem LegacyEnc.head_length (e : LegacyEnc) :
    e.head.length = e.prefixes.length + (if e.rex.isSome then 1 else 0) + 3 := by
  cases h : e.rex <;> simp [LegacyEnc.head, h]

theorem VexEnc.head_length (e : VexEnc) (v : RegNum) (l : Bool) :
    (e.head v l).length = e.prefixes.length + 4 := by
  simp [VexEnc.head]

/-! ### What the decoder makes of the encoder's bytes -/

theorem takeDisp_bytes (d : Disp) (bs) : takeDisp d.mod (d.bytes ++ bs) = .ok (d, bs) := by
  cases d with
  | none => rfl
  | d8 d => rfl
  | d32 d => simp [takeDisp, Disp.mod, Disp.bytes, takeD32_bytes]

theorem takeDisp16_bytes (d : Disp16) (bs) : takeDisp16 d.mod (d.bytes ++ bs) = .ok (d, bs) := by
  cases d with
  | none => rfl
  | d8 d => rfl
  | d16 d => simp [takeDisp16, Disp16.mod, Disp16.bytes, takeD16_bytes]

theorem Disp.mod_ne (d : Disp) : d.mod ≠ 3#2 := by cases d <;> simp [Disp.mod]

theorem Disp16.mod_ne (d : Disp16) : d.mod ≠ 3#2 := by cases d <;> simp [Disp16.mod]

theorem Disp.mod_zero (d : Disp) : d.mod = 0#2 ↔ d = .none := by cases d <;> simp [Disp.mod]

theorem Disp16.mod_zero (d : Disp16) : d.mod = 0#2 ↔ d = .none := by cases d <;> simp [Disp16.mod]

theorem regNum_of_wellFormed {b : Bool} {r : RegNum} (h : RegNum.wellFormed b r = true) : regNum b (r.setWidth 3) = r := by
  simp [RegNum.wellFormed] at h; rw [← h, regNum_eq]

/-- The bytes of a well-formed memory operand start with a ModRM byte whose mod is not 11b, and read back as it. -/
theorem decodeMemOp_bytes (a : AddrSize) (x b : Bool) (o : MemOp) (reg : BitVec 3) (rest : List Byte)
   (h : o.wellFormed a x b = true) :
   ∃ mb tl, o.bytes reg = mb :: tl ∧ mb.extractLsb' 6 2 ≠ 3#2 ∧ mb.extractLsb' 3 3 = reg ∧
    decodeMemOp a x b (mb.extractLsb' 6 2) (mb.extractLsb' 0 3) (tl ++ rest) = .ok (o, rest) := by
  cases o with
  | base r d =>
    simp [MemOp.wellFormed] at h
    obtain ⟨⟨⟨h1, h2⟩, h3⟩, h4⟩ := h
    refine ⟨_, _, rfl, ?_, ?_, ?_⟩
    · rw [modRM_mod]; exact Disp.mod_ne d
    · rw [modRM_reg]
    · rw [modRM_mod, modRM_rm]
      have : ¬ (r.setWidth 3 = 5#3 ∧ d.mod = 0#2) := by
        rw [Disp.mod_zero]; rintro ⟨e1, e2⟩; rcases h4 with h4 | h4 <;> contradiction
      simp [decodeMemOp, h1, decodeMem, h3, this, takeDisp_bytes, regNum_of_wellFormed h2]
  | sib sc i r d =>
    simp [MemOp.wellFormed] at h
    obtain ⟨⟨⟨h1, h2⟩, h3⟩, h4⟩ := h
    refine ⟨_, _, rfl, ?_, ?_, ?_⟩
    · rw [modRM_mod]; exact Disp.mod_ne d
    · rw [modRM_reg]
    · rw [modRM_mod, modRM_rm]
      have : ¬ (r.setWidth 3 = 5#3 ∧ d.mod = 0#2) := by
        rw [Disp.mod_zero]; rintro ⟨e1, e2⟩; rcases h4 with h4 | h4 <;> contradiction
      simp [decodeMemOp, h1, decodeMem, decodeSib, modRM_rm, modRM_mod, modRM_reg, this, takeDisp_bytes, regNum_of_wellFormed h2, regNum_of_wellFormed h3]
  | sibNoBase sc i d =>
    simp [MemOp.wellFormed] at h
    refine ⟨_, _, rfl, ?_, ?_, ?_⟩
    · rw [modRM_mod]; decide
    · rw [modRM_reg]
    · rw [modRM_mod, modRM_rm]
      simp [decodeMemOp, h.1, decodeMem, decodeSib, modRM_rm, modRM_mod, modRM_reg, takeD32_bytes, regNum_of_wellFormed h.2]
  | disp32 d =>
    simp [MemOp.wellFormed] at h
    refine ⟨_, _, rfl, ?_, ?_, ?_⟩
    · rw [modRM_mod]; decide
    · rw [modRM_reg]
    · rw [modRM_mod, modRM_rm]
      simp [decodeMemOp, h, decodeMem, takeD32_bytes]
  | base16 rm d =>
    simp [MemOp.wellFormed] at h
    refine ⟨_, _, rfl, ?_, ?_, ?_⟩
    · rw [modRM_mod]; exact Disp16.mod_ne d
    · rw [modRM_reg]
    · rw [modRM_mod, modRM_rm]
      have : ¬ (rm = 6#3 ∧ d.mod = 0#2) := by
        rw [Disp16.mod_zero]; rintro ⟨e1, e2⟩; rcases h.2 with h4 | h4 <;> contradiction
      simp [decodeMemOp, h.1, decodeMem16, this, takeDisp16_bytes]
  | disp16 d =>
    simp [MemOp.wellFormed] at h
    refine ⟨_, _, rfl, ?_, ?_, ?_⟩
    · rw [modRM_mod]; decide
    · rw [modRM_reg]
    · rw [modRM_mod, modRM_rm]
      simp [decodeMemOp, h, decodeMem16, takeD16_bytes]

theorem prefixes_of_opcode (m) (b : Byte) (r) (h : Prefix.ofByte m b = none) : leadingPrefixes m (b :: r) = [] ∧ afterPrefixes m (b :: r) = b :: r := by
  simp [leadingPrefixes, afterPrefixes, h]

/-- Prefixes, REX and opcode of format L lead the decoder to the tail of format L. -/
theorem decode_legacyHead (m : Mode) (e : LegacyEnc) (r : List Byte) (h : e.wellFormed m = true) :
    decode m (e.head ++ r) = decodeLegacyTail m e r := by
  obtain ⟨ps, rex⟩ := e
  simp only [LegacyEnc.wellFormed, Bool.and_eq_true, List.all_eq_true, Bool.or_eq_true, decide_eq_true_eq] at h
  obtain ⟨⟨h1, h2⟩, h3⟩ := h
  have hnr : ∀ p ∈ ps, p.isRex = false := fun p hp => by
    have := h1 p hp; cases p <;> simp_all [Prefix.isLegacy, Prefix.isRex]
  have hz := (Prefix.ofByte_opcode m).1
  cases rex with
  | none =>
    have e1 : (LegacyEnc.mk ps none).head ++ r = ps.map Prefix.toByte ++ (0x0F#8 :: 0x3A#8 :: 0x42#8 :: r) := by
      simp [LegacyEnc.head]
    have hh : ∀ p ∈ ps, p.isRex = true → m = .mode64 := fun p hp hq => by simp [hnr p hp] at hq
    rw [e1, decode, afterPrefixes_append m ps _ hh, leadingPrefixes_append m ps _ hh, (prefixes_of_opcode m _ _ hz).1, (prefixes_of_opcode m _ _ hz).2]
    have hany : ps.any Prefix.isRex = false := by simpa [List.any_eq_false] using hnr
    simp only [List.append_nil, if_pos, decodeLegacy, dropFinalRex_eq hnr, finalRex_none hnr, hany]
    simp [List.all_eq_true.mpr h1, List.contains_iff_mem.mp h2]
  | some x =>
    have hm : m = .mode64 := by simpa using h3
    subst hm
    have e1 : (LegacyEnc.mk ps (some x)).head ++ r = (ps ++ [Prefix.rex x]).map Prefix.toByte ++ (0x0F#8 :: 0x3A#8 :: 0x42#8 :: r) := by
      simp [LegacyEnc.head, Prefix.toByte]
    rw [e1, decode, afterPrefixes_append .mode64 _ _ (by simp), leadingPrefixes_append .mode64 _ _ (by simp), (prefixes_of_opcode _ _ _ hz).1, (prefixes_of_opcode _ _ _ hz).2]
    have hany : ps.any Prefix.isRex = false := by simpa [List.any_eq_false] using hnr
    simp only [List.append_nil, if_pos, decodeLegacy, dropFinalRex_append, finalRex_append, hany]
    simp [List.all_eq_true.mpr h1, List.contains_iff_mem.mp h2]

/-- The fields of byte 1 of the VEX prefix (R54). -/
theorem vexByte1_fields (r x b : Bool) : let q : Byte := BitVec.ofBool (!r) ++ BitVec.ofBool (!x) ++ BitVec.ofBool (!b) ++ 3#5
   q.extractLsb' 0 5 = 3#5 ∧ q.getLsbD 7 = !r ∧ q.getLsbD 6 = !x ∧ q.getLsbD 5 = !b ∧ (r = false → x = false → q.extractLsb' 6 2 = 3#2) := by
  revert r x b; decide

/-- The fields of byte 2 of the VEX prefix (R54). -/
theorem vexByte2_fields (w l : Bool) (v : RegNum) : let q : Byte := BitVec.ofBool w ++ (~~~ v) ++ BitVec.ofBool l ++ 1#2
   q.extractLsb' 0 2 = 1#2 ∧ q.getLsbD 7 = w ∧ ~~~ (q.extractLsb' 3 4) = v ∧ q.getLsbD 2 = l ∧ q.getLsbD 6 = !v.msb := by
  revert w l v; decide

/-- Prefixes, VEX prefix and opcode of format V lead the decoder to the tail of format V. -/
theorem decode_vexHead (m : Mode) (e : VexEnc) (v : RegNum) (l : Bool) (r : List Byte) (h : e.wellFormed m = true) (hv : vnumWellFormed m v = true) :
    decode m (e.head v l ++ r) = decodeVexTail m e v l r := by
  obtain ⟨ps, er, ex, eb, ew⟩ := e
  have hh : ∀ p ∈ ps, p.isRex = true → m = .mode64 := by
    intro p hp hq
    simp [VexEnc.wellFormed] at h
    rcases h with h | h
    · exact h
    · simp [h.1.1.1 p hp] at hq
  have e1 : (VexEnc.mk ps er ex eb ew).head v l ++ r = ps.map Prefix.toByte ++ (0xC4#8 :: (VexEnc.mk ps er ex eb ew).byte1 :: (VexEnc.mk ps er ex eb ew).byte2 v l :: 0x42#8 :: r) := by
    simp [VexEnc.head]
  have hz := (Prefix.ofByte_opcode m).2.1
  rw [e1, decode, afterPrefixes_append m ps _ hh, leadingPrefixes_append m ps _ hh, (prefixes_of_opcode m _ _ hz).1, (prefixes_of_opcode m _ _ hz).2]
  obtain ⟨a1, a2, a3, a4, a5⟩ := vexByte1_fields er ex eb
  obtain ⟨b1, b2, b3, b4, b5⟩ := vexByte2_fields ew l v
  have hb1 : (VexEnc.mk ps er ex eb ew).byte1 = BitVec.ofBool (!er) ++ BitVec.ofBool (!ex) ++ BitVec.ofBool (!eb) ++ 3#5 := rfl
  have hb2 : (VexEnc.mk ps er ex eb ew).byte2 v l = BitVec.ofBool ew ++ (~~~ v) ++ BitVec.ofBool l ++ 1#2 := rfl
  rw [hb1, hb2]
  simp only [decodeVex, a1, b1, a2, a3, a4, b2, b3, b4, b5]
  simp only [VexEnc.wellFormed, vnumWellFormed, Bool.or_eq_true, decide_eq_true_eq, Bool.and_eq_true, Bool.not_eq_true'] at h hv
  by_cases hm : m = .mode64
  · simp [hm]
  · obtain ⟨⟨⟨_, hr⟩, hx⟩, hb⟩ := h.resolve_left hm
    have hv := hv.resolve_left hm
    simp [hr, hx, hb, hv]

/-! ### What bytes a decoding came from -/

theorem d16Bytes_append (b0 b1 : Byte) : d16Bytes (b1 ++ b0) = [b0, b1] := by
  simp only [d16Bytes]
  congr 1
  · apply BitVec.eq_of_getLsbD_eq; intro k hk; simp only [BitVec.getLsbD_append, BitVec.getLsbD_extractLsb']; grind
  · congr 1; apply BitVec.eq_of_getLsbD_eq; intro k hk; simp only [BitVec.getLsbD_append, BitVec.getLsbD_extractLsb']; grind

theorem d32Bytes_append (b0 b1 b2 b3 : Byte) : d32Bytes (b3 ++ b2 ++ b1 ++ b0) = [b0, b1, b2, b3] := by
  simp only [d32Bytes]
  have : ∀ a b c d a' b' c' d' : Byte, a = a' → b = b' → c = c' → d = d' → [a,b,c,d] = [a',b',c',d'] := by
    rintro _ _ _ _ _ _ _ _ rfl rfl rfl rfl; rfl
  apply this
  all_goals (apply BitVec.eq_of_getLsbD_eq; intro k hk; simp only [BitVec.getLsbD_append, BitVec.getLsbD_extractLsb']; grind)

theorem takeD8_eq_ok {bs d r} (h : takeD8 bs = .ok (d, r)) : bs = d :: r := by
  cases bs with
  | nil => simp [takeD8] at h
  | cons b bs => simp [takeD8] at h; simp [h.1, h.2]

theorem takeD16_eq_ok {bs d r} (h : takeD16 bs = .ok (d, r)) : bs = d16Bytes d ++ r := by
  unfold takeD16 at h; split at h
  · simp at h; obtain ⟨rfl, rfl⟩ := h; rw [d16Bytes_append]; rfl
  · cases h

theorem takeD32_eq_ok {bs d r} (h : takeD32 bs = .ok (d, r)) : bs = d32Bytes d ++ r := by
  unfold takeD32 at h; split at h
  · simp at h; obtain ⟨rfl, rfl⟩ := h; rw [d32Bytes_append]; rfl
  · cases h

theorem mod_eq_two (m : BitVec 2) (h0 : m ≠ 0#2) (h1 : m ≠ 1#2) (h3 : m ≠ 3#2) : m = 2#2 := by revert m; decide

theorem takeDisp_eq_ok {m bs d r} (hm : m ≠ 3#2) (h : takeDisp m bs = .ok (d, r)) : bs = d.bytes ++ r ∧ d.mod = m := by
  unfold takeDisp at h
  split at h
  · rename_i h0; simp at h; obtain ⟨rfl, rfl⟩ := h; simp [Disp.bytes, Disp.mod, h0]
  · split at h
    · rename_i h1
      split at h
      · rename_i d' r' h'; simp at h; obtain ⟨rfl, rfl⟩ := h; simp [Disp.bytes, Disp.mod, h1, takeD8_eq_ok h']
      · cases h
    · split at h
      · rename_i d' r' h'; simp at h; obtain ⟨rfl, rfl⟩ := h
        simp [Disp.bytes, Disp.mod, takeD32_eq_ok h', mod_eq_two m ‹_› ‹_› hm]
      · cases h

theorem takeDisp16_eq_ok {m bs d r} (hm : m ≠ 3#2) (h : takeDisp16 m bs = .ok (d, r)) : bs = d.bytes ++ r ∧ d.mod = m := by
  unfold takeDisp16 at h
  split at h
  · rename_i h0; simp at h; obtain ⟨rfl, rfl⟩ := h; simp [Disp16.bytes, Disp16.mod, h0]
  · split at h
    · rename_i h1
      split at h
      · rename_i d' r' h'; simp at h; obtain ⟨rfl, rfl⟩ := h; simp [Disp16.bytes, Disp16.mod, h1, takeD8_eq_ok h']
      · cases h
    · split at h
      · rename_i d' r' h'; simp at h; obtain ⟨rfl, rfl⟩ := h
        simp [Disp16.bytes, Disp16.mod, takeD16_eq_ok h', mod_eq_two m ‹_› ‹_› hm]
      · cases h

theorem wellFormed_regNum (b : Bool) (n : BitVec 3) : RegNum.wellFormed b (regNum b n) = true := by
  simp [RegNum.wellFormed, regNum_msb]

/-- A memory operand that was decoded is well-formed, and its bytes are those it was read from. -/
theorem decodeMemOp_eq_ok {a x b mb bs o r} (hm : mb.extractLsb' 6 2 ≠ 3#2)
   (h : decodeMemOp a x b (mb.extractLsb' 6 2) (mb.extractLsb' 0 3) bs = .ok (o, r)) :
   o.wellFormed a x b = true ∧ o.bytes (mb.extractLsb' 3 3) ++ r = mb :: bs := by
  have hmb := modRM_eq mb
  generalize mb.extractLsb' 6 2 = md at *
  generalize mb.extractLsb' 0 3 = rm at *
  generalize mb.extractLsb' 3 3 = rg at *
  unfold decodeMemOp at h
  split at h
  · rename_i ha
    unfold decodeMem16 at h
    split at h
    · rename_i hc; split at h
      · rename_i d r' h'; simp at h; obtain ⟨rfl, rfl⟩ := h
        simp [MemOp.wellFormed, ha, MemOp.bytes, takeD16_eq_ok h', ← hc.1, ← hc.2, hmb]
      · cases h
    · rename_i hc; split at h
      · rename_i d r' h'; simp at h; obtain ⟨rfl, rfl⟩ := h
        obtain ⟨e1, e2⟩ := takeDisp16_eq_ok hm h'
        simp [MemOp.wellFormed, ha, MemOp.bytes, e1, e2, hmb]
        by_contra hh; push Not at hh; apply hc; rw [← e2, Disp16.mod_zero]; exact hh
      · cases h
  · rename_i ha
    unfold decodeMem at h
    split at h
    · rename_i h4
      unfold decodeSib at h
      split at h
      · cases h
      · rename_i sb bs'
        have hsb := modRM_eq sb
        split at h
        · rename_i hc; split at h
          · rename_i d r' h'; simp at h; obtain ⟨rfl, rfl⟩ := h
            rw [hc.1] at hsb
            simp [MemOp.wellFormed, ha, MemOp.bytes, takeD32_eq_ok h', wellFormed_regNum, regNum_setWidth, hsb, ← hc.2, ← h4, hmb]
          · cases h
        · rename_i hc; split at h
          · rename_i d r' h'; simp at h; obtain ⟨rfl, rfl⟩ := h
            obtain ⟨e1, e2⟩ := takeDisp_eq_ok hm h'
            simp [MemOp.wellFormed, ha, MemOp.bytes, e1, e2, wellFormed_regNum, regNum_setWidth, hsb, ← h4, hmb]
            by_contra hh; push Not at hh; apply hc; rw [← e2, Disp.mod_zero]; exact hh
          · cases h
    · rename_i h4
      split at h
      · rename_i hc; split at h
        · rename_i d r' h'; simp at h; obtain ⟨rfl, rfl⟩ := h
          simp [MemOp.wellFormed, ha, MemOp.bytes, takeD32_eq_ok h', ← hc.1, ← hc.2, hmb]
        · cases h
      · rename_i hc; split at h
        · rename_i d r' h'; simp at h; obtain ⟨rfl, rfl⟩ := h
          obtain ⟨e1, e2⟩ := takeDisp_eq_ok hm h'
          simp [MemOp.wellFormed, ha, MemOp.bytes, e1, e2, wellFormed_regNum, regNum_setWidth, hmb, h4]
          by_contra hh; push Not at hh; apply hc; rw [← e2, Disp.mod_zero]; exact hh
        · cases h

/-- What format L decodes to is well-formed and encodes to the bytes it was read from. -/
theorem decodeLegacyTail_eq_ok {m e bs i r} (he : e.wellFormed m = true) (h : decodeLegacyTail m e bs = .ok (i, r)) :
    i.WellFormed m ∧ encode i ++ r = e.head ++ bs := by
  unfold decodeLegacyTail at h
  split at h
  · cases h
  · rename_i mb bs
    have hmb := modRM_eq mb
    split at h
    · rename_i h3
      split at h
      · cases h
      · simp at h; obtain ⟨rfl, rfl⟩ := h
        rw [h3] at hmb
        simp [Instr.WellFormed, Instr.wellFormed, he, wellFormed_regNum, encode, regNum_setWidth, hmb]
    · rename_i h3
      split at h
      · cases h
      · cases h
      · rename_i o imm r' ho
        simp at h; obtain ⟨rfl, rfl⟩ := h
        obtain ⟨w, e1⟩ := decodeMemOp_eq_ok h3 ho
        simp [Instr.WellFormed, Instr.wellFormed, he, wellFormed_regNum, encode, regNum_setWidth, w, e1]

/-- What format V decodes to is well-formed and encodes to the bytes it was read from. -/
theorem decodeVexTail_eq_ok {m e v l bs i r} (he : e.wellFormed m = true) (hv : vnumWellFormed m v = true) (h : decodeVexTail m e v l bs = .ok (i, r)) :
    i.WellFormed m ∧ encode i ++ r = e.head v l ++ bs := by
  unfold decodeVexTail at h
  split at h
  · cases h
  · rename_i mb bs
    have hmb := modRM_eq mb
    split at h
    · rename_i h3
      split at h
      · cases h
      · rw [h3] at hmb
        split at h <;> (simp at h; obtain ⟨rfl, rfl⟩ := h)
        all_goals simp_all [Instr.WellFormed, Instr.wellFormed, wellFormed_regNum, encode, regNum_setWidth]
    · rename_i h3
      split at h
      · cases h
      · cases h
      · rename_i o imm r' ho
        obtain ⟨w, e1⟩ := decodeMemOp_eq_ok h3 ho
        split at h <;> (simp at h; obtain ⟨rfl, rfl⟩ := h)
        all_goals simp_all [Instr.WellFormed, Instr.wellFormed, wellFormed_regNum, encode, regNum_setWidth]

theorem vexByte1_eq (b1 : Byte) (h : b1.extractLsb' 0 5 = 3#5) : BitVec.ofBool (!!b1.getLsbD 7) ++ BitVec.ofBool (!!b1.getLsbD 6) ++ BitVec.ofBool (!!b1.getLsbD 5) ++ 3#5 = b1 := by
  revert b1; decide

theorem vexByte2_eq (b1 : Byte) (h : b1.extractLsb' 0 2 = 1#2) : BitVec.ofBool (b1.getLsbD 7) ++ (~~~ (~~~ b1.extractLsb' 3 4)) ++ BitVec.ofBool (b1.getLsbD 2) ++ 1#2 = b1 := by
  revert b1; decide

theorem vvvv_msb (b : Byte) : (~~~ b.extractLsb' 3 4).msb = !b.getLsbD 6 := by revert b; decide

theorem vexByte1_outside64 (b : Byte) (h : b.extractLsb' 6 2 = 3#2) : b.getLsbD 7 = true ∧ b.getLsbD 6 = true := by revert b; decide

end Sys2Proof
end

