-- ==== Sys2Proof/Laws/State.lean ====
section
/-! SUPPORT. One lemma per field per update of the state: what `writeVr`, `complete`, `atFault`, `enabled` and `loadProgram`
leave in each field, so that no later proof unfolds a record update. -/

namespace Sys2Proof.Machine

open Sys2Proof

/-! ### Writing a vector register -/

@[simp] theorem State.writeVr_vr (s : State) (n : RegNum) (v : VReg) :
    (s.writeVr n v).vr = s.vr.set n.toNat ((v.setWidth (maxVlBits s.maxVl)).setWidth 512) n.isLt := rfl
@[simp] theorem State.writeVr_gpr (s : State) (n : RegNum) (v : VReg) :
    (s.writeVr n v).gpr = s.gpr := rfl
@[simp] theorem State.writeVr_es (s : State) (n : RegNum) (v : VReg) :
    (s.writeVr n v).es = s.es := rfl
@[simp] theorem State.writeVr_cs (s : State) (n : RegNum) (v : VReg) :
    (s.writeVr n v).cs = s.cs := rfl
@[simp] theorem State.writeVr_ss (s : State) (n : RegNum) (v : VReg) :
    (s.writeVr n v).ss = s.ss := rfl
@[simp] theorem State.writeVr_ds (s : State) (n : RegNum) (v : VReg) :
    (s.writeVr n v).ds = s.ds := rfl
@[simp] theorem State.writeVr_fs (s : State) (n : RegNum) (v : VReg) :
    (s.writeVr n v).fs = s.fs := rfl
@[simp] theorem State.writeVr_gs (s : State) (n : RegNum) (v : VReg) :
    (s.writeVr n v).gs = s.gs := rfl
@[simp] theorem State.writeVr_rip (s : State) (n : RegNum) (v : VReg) :
    (s.writeVr n v).rip = s.rip := rfl
@[simp] theorem State.writeVr_eflags (s : State) (n : RegNum) (v : VReg) :
    (s.writeVr n v).eflags = s.eflags := rfl
@[simp] theorem State.writeVr_mxcsr (s : State) (n : RegNum) (v : VReg) :
    (s.writeVr n v).mxcsr = s.mxcsr := rfl
@[simp] theorem State.writeVr_cr0 (s : State) (n : RegNum) (v : VReg) :
    (s.writeVr n v).cr0 = s.cr0 := rfl
@[simp] theorem State.writeVr_cr2 (s : State) (n : RegNum) (v : VReg) :
    (s.writeVr n v).cr2 = s.cr2 := rfl
@[simp] theorem State.writeVr_cr4 (s : State) (n : RegNum) (v : VReg) :
    (s.writeVr n v).cr4 = s.cr4 := rfl
@[simp] theorem State.writeVr_xcr0 (s : State) (n : RegNum) (v : VReg) :
    (s.writeVr n v).xcr0 = s.xcr0 := rfl
@[simp] theorem State.writeVr_cpl (s : State) (n : RegNum) (v : VReg) :
    (s.writeVr n v).cpl = s.cpl := rfl
@[simp] theorem State.writeVr_mode (s : State) (n : RegNum) (v : VReg) :
    (s.writeVr n v).mode = s.mode := rfl
@[simp] theorem State.writeVr_part (s : State) (n : RegNum) (v : VReg) :
    (s.writeVr n v).part = s.part := rfl
@[simp] theorem State.writeVr_maxVl (s : State) (n : RegNum) (v : VReg) :
    (s.writeVr n v).maxVl = s.maxVl := rfl
@[simp] theorem State.writeVr_vaBits (s : State) (n : RegNum) (v : VReg) :
    (s.writeVr n v).vaBits = s.vaBits := rfl
@[simp] theorem State.writeVr_hasSse41 (s : State) (n : RegNum) (v : VReg) :
    (s.writeVr n v).hasSse41 = s.hasSse41 := rfl
@[simp] theorem State.writeVr_hasAvx (s : State) (n : RegNum) (v : VReg) :
    (s.writeVr n v).hasAvx = s.hasAvx := rfl
@[simp] theorem State.writeVr_hasAvx2 (s : State) (n : RegNum) (v : VReg) :
    (s.writeVr n v).hasAvx2 = s.hasAvx2 := rfl
@[simp] theorem State.writeVr_translation (s : State) (n : RegNum) (v : VReg) :
    (s.writeVr n v).translation = s.translation := rfl
@[simp] theorem State.writeVr_devices (s : State) (n : RegNum) (v : VReg) :
    (s.writeVr n v).devices = s.devices := rfl
@[simp] theorem State.writeVr_mem (s : State) (n : RegNum) (v : VReg) :
    (s.writeVr n v).mem = s.mem := rfl
@[simp] theorem State.writeVr_progBase (s : State) (n : RegNum) (v : VReg) :
    (s.writeVr n v).progBase = s.progBase := rfl
@[simp] theorem State.writeVr_progLen (s : State) (n : RegNum) (v : VReg) :
    (s.writeVr n v).progLen = s.progLen := rfl

/-! ### Completing an instruction -/

@[simp] theorem State.complete_vr (s : State) (n : RegNum) (v : VReg) (len : Nat) :
    (s.complete n v len).vr = (s.writeVr n v).vr := rfl
@[simp] theorem State.complete_gpr (s : State) (n : RegNum) (v : VReg) (len : Nat) :
    (s.complete n v len).gpr = s.gpr := rfl
@[simp] theorem State.complete_es (s : State) (n : RegNum) (v : VReg) (len : Nat) :
    (s.complete n v len).es = s.es := rfl
@[simp] theorem State.complete_cs (s : State) (n : RegNum) (v : VReg) (len : Nat) :
    (s.complete n v len).cs = s.cs := rfl
@[simp] theorem State.complete_ss (s : State) (n : RegNum) (v : VReg) (len : Nat) :
    (s.complete n v len).ss = s.ss := rfl
@[simp] theorem State.complete_ds (s : State) (n : RegNum) (v : VReg) (len : Nat) :
    (s.complete n v len).ds = s.ds := rfl
@[simp] theorem State.complete_fs (s : State) (n : RegNum) (v : VReg) (len : Nat) :
    (s.complete n v len).fs = s.fs := rfl
@[simp] theorem State.complete_gs (s : State) (n : RegNum) (v : VReg) (len : Nat) :
    (s.complete n v len).gs = s.gs := rfl
@[simp] theorem State.complete_rip (s : State) (n : RegNum) (v : VReg) (len : Nat) :
    (s.complete n v len).rip = s.nextRip len := rfl
@[simp] theorem State.complete_eflags (s : State) (n : RegNum) (v : VReg) (len : Nat) :
    (s.complete n v len).eflags = s.eflags := rfl
@[simp] theorem State.complete_mxcsr (s : State) (n : RegNum) (v : VReg) (len : Nat) :
    (s.complete n v len).mxcsr = s.mxcsr := rfl
@[simp] theorem State.complete_cr0 (s : State) (n : RegNum) (v : VReg) (len : Nat) :
    (s.complete n v len).cr0 = s.cr0 := rfl
@[simp] theorem State.complete_cr2 (s : State) (n : RegNum) (v : VReg) (len : Nat) :
    (s.complete n v len).cr2 = s.cr2 := rfl
@[simp] theorem State.complete_cr4 (s : State) (n : RegNum) (v : VReg) (len : Nat) :
    (s.complete n v len).cr4 = s.cr4 := rfl
@[simp] theorem State.complete_xcr0 (s : State) (n : RegNum) (v : VReg) (len : Nat) :
    (s.complete n v len).xcr0 = s.xcr0 := rfl
@[simp] theorem State.complete_cpl (s : State) (n : RegNum) (v : VReg) (len : Nat) :
    (s.complete n v len).cpl = s.cpl := rfl
@[simp] theorem State.complete_mode (s : State) (n : RegNum) (v : VReg) (len : Nat) :
    (s.complete n v len).mode = s.mode := rfl
@[simp] theorem State.complete_part (s : State) (n : RegNum) (v : VReg) (len : Nat) :
    (s.complete n v len).part = s.part := rfl
@[simp] theorem State.complete_maxVl (s : State) (n : RegNum) (v : VReg) (len : Nat) :
    (s.complete n v len).maxVl = s.maxVl := rfl
@[simp] theorem State.complete_vaBits (s : State) (n : RegNum) (v : VReg) (len : Nat) :
    (s.complete n v len).vaBits = s.vaBits := rfl
@[simp] theorem State.complete_hasSse41 (s : State) (n : RegNum) (v : VReg) (len : Nat) :
    (s.complete n v len).hasSse41 = s.hasSse41 := rfl
@[simp] theorem State.complete_hasAvx (s : State) (n : RegNum) (v : VReg) (len : Nat) :
    (s.complete n v len).hasAvx = s.hasAvx := rfl
@[simp] theorem State.complete_hasAvx2 (s : State) (n : RegNum) (v : VReg) (len : Nat) :
    (s.complete n v len).hasAvx2 = s.hasAvx2 := rfl
@[simp] theorem State.complete_translation (s : State) (n : RegNum) (v : VReg) (len : Nat) :
    (s.complete n v len).translation = s.translation := rfl
@[simp] theorem State.complete_devices (s : State) (n : RegNum) (v : VReg) (len : Nat) :
    (s.complete n v len).devices = s.devices := rfl
@[simp] theorem State.complete_mem (s : State) (n : RegNum) (v : VReg) (len : Nat) :
    (s.complete n v len).mem = s.mem := rfl
@[simp] theorem State.complete_progBase (s : State) (n : RegNum) (v : VReg) (len : Nat) :
    (s.complete n v len).progBase = s.progBase := rfl
@[simp] theorem State.complete_progLen (s : State) (n : RegNum) (v : VReg) (len : Nat) :
    (s.complete n v len).progLen = s.progLen := rfl

/-! ### Enabling the instruction -/

@[simp] theorem State.enabled_vr (s : State) :
    (s.enabled).vr = s.vr := rfl
@[simp] theorem State.enabled_gpr (s : State) :
    (s.enabled).gpr = s.gpr := rfl
@[simp] theorem State.enabled_es (s : State) :
    (s.enabled).es = s.es := rfl
@[simp] theorem State.enabled_cs (s : State) :
    (s.enabled).cs = s.cs := rfl
@[simp] theorem State.enabled_ss (s : State) :
    (s.enabled).ss = s.ss := rfl
@[simp] theorem State.enabled_ds (s : State) :
    (s.enabled).ds = s.ds := rfl
@[simp] theorem State.enabled_fs (s : State) :
    (s.enabled).fs = s.fs := rfl
@[simp] theorem State.enabled_gs (s : State) :
    (s.enabled).gs = s.gs := rfl
@[simp] theorem State.enabled_rip (s : State) :
    (s.enabled).rip = s.rip := rfl
@[simp] theorem State.enabled_eflags (s : State) :
    (s.enabled).eflags = s.eflags := rfl
@[simp] theorem State.enabled_mxcsr (s : State) :
    (s.enabled).mxcsr = s.mxcsr := rfl
@[simp] theorem State.enabled_cr0 (s : State) :
    (s.enabled).cr0 = s.cr0 &&& ~~~ 0xC#64 := rfl
@[simp] theorem State.enabled_cr2 (s : State) :
    (s.enabled).cr2 = s.cr2 := rfl
@[simp] theorem State.enabled_cr4 (s : State) :
    (s.enabled).cr4 = s.cr4 ||| 0x40200#64 := rfl
@[simp] theorem State.enabled_xcr0 (s : State) :
    (s.enabled).xcr0 = s.xcr0 ||| 6#64 := rfl
@[simp] theorem State.enabled_cpl (s : State) :
    (s.enabled).cpl = s.cpl := rfl
@[simp] theorem State.enabled_mode (s : State) :
    (s.enabled).mode = .mode64 := rfl
@[simp] theorem State.enabled_part (s : State) :
    (s.enabled).part = s.part := rfl
@[simp] theorem State.enabled_maxVl (s : State) :
    (s.enabled).maxVl = s.maxVl := rfl
@[simp] theorem State.enabled_vaBits (s : State) :
    (s.enabled).vaBits = s.vaBits := rfl
@[simp] theorem State.enabled_hasSse41 (s : State) :
    (s.enabled).hasSse41 = s.hasSse41 := rfl
@[simp] theorem State.enabled_hasAvx (s : State) :
    (s.enabled).hasAvx = s.hasAvx := rfl
@[simp] theorem State.enabled_hasAvx2 (s : State) :
    (s.enabled).hasAvx2 = s.hasAvx2 := rfl
@[simp] theorem State.enabled_translation (s : State) :
    (s.enabled).translation = s.translation := rfl
@[simp] theorem State.enabled_devices (s : State) :
    (s.enabled).devices = s.devices := rfl
@[simp] theorem State.enabled_mem (s : State) :
    (s.enabled).mem = s.mem := rfl
@[simp] theorem State.enabled_progBase (s : State) :
    (s.enabled).progBase = s.progBase := rfl
@[simp] theorem State.enabled_progLen (s : State) :
    (s.enabled).progLen = s.progLen := rfl

/-! ### Loading a program -/

@[simp] theorem State.loadProgram_vr (s : State) (bs : List Byte) :
    (s.loadProgram bs).vr = s.vr := rfl
@[simp] theorem State.loadProgram_gpr (s : State) (bs : List Byte) :
    (s.loadProgram bs).gpr = s.gpr := rfl
@[simp] theorem State.loadProgram_es (s : State) (bs : List Byte) :
    (s.loadProgram bs).es = s.es := rfl
@[simp] theorem State.loadProgram_cs (s : State) (bs : List Byte) :
    (s.loadProgram bs).cs = s.cs := rfl
@[simp] theorem State.loadProgram_ss (s : State) (bs : List Byte) :
    (s.loadProgram bs).ss = s.ss := rfl
@[simp] theorem State.loadProgram_ds (s : State) (bs : List Byte) :
    (s.loadProgram bs).ds = s.ds := rfl
@[simp] theorem State.loadProgram_fs (s : State) (bs : List Byte) :
    (s.loadProgram bs).fs = s.fs := rfl
@[simp] theorem State.loadProgram_gs (s : State) (bs : List Byte) :
    (s.loadProgram bs).gs = s.gs := rfl
@[simp] theorem State.loadProgram_rip (s : State) (bs : List Byte) :
    (s.loadProgram bs).rip = s.rip := rfl
@[simp] theorem State.loadProgram_eflags (s : State) (bs : List Byte) :
    (s.loadProgram bs).eflags = s.eflags := rfl
@[simp] theorem State.loadProgram_mxcsr (s : State) (bs : List Byte) :
    (s.loadProgram bs).mxcsr = s.mxcsr := rfl
@[simp] theorem State.loadProgram_cr0 (s : State) (bs : List Byte) :
    (s.loadProgram bs).cr0 = s.cr0 := rfl
@[simp] theorem State.loadProgram_cr2 (s : State) (bs : List Byte) :
    (s.loadProgram bs).cr2 = s.cr2 := rfl
@[simp] theorem State.loadProgram_cr4 (s : State) (bs : List Byte) :
    (s.loadProgram bs).cr4 = s.cr4 := rfl
@[simp] theorem State.loadProgram_xcr0 (s : State) (bs : List Byte) :
    (s.loadProgram bs).xcr0 = s.xcr0 := rfl
@[simp] theorem State.loadProgram_cpl (s : State) (bs : List Byte) :
    (s.loadProgram bs).cpl = s.cpl := rfl
@[simp] theorem State.loadProgram_mode (s : State) (bs : List Byte) :
    (s.loadProgram bs).mode = s.mode := rfl
@[simp] theorem State.loadProgram_part (s : State) (bs : List Byte) :
    (s.loadProgram bs).part = s.part := rfl
@[simp] theorem State.loadProgram_maxVl (s : State) (bs : List Byte) :
    (s.loadProgram bs).maxVl = s.maxVl := rfl
@[simp] theorem State.loadProgram_vaBits (s : State) (bs : List Byte) :
    (s.loadProgram bs).vaBits = s.vaBits := rfl
@[simp] theorem State.loadProgram_hasSse41 (s : State) (bs : List Byte) :
    (s.loadProgram bs).hasSse41 = s.hasSse41 := rfl
@[simp] theorem State.loadProgram_hasAvx (s : State) (bs : List Byte) :
    (s.loadProgram bs).hasAvx = s.hasAvx := rfl
@[simp] theorem State.loadProgram_hasAvx2 (s : State) (bs : List Byte) :
    (s.loadProgram bs).hasAvx2 = s.hasAvx2 := rfl
@[simp] theorem State.loadProgram_translation (s : State) (bs : List Byte) :
    (s.loadProgram bs).translation = s.translation := rfl
@[simp] theorem State.loadProgram_devices (s : State) (bs : List Byte) :
    (s.loadProgram bs).devices = s.devices := rfl
@[simp] theorem State.loadProgram_mem (s : State) (bs : List Byte) :
    (s.loadProgram bs).mem = s.placeBytes bs 0 s.mem := rfl
@[simp] theorem State.loadProgram_progBase (s : State) (bs : List Byte) :
    (s.loadProgram bs).progBase = s.rip := rfl
@[simp] theorem State.loadProgram_progLen (s : State) (bs : List Byte) :
    (s.loadProgram bs).progLen = bs.length := rfl

/-! ### The state a fault leaves -/

@[simp] theorem State.atFault_vr (s : State) (x : Fault) :
    (s.atFault x).vr = s.vr := by cases x <;> rfl
@[simp] theorem State.atFault_gpr (s : State) (x : Fault) :
    (s.atFault x).gpr = s.gpr := by cases x <;> rfl
@[simp] theorem State.atFault_es (s : State) (x : Fault) :
    (s.atFault x).es = s.es := by cases x <;> rfl
@[simp] theorem State.atFault_cs (s : State) (x : Fault) :
    (s.atFault x).cs = s.cs := by cases x <;> rfl
@[simp] theorem State.atFault_ss (s : State) (x : Fault) :
    (s.atFault x).ss = s.ss := by cases x <;> rfl
@[simp] theorem State.atFault_ds (s : State) (x : Fault) :
    (s.atFault x).ds = s.ds := by cases x <;> rfl
@[simp] theorem State.atFault_fs (s : State) (x : Fault) :
    (s.atFault x).fs = s.fs := by cases x <;> rfl
@[simp] theorem State.atFault_gs (s : State) (x : Fault) :
    (s.atFault x).gs = s.gs := by cases x <;> rfl
@[simp] theorem State.atFault_rip (s : State) (x : Fault) :
    (s.atFault x).rip = s.rip := by cases x <;> rfl
@[simp] theorem State.atFault_eflags (s : State) (x : Fault) :
    (s.atFault x).eflags = s.eflags := by cases x <;> rfl
@[simp] theorem State.atFault_mxcsr (s : State) (x : Fault) :
    (s.atFault x).mxcsr = s.mxcsr := by cases x <;> rfl
@[simp] theorem State.atFault_cr0 (s : State) (x : Fault) :
    (s.atFault x).cr0 = s.cr0 := by cases x <;> rfl
@[simp] theorem State.atFault_cr2 (s : State) (f : Fault) :
    (s.atFault f).cr2 = (f.cr2Value).getD s.cr2 := by cases f <;> rfl
@[simp] theorem State.atFault_cr4 (s : State) (x : Fault) :
    (s.atFault x).cr4 = s.cr4 := by cases x <;> rfl
@[simp] theorem State.atFault_xcr0 (s : State) (x : Fault) :
    (s.atFault x).xcr0 = s.xcr0 := by cases x <;> rfl
@[simp] theorem State.atFault_cpl (s : State) (x : Fault) :
    (s.atFault x).cpl = s.cpl := by cases x <;> rfl
@[simp] theorem State.atFault_mode (s : State) (x : Fault) :
    (s.atFault x).mode = s.mode := by cases x <;> rfl
@[simp] theorem State.atFault_part (s : State) (x : Fault) :
    (s.atFault x).part = s.part := by cases x <;> rfl
@[simp] theorem State.atFault_maxVl (s : State) (x : Fault) :
    (s.atFault x).maxVl = s.maxVl := by cases x <;> rfl
@[simp] theorem State.atFault_vaBits (s : State) (x : Fault) :
    (s.atFault x).vaBits = s.vaBits := by cases x <;> rfl
@[simp] theorem State.atFault_hasSse41 (s : State) (x : Fault) :
    (s.atFault x).hasSse41 = s.hasSse41 := by cases x <;> rfl
@[simp] theorem State.atFault_hasAvx (s : State) (x : Fault) :
    (s.atFault x).hasAvx = s.hasAvx := by cases x <;> rfl
@[simp] theorem State.atFault_hasAvx2 (s : State) (x : Fault) :
    (s.atFault x).hasAvx2 = s.hasAvx2 := by cases x <;> rfl
@[simp] theorem State.atFault_translation (s : State) (x : Fault) :
    (s.atFault x).translation = s.translation := by cases x <;> rfl
@[simp] theorem State.atFault_devices (s : State) (x : Fault) :
    (s.atFault x).devices = s.devices := by cases x <;> rfl
@[simp] theorem State.atFault_mem (s : State) (x : Fault) :
    (s.atFault x).mem = s.mem := by cases x <;> rfl
@[simp] theorem State.atFault_progBase (s : State) (x : Fault) :
    (s.atFault x).progBase = s.progBase := by cases x <;> rfl
@[simp] theorem State.atFault_progLen (s : State) (x : Fault) :
    (s.atFault x).progLen = s.progLen := by cases x <;> rfl

/-! ### Reading a vector register after a write -/

@[simp] theorem State.readVr_writeVr_same (s : State) (n : RegNum) (v : VReg) :
    (s.writeVr n v).readVr n = (v.setWidth (maxVlBits s.maxVl)).setWidth 512 := by
  simp [State.readVr, State.writeVr]

theorem State.readVr_writeVr_other (s : State) {n m : RegNum} (v : VReg) (h : m ≠ n) :
    (s.writeVr n v).readVr m = s.readVr m := by
  have hne : n.toNat ≠ m.toNat := fun e => h (BitVec.eq_of_toNat_eq e.symm)
  simp [State.readVr, State.writeVr, hne]

@[simp] theorem State.readVr_complete (s : State) (n m : RegNum) (v : VReg) (len : Nat) :
    (s.complete n v len).readVr m = (s.writeVr n v).readVr m := rfl

/-- A full-width register value survives the write bit by bit below `MAXVL`, and nothing stands above. -/
theorem getLsbD_readVr_writeVr_same (s : State) (n : RegNum) (v : VReg) (b : Nat) :
    ((s.writeVr n v).readVr n).getLsbD b =
      (decide (b < 512) && decide (b < maxVlBits s.maxVl) && v.getLsbD b) := by
  simp [BitVec.getLsbD_setWidth, Bool.and_assoc]

theorem maxVlBits_le (m : MaxVl) : maxVlBits m ≤ 512 := by cases m <;> decide

theorem maxVlBits_ge (m : MaxVl) : 128 ≤ maxVlBits m := by cases m <;> decide

/-! ### The combinations of `MAXVL` and feature flags that a part can have (R6) -/

theorem State.hasAvx_of_hasAvx2 {s : State} (h : s.hasAvx2 = true) : s.hasAvx = true := by
  unfold State.hasAvx2 at h; unfold State.hasAvx; split at h <;> simp_all

theorem State.hasSse41_of_hasAvx {s : State} (h : s.hasAvx = true) : s.hasSse41 = true := by
  unfold State.hasAvx at h; unfold State.hasSse41; split at h <;> simp_all

/-- A part that admits a VEX form has `MAXVL ≥ 256`. -/
theorem State.maxVl_of_hasAvx {s : State} (h : s.hasAvx = true) : 256 ≤ maxVlBits s.maxVl := by
  unfold State.hasAvx at h; unfold State.maxVl
  split at h
  · cases h
  · rename_i f m hp; rw [hp]; cases m <;> simp [maxVlBits]

/-- A completed instruction is the state before it but for two fields. -/
theorem State.complete_eq (s : State) (n : RegNum) (v : VReg) (len : Nat) :
    s.complete n v len = { s with vr := (s.complete n v len).vr, rip := (s.complete n v len).rip } := rfl

end Sys2Proof.Machine
end

