-- ==== Sys2Proof/Laws/Memory.lean ====
section
/-! SUPPORT. Memory: read after write, and that every operation keeps the canonical form. -/

namespace Sys2Proof.Machine

open Sys2Proof

theorem Memory.read_nil (a : Nat) : Memory.read [] a = Memory.unlisted := rfl

/-- In canonical form an address below every listed one is unlisted. -/
theorem Memory.read_of_lt {m : Memory} {a : Nat} (h : ∀ c ∈ m, a < c.1) : m.read a = Memory.unlisted := by
  induction m with
  | nil => rfl
  | cons c m ih =>
    obtain ⟨k, v⟩ := c
    have hk : a < k := h (k, v) (by simp)
    simp only [Memory.read]
    rw [if_neg (by omega)]
    exact ih fun c hc => h c (by simp [hc])

theorem Memory.read_write_same {m : Memory} (hm : m.wf) (a : Nat) (v : Byte) : (m.write a v).read a = v := by
  induction m with
  | nil =>
    by_cases hv : v = Memory.unlisted <;> simp [Memory.write, Memory.read, hv]
  | cons c m ih =>
    obtain ⟨k, w⟩ := c
    obtain ⟨hp, hn⟩ := hm
    rw [List.pairwise_cons] at hp
    have hm' : Memory.wf m := ⟨hp.2, fun c hc => hn c (by simp [hc])⟩
    simp only [Memory.write]
    by_cases h1 : a < k
    · by_cases hv : v = Memory.unlisted
      · simp only [if_pos h1, hv]
        refine Memory.read_of_lt fun c hc => ?_
        rcases List.mem_cons.mp hc with rfl | hc
        · exact h1
        · exact lt_trans h1 (hp.1 c hc)
      · simp [if_pos h1, if_neg hv, Memory.read]
    · by_cases h2 : a = k
      · by_cases hv : v = Memory.unlisted
        · simp only [if_neg h1, if_pos h2, hv]
          exact Memory.read_of_lt fun c hc => h2 ▸ hp.1 c hc
        · simp [h2, if_neg hv, Memory.read]
      · simp only [if_neg h1, if_neg h2, Memory.read, if_neg (Ne.symm h2)]
        exact ih hm'

theorem Memory.read_write_other {m : Memory} {a b : Nat} (v : Byte) (h : b ≠ a) :
    (m.write a v).read b = m.read b := by
  induction m with
  | nil => by_cases hv : v = Memory.unlisted <;> simp [Memory.write, Memory.read, hv, Ne.symm h]
  | cons c m ih =>
    obtain ⟨k, w⟩ := c
    simp only [Memory.write]
    by_cases h1 : a < k
    · by_cases hv : v = Memory.unlisted <;> simp [h1, hv, Memory.read, Ne.symm h]
    · by_cases h2 : a = k
      · subst h2
        by_cases hv : v = Memory.unlisted <;> simp [hv, Memory.read, Ne.symm h]
      · simp [h1, h2, Memory.read, ih]

theorem Memory.mem_write {m : Memory} {a : Nat} {v : Byte} {c : Host.Cell} (h : c ∈ m.write a v) :
    c ∈ m ∨ (c = (a, v) ∧ v ≠ Memory.unlisted) := by
  induction m with
  | nil =>
    by_cases hv : v = Memory.unlisted
    · simp [Memory.write, hv] at h
    · simp only [Memory.write, if_neg hv, List.mem_singleton] at h
      exact .inr ⟨h, hv⟩
  | cons d m ih =>
    obtain ⟨k, w⟩ := d
    simp only [Memory.write] at h
    split at h
    · split at h
      · exact .inl h
      · rcases List.mem_cons.mp h with rfl | h
        · exact .inr ⟨rfl, ‹_›⟩
        · exact .inl h
    · split at h
      · split at h
        · exact .inl (by simp [h])
        · rcases List.mem_cons.mp h with rfl | h
          · exact .inr ⟨rfl, ‹_›⟩
          · exact .inl (by simp [h])
      · rcases List.mem_cons.mp h with rfl | h
        · exact .inl (by simp)
        · rcases ih h with h | h
          · exact .inl (by simp [h])
          · exact .inr h

/-- A write keeps the canonical form. -/
theorem Memory.write_wf {m : Memory} (hm : m.wf) (a : Nat) (v : Byte) : (m.write a v).wf := by
  refine ⟨?_, fun c hc => ?_⟩
  · induction m with
    | nil => by_cases hv : v = Memory.unlisted <;> simp [Memory.write, hv]
    | cons d m ih =>
      obtain ⟨k, w⟩ := d
      obtain ⟨hp, hn⟩ := hm
      have hp' := hp
      rw [List.pairwise_cons] at hp'
      have hm' : Memory.wf m := ⟨hp'.2, fun c hc => hn c (by simp [hc])⟩
      simp only [Memory.write]
      split
      · split
        · exact hp
        · rename_i h1 _
          refine List.pairwise_cons.mpr ⟨fun c hc => ?_, hp⟩
          rcases List.mem_cons.mp hc with rfl | hc
          · exact h1
          · exact lt_trans h1 (hp'.1 c hc)
      · split
        · rename_i h2
          split
          · exact hp'.2
          · exact List.pairwise_cons.mpr ⟨fun c hc => h2 ▸ hp'.1 c hc, hp'.2⟩
        · refine List.pairwise_cons.mpr ⟨fun c hc => ?_, ih hm'⟩
          rcases Memory.mem_write hc with hc | ⟨rfl, -⟩
          · exact hp'.1 c hc
          · show k < a
            omega
  · rcases Memory.mem_write hc with hc | ⟨rfl, hv⟩
    · exact hm.2 c hc
    · exact hv

/-- The reset state's memory is in canonical form. -/
theorem Memory.reset_wf : State.reset.mem.wf := by decide

/-- Loading a program keeps the canonical form. -/
theorem State.placeBytes_wf (s : State) (bs : List Byte) (j : Nat) {m : Memory} (hm : m.wf) :
    (s.placeBytes bs j m).wf := by
  induction bs generalizing j m with
  | nil => exact hm
  | cons b bs ih => exact ih (j + 1) (Memory.write_wf hm _ _)

theorem State.loadProgram_wf {s : State} (hm : s.mem.wf) (bs : List Byte) : (s.loadProgram bs).mem.wf :=
  s.placeBytes_wf bs 0 hm

/-- `LE` of a list of `n` bytes is below 2 to the power `8n`. -/
theorem leNat_lt (bs : List Byte) : leNat bs < 2 ^ (8 * bs.length) := by
  induction bs with
  | nil => simp [leNat]
  | cons b bs ih =>
    have := b.isLt
    simp only [leNat, List.length_cons, Nat.mul_add, Nat.pow_add, Nat.mul_one]
    omega

/-- Byte `j` of `LE` is byte `j` of the list (R33). -/
theorem leNat_byte (bs : List Byte) (j : Nat) : leNat bs / 2 ^ (8 * j) % 256 = (bs[j]?.getD 0#8).toNat := by
  induction bs generalizing j with
  | nil => simp [leNat]
  | cons b bs ih =>
    have hb := b.isLt
    cases j with
    | zero =>
      simp only [leNat, Nat.mul_zero, Nat.pow_zero, Nat.div_one, List.getElem?_cons_zero, Option.getD_some]
      omega
    | succ j =>
      rw [show 8 * (j + 1) = 8 + 8 * j by ring, Nat.pow_add, ← Nat.div_div_eq_div_mul]
      have : leNat (b :: bs) / 2 ^ 8 = leNat bs := by simp only [leNat]; omega
      rw [this, ih]
      simp

end Sys2Proof.Machine
end

