-- ==== Sys2Proof/Laws/Ops.lean ====
section
/-! SUPPORT. One lemma per shared operation that says once everything it can do. -/

namespace Sys2Proof.Machine

open Sys2Proof

/-! ### Sequencing -/

theorem andThen_eq_next {α β : Type} {o : Host.Outcome α Fault Refusal} {k : α → Host.Outcome β Fault Refusal} {b : β} :
    andThen o k = .next b ↔ ∃ a, o = .next a ∧ k a = .next b := by
  cases o <;> simp [andThen]

theorem andThen_eq_fault {α β : Type} {o : Host.Outcome α Fault Refusal} {k : α → Host.Outcome β Fault Refusal}
    {f : Fault} : andThen o k = .fault f ↔ o = .fault f ∨ ∃ a, o = .next a ∧ k a = .fault f := by
  cases o <;> simp [andThen]

theorem andThen_eq_refused {α β : Type} {o : Host.Outcome α Fault Refusal} {k : α → Host.Outcome β Fault Refusal}
    {r : Refusal} : andThen o k = .refused r ↔ o = .refused r ∨ ∃ a, o = .next a ∧ k a = .refused r := by
  cases o <;> simp [andThen]

/-! ### The checks before the operand (R108) -/

theorem State.preCheck_eq_none {s : State} {len : Nat} {ud : Bool} :
    s.preCheck len ud = none ↔ len ≤ 15 ∧ ud = false ∧ s.ts = false := by
  unfold State.preCheck
  split
  · rename_i h; simp only [reduceCtorEq, false_iff]; omega
  · rename_i h
    have h' : len ≤ 15 := by omega
    cases ud <;> cases s.ts <;> simp [h']

theorem State.preCheck_eq_some {s : State} {len : Nat} {ud : Bool} {f : Fault} :
    s.preCheck len ud = some f ↔
      (15 < len ∧ f = .generalProtection) ∨ (len ≤ 15 ∧ ud = true ∧ f = .invalidOpcode) ∨
        (len ≤ 15 ∧ ud = false ∧ s.ts = true ∧ f = .deviceNotAvailable) := by
  unfold State.preCheck
  split
  · rename_i h
    have : ¬ len ≤ 15 := by omega
    cases f <;> simp [h, this]
  · rename_i h
    have h' : len ≤ 15 := by omega
    cases ud <;> cases s.ts <;> cases f <;> simp [h', h]

/-! ### Segment checks (R36) -/

/-- A segment check that fails, fails with `#SS(0)` or `#GP(0)`, and with `#SS(0)` only through SS. -/
theorem State.segCheck_eq_some {s : State} {g : SegReg} {ea : Addr} {n : Nat} {f : Fault}
    (h : s.segCheck g ea n = some f) : f = .generalProtection ∨ (f = .stackSegment ∧ g = .ss) := by
  have hs : segFault g = .generalProtection ∨ (segFault g = .stackSegment ∧ g = .ss) := by
    unfold segFault; split <;> simp_all
  unfold State.segCheck State.segLimitCheck at h
  split at h <;> split at h <;> simp at h <;> subst h <;> first | exact hs | exact .inl rfl

/-! ### Translation (R37) -/

/-- Where an address translates, and to what. -/
theorem State.translate_eq_ok {s : State} {a : Addr} {p : Nat} :
    s.translate a = .ok p ↔
      ((s.translation = .off ∨ s.mode = .real) ∧ p = a.toNat) ∨
        ∃ regions r, s.translation = .paged regions ∧ s.mode ≠ .real ∧ regions.find? (fun r => r.holds a) = some r ∧
          r.denial s.cpl = none ∧ p = r.place a := by
  unfold State.translate
  cases ht : s.translation with
  | off => simp [eq_comm]
  | paged regions =>
    by_cases hm : s.mode = .real
    · simp [hm, eq_comm]
    · cases hf : regions.find? (fun r => r.holds a) with
      | none => simp [hm, hf]
      | some r => cases hd : r.denial s.cpl <;> simp [hm, hf, Region.read, hd, eq_comm]

/-- Where an address faults, and with what code (R116). -/
theorem State.translate_eq_error {s : State} {a : Addr} {c : BitVec 32} :
    s.translate a = .error c ↔
      ∃ regions, s.translation = .paged regions ∧ s.mode ≠ .real ∧
        ((regions.find? (fun r => r.holds a) = none ∧ c = Denial.notPresent.code s.cpl) ∨
          ∃ r d, regions.find? (fun r => r.holds a) = some r ∧ r.denial s.cpl = some d ∧ c = d.code s.cpl) := by
  unfold State.translate
  cases ht : s.translation with
  | off => simp
  | paged regions =>
    by_cases hm : s.mode = .real
    · simp [hm]
    · cases hf : regions.find? (fun r => r.holds a) with
      | none => simp [hm, hf, eq_comm]
      | some r => cases hd : r.denial s.cpl <;> simp [hm, hf, Region.read, hd, eq_comm]

/-- The bits of a page-fault code, one by one (R116). -/
theorem pfCode_bits (p : Bool) (cpl : BitVec 2) (r k : Bool) :
    (pfCode p cpl r k).getLsbD 0 = p ∧ (pfCode p cpl r k).getLsbD 1 = false ∧
      (pfCode p cpl r k).getLsbD 2 = decide (cpl = 3#2) ∧ (pfCode p cpl r k).getLsbD 3 = r ∧
      (pfCode p cpl r k).getLsbD 4 = false ∧ (pfCode p cpl r k).getLsbD 5 = k ∧
      ∀ b, 6 ≤ b → (pfCode p cpl r k).getLsbD b = false := by
  have low : (pfCode p cpl r k).toNat < 64 := by
    revert cpl; cases p <;> cases r <;> cases k <;> decide
  refine ⟨?_, ?_, ?_, ?_, ?_, ?_, fun b hb =>
    Nat.testBit_lt_two_pow (lt_of_lt_of_le low (Nat.pow_le_pow_right (n := 2) (by decide) hb))⟩
  all_goals clear low; revert cpl; cases p <;> cases r <;> cases k <;> decide

/-- Every address translates: the places, one for each address in order. -/
theorem State.translateAll_eq_ok {s : State} {as : List Addr} {ps : List Nat} :
    s.translateAll as = .ok ps ↔ List.Forall₂ (fun a p => s.translate a = .ok p) as ps := by
  induction as generalizing ps with
  | nil => cases ps <;> simp [State.translateAll]
  | cons a as ih =>
    simp only [State.translateAll]
    split
    · rename_i c hc
      cases ps <;> simp [hc]
    · rename_i p hp
      split
      · rename_i x hx
        have : ∀ qs, ¬ List.Forall₂ (fun a p => s.translate a = .ok p) as qs := fun qs hq => by
          rw [ih.mpr hq] at hx; cases hx
        cases ps <;> simp [this]
      · rename_i qs hqs
        cases ps with
        | nil => simp
        | cons q ps => simp [hp, ← ih, hqs]

/-- The first address that faults, and that every address before it translates. -/
theorem State.translateAll_eq_error {s : State} {as : List Addr} {bad : Addr} {c : BitVec 32}
    (h : s.translateAll as = .error (bad, c)) :
    ∃ pre post, as = pre ++ bad :: post ∧ (∀ a ∈ pre, ∃ p, s.translate a = .ok p) ∧ s.translate bad = .error c := by
  induction as with
  | nil => simp [State.translateAll] at h
  | cons a as ih =>
    simp only [State.translateAll] at h
    split at h
    · rename_i c' hc
      simp only [Except.error.injEq, Prod.mk.injEq] at h
      obtain ⟨rfl, rfl⟩ := h
      exact ⟨[], as, rfl, by simp, hc⟩
    · rename_i p hp
      split at h
      · rename_i x hx
        simp only [Except.error.injEq] at h
        subst h
        obtain ⟨pre, post, rfl, hpre, hbad⟩ := ih hx
        exact ⟨a :: pre, post, rfl, by simpa [hp] using hpre, hbad⟩
      · cases h

/-! ### The operand read (R31, R108) -/

/-- What it takes to read an operand, and what is then read. -/
theorem State.readOperand_eq_next {s : State} {al : Bool} {g : SegReg} {ea : Addr} {n : Nat} {bs : List Byte} :
    s.readOperand al g ea n = .next bs ↔
      s.segCheck g ea n = none ∧ (al = true → (s.linear g ea).toNat % 16 = 0) ∧
        ∃ ps, s.translateAll (s.byteAddrs (s.linear g ea) n) = .ok ps ∧ (∀ p ∈ ps, s.isDevice p = false) ∧
          bs = ps.map s.mem.read := by
  unfold State.readOperand
  cases hseg : s.segCheck g ea n with
  | some f => simp [raise]
  | none =>
    by_cases hal : al = true ∧ (s.linear g ea).toNat % 16 ≠ 0
    · simp [hal.1, hal.2, raise]
    · have : (al && decide ((s.linear g ea).toNat % 16 ≠ 0)) = false := by
        cases al <;> simp_all
      simp only [this, Bool.false_eq_true, if_false, true_and]
      have hal' : al = true → (s.linear g ea).toNat % 16 = 0 := by
        intro h; by_contra h'; exact hal ⟨h, h'⟩
      unfold State.readLinear
      cases ht : s.translateAll (s.byteAddrs (s.linear g ea) n) with
      | error x => simp [raise]
      | ok ps =>
        by_cases hd : ps.any s.isDevice = true
        · have : ¬ ∀ p ∈ ps, s.isDevice p = false := by
            simp only [List.any_eq_true] at hd
            obtain ⟨p, hp, hpd⟩ := hd
            intro h; simp [h p hp] at hpd
          have hr : s.readPhys ps = .refused .deviceMemory := by
            unfold State.readPhys; rw [if_pos hd]
          simp only [hr, Except.ok.injEq, reduceCtorEq, false_iff]
          rintro ⟨-, qs, rfl, h', -⟩; exact this h'
        · have h' : ∀ p ∈ ps, s.isDevice p = false := by
            intro p hp
            by_contra hc
            exact hd (List.any_eq_true.mpr ⟨p, hp, by simpa using hc⟩)
          have hr : s.readPhys ps = .next (ps.map s.mem.read) := by
            unfold State.readPhys; rw [if_neg hd]
          simp only [hr, Host.Outcome.next.injEq, Except.ok.injEq]
          constructor
          · rintro rfl; exact ⟨hal', ps, rfl, h', rfl⟩
          · rintro ⟨-, qs, rfl, -, rfl⟩; rfl

/-- The faults of an operand read, in their order. -/
theorem State.readOperand_eq_fault {s : State} {al : Bool} {g : SegReg} {ea : Addr} {n : Nat} {f : Fault}
    (h : s.readOperand al g ea n = .fault f) :
    s.segCheck g ea n = some f ∨
      (s.segCheck g ea n = none ∧ al = true ∧ (s.linear g ea).toNat % 16 ≠ 0 ∧ f = .generalProtection) ∨
      (s.segCheck g ea n = none ∧ (al = true → (s.linear g ea).toNat % 16 = 0) ∧
        ∃ bad c, s.translateAll (s.byteAddrs (s.linear g ea) n) = .error (bad, c) ∧
          f = .pageFault c (s.pfAddr (s.linear g ea) n bad)) := by
  unfold State.readOperand at h
  cases hseg : s.segCheck g ea n with
  | some f' => simp only [hseg, raise, Host.Outcome.fault.injEq] at h; exact .inl (by rw [h])
  | none =>
    simp only [hseg] at h
    split at h
    · rename_i hal
      simp only [Bool.and_eq_true, decide_eq_true_eq] at hal
      simp only [raise, Host.Outcome.fault.injEq] at h
      exact .inr (.inl ⟨rfl, hal.1, hal.2, h.symm⟩)
    · rename_i hal
      have hal' : al = true → (s.linear g ea).toNat % 16 = 0 := by
        intro h1; by_contra h2; exact hal (by simp [h1, h2])
      unfold State.readLinear at h
      cases ht : s.translateAll (s.byteAddrs (s.linear g ea) n) with
      | error x =>
        obtain ⟨bad, c⟩ := x
        simp only [ht, raise, Host.Outcome.fault.injEq] at h
        exact .inr (.inr ⟨rfl, hal', bad, c, rfl, h.symm⟩)
      | ok ps =>
        simp only [ht, State.readPhys] at h
        split at h <;> cases h

/-- The one refusal of an operand read. -/
theorem State.readOperand_eq_refused {s : State} {al : Bool} {g : SegReg} {ea : Addr} {n : Nat} {r : Refusal}
    (h : s.readOperand al g ea n = .refused r) :
    r = .deviceMemory ∧ ∃ ps, s.translateAll (s.byteAddrs (s.linear g ea) n) = .ok ps ∧
      ps.any s.isDevice = true := by
  unfold State.readOperand at h
  split at h
  · cases h
  · split at h
    · cases h
    · unfold State.readLinear at h
      split at h
      · rename_i ps hps
        unfold State.readPhys at h
        split at h
        · rename_i hd
          simp only [Host.Outcome.refused.injEq] at h
          exact ⟨h.symm, ps, hps, hd⟩
        · cases h
      · cases h

@[simp] theorem State.byteAddrs_length (s : State) (la : Addr) (n : Nat) : (s.byteAddrs la n).length = n := by
  simp [State.byteAddrs]

end Sys2Proof.Machine
end

