-- ==== Sys2Proof/Laws/Exec.lean ====
section
/-! SUPPORT. The six meanings as one shape, and what an execution and a step can answer. -/

namespace Sys2Proof.Machine

open Sys2Proof

/-- The `#UD` test that an instruction's meaning makes. -/
def udOf (s : State) : Instr → Bool
  | .mpsadbwReg e _ _ _ => s.legacyUd e
  | .mpsadbwMem e _ _ _ => s.legacyUd e
  | .vmpsadbw128Reg e _ _ _ _ => s.vexUd s.hasAvx e
  | .vmpsadbw128Mem e _ _ _ _ => s.vexUd s.hasAvx e
  | .vmpsadbw256Reg e _ _ _ _ => s.vexUd s.hasAvx2 e
  | .vmpsadbw256Mem e _ _ _ _ => s.vexUd s.hasAvx2 e

/-- What an instruction writes to its destination, given the bytes of its memory operand. -/
def resultOf (s : State) (m : List Byte) : Instr → VReg
  | .mpsadbwReg _ d r i => keepUpper (s.readVr d) (sad128 (s.xmm d) (s.xmm r) i)
  | .mpsadbwMem _ d _ i => keepUpper (s.readVr d) (sad128 (s.xmm d) (BitVec.ofNat 128 (leNat m)) i)
  | .vmpsadbw128Reg _ _ v r i => (sad128 (s.xmm v) (s.xmm r) i).setWidth 512
  | .vmpsadbw128Mem _ _ v _ i => (sad128 (s.xmm v) (BitVec.ofNat 128 (leNat m)) i).setWidth 512
  | .vmpsadbw256Reg _ _ v r i => (sad256 (s.ymm v) (s.ymm r) i).setWidth 512
  | .vmpsadbw256Mem _ _ v _ i => (sad256 (s.ymm v) (BitVec.ofNat 256 (leNat m)) i).setWidth 512

/-- The bytes of an instruction's memory operand; none for a register form. -/
def operandOf (s : State) (i : Instr) : Host.Outcome (List Byte) Fault Refusal :=
  match i.memOp with
  | none => .next []
  | some o =>
    s.readOperand i.isLegacy (operandSeg s.mode i.prefixes o) (s.operandAddr i.prefixes i.len o) i.operandBytes

/-- Every meaning has the stages of R86. -/
theorem exec_eq (i : Instr) (s : State) :
    exec i s =
      match s.preCheck i.len (udOf s i) with
      | some f => .fault f
      | none => andThen (operandOf s i) fun m => .next (s.complete i.dst (resultOf s m i) i.len) := by
  cases i <;> rfl

/-- The `#UD` test is true exactly when a cause of R101 applies. -/
theorem udOf_iff (s : State) (i : Instr) : udOf s i = true ↔ s.UdCause i := by
  have hl (e : LegacyEnc) : s.legacyUd e = true ↔ s.LegacyUdCause e := by
    simp only [State.legacyUd, State.LegacyUdCause, hasLock, State.em, State.osfxsr, Bool.or_eq_true,
      Bool.not_eq_true', List.contains_iff_mem]
    tauto
  have hv (flag : Bool) (e : VexEnc) : s.vexUd flag e = true ↔ s.VexUdCause flag e := by
    have hp : e.prefixes.all Prefix.allowedBeforeVex = false ↔
        Prefix.lock ∈ e.prefixes ∨ ∃ p ∈ e.prefixes, p = .opSize ∨ p = .repne ∨ p = .rep ∨ ∃ r, p = .rex r := by
      rw [List.all_eq_false]
      constructor
      · rintro ⟨p, hp, hb⟩
        cases p with
        | lock => exact .inl hp
        | opSize => exact .inr ⟨_, hp, .inl rfl⟩
        | repne => exact .inr ⟨_, hp, .inr (.inl rfl)⟩
        | rep => exact .inr ⟨_, hp, .inr (.inr (.inl rfl))⟩
        | rex r => exact .inr ⟨_, hp, .inr (.inr (.inr ⟨r, rfl⟩))⟩
        | addrSize => simp [Prefix.allowedBeforeVex] at hb
        | seg g => simp [Prefix.allowedBeforeVex] at hb
      · rintro (h | ⟨p, hp, rfl | rfl | rfl | ⟨r, rfl⟩⟩)
        · exact ⟨_, h, by simp [Prefix.allowedBeforeVex]⟩
        all_goals exact ⟨_, hp, by simp [Prefix.allowedBeforeVex]⟩
    have hm : s.mode.takesVex = false ↔ s.mode = .real ∨ s.mode = .v8086 := by
      cases s.mode <;> simp [Mode.takesVex]
    have hx : s.avxState = false ↔ ¬ (s.xcr0.getLsbD 2 = true ∧ s.xcr0.getLsbD 1 = true) := by
      simp [State.avxState]
    have order (a b c d x y z : Prop) :
        ((((a ∨ b) ∨ c) ∨ d) ∨ x) ∨ (y ∨ z) ↔ a ∨ b ∨ d ∨ x ∨ y ∨ z ∨ c := by grind
    simp only [State.vexUd, State.VexUdCause, State.osxsave, Bool.or_eq_true, Bool.not_eq_true', hp, hm, hx]
    exact order _ _ _ _ _ _ _
  cases i <;> first | exact hl _ | exact hv _ _

theorem legacyReady_iff (s : State) (e : LegacyEnc) (len : Nat) :
    s.LegacyReady e len ↔ len ≤ 15 ∧ ¬ s.LegacyUdCause e ∧ s.cr0.getLsbD 3 = false := by
  simp only [State.LegacyReady, State.LegacyUdCause, not_or, Bool.not_eq_true, Bool.not_eq_false]
  tauto

theorem vexReady_iff (s : State) (flag : Bool) (e : VexEnc) (len : Nat) :
    s.VexReady flag e len ↔ len ≤ 15 ∧ ¬ s.VexUdCause flag e ∧ s.cr0.getLsbD 3 = false := by
  have hp : (∀ p ∈ e.prefixes, p = .addrSize ∨ ∃ g, p = .seg g) ↔
      Prefix.lock ∉ e.prefixes ∧ ¬ ∃ p ∈ e.prefixes, p = .opSize ∨ p = .repne ∨ p = .rep ∨ ∃ r, p = .rex r := by
    constructor
    · intro h
      refine ⟨fun hl => ?_, ?_⟩
      · simpa using h _ hl
      · rintro ⟨p, hp, rfl | rfl | rfl | ⟨r, rfl⟩⟩ <;> simpa using h _ hp
    · rintro ⟨h1, h2⟩ p hp
      cases p with
      | addrSize => exact .inl rfl
      | seg g => exact .inr ⟨g, rfl⟩
      | lock => exact absurd hp h1
      | opSize => exact absurd ⟨_, hp, .inl rfl⟩ h2
      | repne => exact absurd ⟨_, hp, .inr (.inl rfl)⟩ h2
      | rep => exact absurd ⟨_, hp, .inr (.inr (.inl rfl))⟩ h2
      | rex r => exact absurd ⟨_, hp, .inr (.inr (.inr ⟨r, rfl⟩))⟩ h2
  simp only [State.VexReady, State.VexUdCause, hp, not_or, Bool.not_eq_false, not_not]
  tauto

/-- The checks before the operand pass exactly when the instruction is decodable. -/
theorem preCheck_eq_none_iff (s : State) (i : Instr) : s.preCheck i.len (udOf s i) = none ↔ s.Decodable i := by
  rw [State.preCheck_eq_none, State.Decodable, ← udOf_iff, Bool.not_eq_true]
  rfl

/-- What an execution that answers a next state has passed, and what the next state is. -/
theorem exec_eq_next {i : Instr} {s t : State} :
    exec i s = .next t ↔
      s.Decodable i ∧ ∃ m, operandOf s i = .next m ∧ t = s.complete i.dst (resultOf s m i) i.len := by
  rw [exec_eq, ← preCheck_eq_none_iff]
  cases s.preCheck i.len (udOf s i) with
  | some f => simp
  | none =>
    simp only [true_and, andThen_eq_next, Host.Outcome.next.injEq]
    exact exists_congr fun m => and_congr_right fun _ => eq_comm

/-- Where an execution that stops with an exception got it from. -/
theorem exec_eq_fault {i : Instr} {s : State} {f : Fault} :
    exec i s = .fault f ↔
      s.preCheck i.len (udOf s i) = some f ∨ (s.Decodable i ∧ operandOf s i = .fault f) := by
  rw [exec_eq, ← preCheck_eq_none_iff]
  cases s.preCheck i.len (udOf s i) with
  | some f' => simp
  | none => simp [andThen_eq_fault]

/-- An execution is refused only by its memory operand. -/
theorem exec_eq_refused {i : Instr} {s : State} {r : Refusal} :
    exec i s = .refused r ↔ s.Decodable i ∧ operandOf s i = .refused r := by
  rw [exec_eq, ← preCheck_eq_none_iff]
  cases s.preCheck i.len (udOf s i) with
  | some f => simp
  | none => simp [andThen_eq_refused]

/-- A step that answers a next state executed the decoded instruction. -/
theorem step_eq_next {s t : State} (h : step s = .next t) :
    ∃ i rest, s.atEnd = false ∧ decode s.mode s.fetchBytes = .ok (i, rest) ∧ s.fetchStraddles i.len = false ∧
      exec i s = .next t := by
  unfold step at h
  split at h
  · cases h
  · rename_i he
    split at h
    · cases h
    · rename_i i rest hd
      split at h
      · cases h
      · rename_i hs
        exact ⟨i, rest, by simpa using he, hd, by simpa using hs, h⟩

end Sys2Proof.Machine
end

