-- ==== Sys2Proof/Laws/Sad.lean ====
section
/-! SUPPORT. The lane function word by word, and its bounds. -/

namespace Sys2Proof.Machine

open Sys2Proof

theorem absDiff_le (x y : Byte) : absDiff x y ≤ 255 := by
  have := x.isLt; have := y.isLt
  unfold absDiff; omega

theorem absDiff_comm (x y : Byte) : absDiff x y = absDiff y x := by
  unfold absDiff; omega

theorem absDiff_self (x : Byte) : absDiff x x = 0 := by
  unfold absDiff; omega

/-- The sum of four differences fits a word with room (R81). -/
theorem sadSum_le (a b : Lane) (o1 o2 i : Nat) : sadSum a b o1 o2 i ≤ 1020 := by
  have h := fun x y => absDiff_le x y
  unfold sadSum
  have h0 := h (byteOf a (o1 + i + 0)) (byteOf b (o2 + 0))
  have h1 := h (byteOf a (o1 + i + 1)) (byteOf b (o2 + 1))
  have h2 := h (byteOf a (o1 + i + 2)) (byteOf b (o2 + 2))
  have h3 := h (byteOf a (o1 + i + 3)) (byteOf b (o2 + 3))
  omega

/-- Word `i` of eight packed words is word `i`. -/
theorem wordOf_packWords (t : Nat → Nat) (i : Nat) (hi : i < 8) : wordOf (packWords t) i = BitVec.ofNat 16 (t i) := by
  apply BitVec.eq_of_getLsbD_eq
  intro k hk
  unfold wordOf packWords
  interval_cases i <;> simp [BitVec.getLsbD_append, BitVec.getLsbD_extractLsb', hk] <;> grind

/-- Word `i` of `SAD8` is exactly `t_i` (R80, R81). -/
theorem wordOf_sad8 (a b : Lane) (s1 : BitVec 1) (s2 : BitVec 2) (i : Nat) (hi : i < 8) :
    (wordOf (sad8 a b s1 s2) i).toNat = sadSum a b (4 * s1.toNat) (4 * s2.toNat) i := by
  rw [sad8, wordOf_packWords _ _ hi, BitVec.toNat_ofNat]
  have := sadSum_le a b (4 * s1.toNat) (4 * s2.toNat) i
  omega

end Sys2Proof.Machine
end

