-- ==== Sys2Proof/Laws/Operand.lean ====
section
/-! SUPPORT. The memory operand and the results in the terms of Safety.lean: segment checks as `SegFails`, reads as bytes,
and lanes as sums. -/

namespace Sys2Proof.Machine

open Sys2Proof

/-! ### Canonical form and segment checks -/

theorem canonical_iff (va : VaBits) (a : Addr) : canonical va a = true ↔ Canonical va a := by
  unfold canonical Canonical
  simp only [Bool.or_eq_true, decide_eq_true_eq]
  constructor
  · rintro (h | h) b h1 h2
    · have e (k : Nat) := congrArg (fun v => v.getLsbD k) h
      have e1 := e (b - (vaBitsNat va - 1))
      have e2 := e (63 - (vaBitsNat va - 1))
      simp only [BitVec.getLsbD_ushiftRight, BitVec.getLsbD_zero] at e1 e2
      rw [show vaBitsNat va - 1 + (b - (vaBitsNat va - 1)) = b by omega] at e1
      rw [show vaBitsNat va - 1 + (63 - (vaBitsNat va - 1)) = 63 by cases va <;> decide] at e2
      rw [e1, e2]
    · have e (k : Nat) := congrArg (fun v => v.getLsbD k) h
      have e1 := e (b - (vaBitsNat va - 1))
      have e2 := e (63 - (vaBitsNat va - 1))
      simp only [BitVec.getLsbD_ushiftRight, BitVec.getLsbD_allOnes] at e1 e2
      rw [show vaBitsNat va - 1 + (b - (vaBitsNat va - 1)) = b by omega] at e1
      rw [show vaBitsNat va - 1 + (63 - (vaBitsNat va - 1)) = 63 by cases va <;> decide] at e2
      rw [e1, e2]
      simp [h2]
  · intro h
    cases hb : a.getLsbD 63 with
    | false =>
      left
      apply BitVec.eq_of_getLsbD_eq
      intro k hk
      simp only [BitVec.getLsbD_ushiftRight, BitVec.getLsbD_zero]
      by_cases hlt : vaBitsNat va - 1 + k < 64
      · rw [h _ (by omega) hlt, hb]
      · exact BitVec.getLsbD_of_ge _ _ (by omega)
    | true =>
      right
      apply BitVec.eq_of_getLsbD_eq
      intro k hk
      simp only [BitVec.getLsbD_ushiftRight, BitVec.getLsbD_allOnes]
      by_cases hlt : vaBitsNat va - 1 + k < 64
      · rw [h _ (by omega) hlt, hb]; simp [hlt]
      · rw [BitVec.getLsbD_of_ge _ _ (by omega)]; simp [hlt]

/-- An offset is inside the segment or outside it. -/
theorem Segment.inside_iff (g : Segment) (off : Nat) : g.inside off = true ↔ ¬ g.Outside off := by
  simp only [Segment.inside, Segment.Outside, OffsetRange.holds, Bool.and_eq_true, decide_eq_true_eq,
    Bool.not_eq_true', not_or, Nat.not_lt, List.any_eq_false, not_exists, not_and]

/-- The check of rights and offsets passes exactly when nothing fails. -/
theorem State.segLimitCheck_eq_none {s : State} {g : SegReg} {ea : Addr} {n : Nat} :
    s.segLimitCheck g ea n = none ↔ ¬ (s.seg g).Fails ea n := by
  unfold State.segLimitCheck
  split <;> rename_i h <;>
    simp only [Segment.mayRead, Segment.Fails, Bool.and_eq_true, Bool.not_eq_true', List.all_eq_true, List.mem_range,
      Segment.inside_iff] at h ⊢ <;> grind

/-- `SegCheck` passes exactly when no byte fails. -/
theorem State.segCheck_eq_none {s : State} {g : SegReg} {ea : Addr} {n : Nat} (hn : 0 < n) :
    s.segCheck g ea n = none ↔ ¬ s.SegFails g ea n := by
  have hr : (ea.toNat + n ≤ 0x10000) ↔ ¬ ∃ j < n, 0xFFFF < ea.toNat + j := by
    constructor
    · rintro h ⟨j, hj, hlt⟩; omega
    · intro h; by_contra hc; exact h ⟨n - 1, by omega, by omega⟩
  unfold State.segCheck State.SegFails
  cases s.mode with
  | mode64 =>
    simp only [ite_eq_left_iff, reduceCtorEq, imp_false, not_not, List.all_eq_true, State.byteAddrs, List.mem_map,
      List.mem_range, not_exists, not_and]
    constructor
    · intro h j hj; exact (canonical_iff _ _).mp (h _ ⟨j, hj, rfl⟩)
    · rintro h _ ⟨j, hj, rfl⟩; exact (canonical_iff _ _).mpr (h j hj)
  | real => simp only [ite_eq_left_iff, reduceCtorEq, imp_false, not_not, hr]
  | v8086 => simp only [ite_eq_left_iff, reduceCtorEq, imp_false, not_not, hr]
  | compat32 => exact State.segLimitCheck_eq_none
  | prot32 => exact State.segLimitCheck_eq_none
  | prot16 => exact State.segLimitCheck_eq_none

/-- The fault of a check that fails: `#SS(0)` through SS but for real-address and virtual-8086 mode, else `#GP(0)`. -/
theorem State.segCheck_fault {s : State} {g : SegReg} {ea : Addr} {n : Nat} {f : Fault}
    (h : s.segCheck g ea n = some f) :
    f = if g = .ss ∧ s.mode ≠ .real ∧ s.mode ≠ .v8086 then .stackSegment else .generalProtection := by
  unfold State.segCheck at h
  cases hm : s.mode <;> simp only [hm, State.segLimitCheck, segFault] at h <;> split at h <;>
    simp only [Option.some.injEq, reduceCtorEq] at h <;> subst h <;> simp

theorem Instr.operandBytes_pos (i : Instr) : 0 < i.operandBytes := by
  cases i <;> simp [Instr.operandBytes]

/-! ### Reading bytes -/

/-- Bytes that can be read translate, stand in ordinary memory, and are what the read gives. -/
theorem State.translateAll_of_bytesAt {s : State} {la : Addr} {n : Nat} {m : Nat → Byte} (h : s.BytesAt la n m) :
    ∃ ps, s.translateAll (s.byteAddrs la n) = .ok ps ∧ (∀ p ∈ ps, s.isDevice p = false) ∧
      ps.map s.mem.read = (List.range n).map m := by
  choose f hf using fun j : {j // j < n} => h j.1 j.2
  let g : Nat → Nat := fun j => if hj : j < n then f ⟨j, hj⟩ else 0
  have hg : ∀ j < n, s.translate (s.byteAddr la j) = .ok (g j) ∧ s.isDevice (g j) = false ∧ s.mem.read (g j) = m j := by
    intro j hj
    simpa [g, hj] using hf ⟨j, hj⟩
  refine ⟨(List.range n).map g, ?_, ?_, ?_⟩
  · rw [State.translateAll_eq_ok, State.byteAddrs, List.forall₂_map_left_iff, List.forall₂_map_right_iff,
      List.forall₂_same]
    exact fun j hj => (hg j (List.mem_range.mp hj)).1
  · intro p hp
    obtain ⟨j, hj, rfl⟩ := List.mem_map.mp hp
    exact (hg j (List.mem_range.mp hj)).2.1
  · rw [List.map_map]
    exact List.map_congr_left fun j hj => (hg j (List.mem_range.mp hj)).2.2

/-- An operand that passes every check reads as its bytes. -/
theorem operandOf_of_reads {s : State} {i : Instr} {o : MemOp} {m : Nat → Byte} (ho : i.memOp = some o)
    (h : s.OperandReads i o m) (ha : i.isLegacy = true → (Instr.laOf i s o).toNat % 16 = 0) :
    operandOf s i = .next ((List.range i.operandBytes).map m) := by
  obtain ⟨ps, h1, h2, h3⟩ := State.translateAll_of_bytesAt h.2
  unfold operandOf
  rw [ho]
  exact State.readOperand_eq_next.mpr
    ⟨(State.segCheck_eq_none (Instr.operandBytes_pos i)).mpr h.1, ha, ps, h1, h2, h3.symm⟩

/-- Byte `j` of a memory operand taken as a number is byte `j` read (R33). -/
theorem byteOf_leNat {w : Nat} (bs : List Byte) (j : Nat) (hw : 8 * bs.length ≤ w) :
    byteOf (BitVec.ofNat w (leNat bs)) j = bs[j]?.getD 0#8 := by
  apply BitVec.eq_of_toNat_eq
  have hlt : leNat bs < 2 ^ w := lt_of_lt_of_le (leNat_lt bs) (Nat.pow_le_pow_right (by decide) hw)
  simp only [byteOf, BitVec.extractLsb'_toNat, BitVec.toNat_ofNat, Nat.mod_eq_of_lt hlt, Nat.shiftRight_eq_div_pow]
  exact leNat_byte bs j

/-! ### Results -/

theorem sadSum_eq_sadOf (a b : Lane) (o1 o2 i : Nat) : sadSum a b o1 o2 i = sadOf (byteOf a) (byteOf b) o1 o2 i := by
  simp [sadSum, sadOf, absDiff, List.range_succ, Nat.add_assoc]

/-- A sum depends only on the bytes it names. -/
theorem sadOf_congr {a b a' b' : Nat → Byte} {o1 o2 i : Nat} (h1 : ∀ k < 4, a (o1 + i + k) = a' (o1 + i + k))
    (h2 : ∀ k < 4, b (o2 + k) = b' (o2 + k)) : sadOf a b o1 o2 i = sadOf a' b' o1 o2 i := by
  unfold sadOf
  congr 1
  exact List.map_congr_left fun k hk => by rw [h1 k (List.mem_range.mp hk), h2 k (List.mem_range.mp hk)]

theorem s1Lo_toNat (imm : BitVec 8) : (s1Lo imm).toNat = imm.toNat / 4 % 2 := by revert imm; decide

theorem s2Lo_toNat (imm : BitVec 8) : (s2Lo imm).toNat = imm.toNat % 4 := by revert imm; decide

theorem s1Hi_toNat (imm : BitVec 8) : (s1Hi imm).toNat = imm.toNat / 32 % 2 := by revert imm; decide

theorem s2Hi_toNat (imm : BitVec 8) : (s2Hi imm).toNat = imm.toNat / 8 % 4 := by revert imm; decide

/-! ### Completing, writing and stopping, in the terms of the statements -/

/-- Completing an instruction leaves all but the destination and RIP (R20). -/
theorem State.sameBut_complete (s : State) (n v len) : s.SameBut (s.complete n v len) n := by
  refine ⟨fun m hm => by simp [State.readVr_writeVr_other s v hm], ?_⟩
  simp

/-- `RIP + len` as a number (R15). -/
theorem State.nextRip_toNat (s : State) (len) : (s.nextRip len).toNat = (s.rip.toNat + len) % 2 ^ s.mode.ipBits := by
  have h64 : ∀ m : Mode, 2 ^ m.ipBits ∣ 2 ^ 64 := by intro m; apply Nat.pow_dvd_pow; cases m <;> decide
  simp only [State.nextRip, lowBits, BitVec.toNat_setWidth, BitVec.toNat_add, BitVec.toNat_ofNat]
  rw [Nat.mod_eq_of_lt (b := 2^64), Nat.mod_mod_of_dvd _ (h64 _)]
  · rw [Nat.add_mod, Nat.mod_mod_of_dvd _ (h64 _), ← Nat.add_mod]
  · exact lt_of_lt_of_le (Nat.mod_lt _ (by positivity)) (Nat.le_of_dvd (by decide) (h64 _))

/-- The bytes of `XMM[n]`. -/
theorem State.byteOf_xmm (s : State) (n) (j) (hj : j < 16) : byteOf (s.xmm n) j = s.vrByte n j := by
  simp only [byteOf, State.vrByte, State.xmm]
  apply BitVec.eq_of_getLsbD_eq
  intro k hk
  simp only [BitVec.getLsbD_extractLsb', BitVec.getLsbD_setWidth]
  have : 8 * j + k < 128 := by omega
  simp [this, hk]

/-- The bytes of the low lane of `YMM[n]`. -/
theorem State.byteOf_ymm_low (s : State) (n) (j) (hj : j < 16) : byteOf ((s.ymm n).extractLsb' 0 128) j = s.vrByte n j := by
  simp only [byteOf, State.vrByte, State.ymm]
  apply BitVec.eq_of_getLsbD_eq
  intro k hk
  simp only [BitVec.getLsbD_extractLsb', BitVec.getLsbD_setWidth]
  have : 8 * j + k < 128 := by omega
  simp [this, hk]; omega

/-- The bytes of the upper lane of `YMM[n]`. -/
theorem State.byteOf_ymm_high (s : State) (n) (j) (hj : j < 16) : byteOf ((s.ymm n).extractLsb' 128 128) j = s.vrByte n (16 + j) := by
  simp only [byteOf, State.vrByte, State.ymm]
  apply BitVec.eq_of_getLsbD_eq
  intro k hk
  simp only [BitVec.getLsbD_extractLsb', BitVec.getLsbD_setWidth]
  have : 8 * j + k < 128 := by omega
  have e : 128 + (8 * j + k) = 8 * (16 + j) + k := by ring
  simp [this, hk, e]; omega

/-- The bytes of a lane cut out of a wider value. -/
theorem byteOf_extractLane {w} (v : BitVec w) (lo j) (hj : j < 16): byteOf (v.extractLsb' (8*lo) 128) j = byteOf v (lo + j) := by
  simp only [byteOf]
  apply BitVec.eq_of_getLsbD_eq
  intro k hk
  simp only [BitVec.getLsbD_extractLsb']
  have : 8 * j + k < 128 := by omega
  have e : 8 * lo + (8 * j + k) = 8 * (lo + j) + k := by ring
  simp [this, hk, e]

/-- Byte `j` of the number that a list of bytes makes. -/
theorem byteOf_leNat_map (n : Nat) (m : Nat → Byte) (w) (hw : 8 * n ≤ w) (j) (hj : j < n) : byteOf (BitVec.ofNat w (leNat ((List.range n).map m))) j = m j := by
  rw [byteOf_leNat _ _ (by simpa using hw)]; simp [hj]

/-- The legacy write puts the result in bits 127:0 (R82). -/
theorem keepUpper_low (o : VReg) (r : Lane) : (keepUpper o r).extractLsb' 0 128 = r := by
  apply BitVec.eq_of_getLsbD_eq; intro k hk
  simp only [keepUpper, BitVec.getLsbD_extractLsb', BitVec.getLsbD_append]; simp [hk]

/-- The legacy write keeps the bits above 127 (R82). -/
theorem keepUpper_high (o : VReg) (r : Lane) (b) (h : 128 ≤ b) (h' : b < 512) : (keepUpper o r).getLsbD b = o.getLsbD b := by
  simp only [keepUpper, BitVec.getLsbD_extractLsb', BitVec.getLsbD_append]
  have : ¬ b < 128 := by omega
  simp [this, show b - 128 < 384 by omega, show 128 + (b - 128) = b by omega]

/-- A zero-extended lane has the lane in bits 127:0. -/
theorem setWidth_low (r : Lane) : (r.setWidth 512).extractLsb' 0 128 = r := by
  apply BitVec.eq_of_getLsbD_eq; intro k hk
  simp only [BitVec.getLsbD_extractLsb', BitVec.getLsbD_setWidth]; simp [hk]; omega

/-- The low lane of the 256-bit computation (R84). -/
theorem sad256_low (a b imm) : ((sad256 a b imm).setWidth 512).extractLsb' 0 128 = sad128 (a.extractLsb' 0 128) (b.extractLsb' 0 128) imm := by
  apply BitVec.eq_of_getLsbD_eq; intro k hk
  simp only [sad256, sad128, BitVec.getLsbD_extractLsb', BitVec.getLsbD_setWidth, BitVec.getLsbD_append]; simp [hk]; omega

/-- The upper lane of the 256-bit computation (R84). -/
theorem sad256_high (a b imm) : ((sad256 a b imm).setWidth 512).extractLsb' 128 128 = sad8 (a.extractLsb' 128 128) (b.extractLsb' 128 128) (s1Hi imm) (s2Hi imm) := by
  apply BitVec.eq_of_getLsbD_eq; intro k hk
  simp only [sad256, BitVec.getLsbD_extractLsb', BitVec.getLsbD_setWidth, BitVec.getLsbD_append]; simp [hk]; omega

/-- A register written with a 128-bit computation in its low lane holds the sums there. -/
theorem laneHolds_low (s : State) (n) (v : VReg) (a b : Lane) (imm : BitVec 8) (fa fb : Nat → Byte)
   (hv : v.extractLsb' 0 128 = sad128 a b imm) (ha : ∀ j < 16, byteOf a j = fa j) (hb : ∀ j < 16, byteOf b j = fb j) :
   LaneHolds ((s.writeVr n v).readVr n) 0 fa fb (4 * (imm.toNat / 4 % 2)) (4 * (imm.toNat % 4)) := by
  intro i hi
  have e : wordOf ((s.writeVr n v).readVr n) (0 + i) = wordOf (sad128 a b imm) i := by
    rw [← hv]
    apply BitVec.eq_of_getLsbD_eq
    intro k hk
    simp only [wordOf, BitVec.getLsbD_extractLsb', getLsbD_readVr_writeVr_same]
    have h1 := maxVlBits_ge s.maxVl
    have h2 := maxVlBits_le s.maxVl
    have : 16 * i + k < 128 := by omega
    simp [hk, this, show 16 * i + k < maxVlBits s.maxVl by omega, show 16 * i + k < 512 by omega]
  rw [e, sad128, wordOf_sad8 _ _ _ _ _ hi, sadSum_eq_sadOf, s1Lo_toNat, s2Lo_toNat]
  exact sadOf_congr (fun k hk => ha _ (by omega)) (fun k hk => hb _ (by omega))

/-- A register written with a lane computation in its upper lane holds the sums there. -/
theorem laneHolds_high (s : State) (n) (v : VReg) (a b : Lane) (imm : BitVec 8) (fa fb : Nat → Byte) (hw : 256 ≤ maxVlBits s.maxVl)
   (hv : v.extractLsb' 128 128 = sad8 a b (s1Hi imm) (s2Hi imm)) (ha : ∀ j < 16, byteOf a j = fa (16 + j)) (hb : ∀ j < 16, byteOf b j = fb (16 + j)) :
   LaneHolds ((s.writeVr n v).readVr n) 8 fa fb (16 + 4 * (imm.toNat / 32 % 2)) (16 + 4 * (imm.toNat / 8 % 4)) := by
  intro i hi
  have e : wordOf ((s.writeVr n v).readVr n) (8 + i) = wordOf (sad8 a b (s1Hi imm) (s2Hi imm)) i := by
    rw [← hv]
    apply BitVec.eq_of_getLsbD_eq
    intro k hk
    simp only [wordOf, BitVec.getLsbD_extractLsb', getLsbD_readVr_writeVr_same]
    have h2 := maxVlBits_le s.maxVl
    have : 16 * i + k < 128 := by omega
    have e2 : 16 * (8 + i) + k = 128 + (16 * i + k) := by ring
    simp [hk, this, e2, show 128 + (16 * i + k) < maxVlBits s.maxVl by omega, show 128 + (16 * i + k) < 512 by omega]
  rw [e, wordOf_sad8 _ _ _ _ _ hi, sadSum_eq_sadOf, s1Hi_toNat, s2Hi_toNat]
  have : sadOf (byteOf a) (byteOf b) (4 * (imm.toNat / 32 % 2)) (4 * (imm.toNat / 8 % 4)) i = sadOf (fun j => fa (16 + j)) (fun j => fb (16 + j)) (4 * (imm.toNat / 32 % 2)) (4 * (imm.toNat / 8 % 4)) i :=
    sadOf_congr (fun k hk => ha _ (by omega)) (fun k hk => hb _ (by omega))
  rw [this]
  simp only [sadOf, Nat.add_assoc]

/-- The ways an execution stops with an exception, in the order of R108. -/
theorem exec_fault_cases {i : Instr} {s : State} {f : Fault} (h : exec i s = .fault f) :
   (15 < i.len ∧ f = .generalProtection) ∨ (i.len ≤ 15 ∧ s.UdCause i ∧ f = .invalidOpcode) ∨
   (i.len ≤ 15 ∧ ¬ s.UdCause i ∧ s.cr0.getLsbD 3 = true ∧ f = .deviceNotAvailable) ∨
   (s.Decodable i ∧ ∃ o, i.memOp = some o ∧ s.readOperand i.isLegacy (Instr.segOf i s o) (Instr.eaOf i s o) i.operandBytes = .fault f) := by
  rcases exec_eq_fault.mp h with h | ⟨hd, h⟩
  · rcases State.preCheck_eq_some.mp h with h | h | h
    · exact .inl h
    · exact .inr (.inl ⟨h.1, (udOf_iff s i).mp h.2.1, h.2.2⟩)
    · refine .inr (.inr (.inl ⟨h.1, ?_, h.2.2⟩)); rw [← udOf_iff, h.2.1]; simp
  · right; right; right
    refine ⟨hd, ?_⟩
    unfold operandOf at h
    split at h
    · cases h
    · rename_i o ho; exact ⟨o, ho, h⟩

/-- The checks before the operand, each with its exception (R108). -/
theorem exec_fault_of_checks {i : Instr} {s : State} :
   (15 < i.len → exec i s = .fault .generalProtection) ∧ (i.len ≤ 15 → s.UdCause i → exec i s = .fault .invalidOpcode) ∧
   (i.len ≤ 15 → ¬ s.UdCause i → s.cr0.getLsbD 3 = true → exec i s = .fault .deviceNotAvailable) := by
  refine ⟨fun h => ?_, fun h hu => ?_, fun h hu ht => ?_⟩ <;> apply exec_eq_fault.mpr <;> left <;> apply State.preCheck_eq_some.mpr
  · exact .inl ⟨h, rfl⟩
  · exact .inr (.inl ⟨h, (udOf_iff s i).mpr hu, rfl⟩)
  · refine .inr (.inr ⟨h, ?_, ht, rfl⟩); rw [← udOf_iff] at hu; simpa using hu

/-- Past those checks the operand's exception is the execution's. -/
theorem exec_fault_of_operand {i : Instr} {s : State} {o f} (hd : s.Decodable i) (ho : i.memOp = some o) (h : s.readOperand i.isLegacy (Instr.segOf i s o) (Instr.eaOf i s o) i.operandBytes = .fault f) : exec i s = .fault f := by
  apply exec_eq_fault.mpr; right; refine ⟨hd, ?_⟩; unfold operandOf; rw [ho]; exact h

/-- A failed segment check is the operand's exception. -/
theorem State.readOperand_segment {s : State} {al g ea n f} (h : s.segCheck g ea n = some f) : s.readOperand al g ea n = .fault f := by
  unfold State.readOperand; rw [h]; rfl

/-- A misaligned operand of the legacy form raises `#GP(0)`. -/
theorem State.readOperand_misaligned {s : State} {g ea n} (h : s.segCheck g ea n = none) (h' : (s.linear g ea).toNat % 16 ≠ 0) : s.readOperand true g ea n = .fault .generalProtection := by
  unfold State.readOperand; rw [h]; simp [h', raise]

/-- A failed translation raises `#PF`. -/
theorem State.readOperand_pageFault {s : State} {al g ea n bad c} (h : s.segCheck g ea n = none) (h' : al = true → (s.linear g ea).toNat % 16 = 0) (ht : s.translateAll (s.byteAddrs (s.linear g ea) n) = .error (bad, c)) : s.readOperand al g ea n = .fault (.pageFault c (s.pfAddr (s.linear g ea) n bad)) := by
  unfold State.readOperand State.readLinear; rw [h, ht]
  cases al <;> simp_all [raise]

/-- The ways an operand read stops with an exception, in the terms of Safety.lean. -/
theorem State.readOperand_fault_cases {s : State} {al g ea n f} (hn : 0 < n) (h : s.readOperand al g ea n = .fault f) :
  (s.SegFails g ea n ∧ f = if g = .ss ∧ s.mode ≠ .real ∧ s.mode ≠ .v8086 then .stackSegment else .generalProtection) ∨
  (¬ s.SegFails g ea n ∧ al = true ∧ (s.linear g ea).toNat % 16 ≠ 0 ∧ f = .generalProtection) ∨
  (¬ s.SegFails g ea n ∧ (al = true → (s.linear g ea).toNat % 16 = 0) ∧
        ∃ bad c, s.translateAll (s.byteAddrs (s.linear g ea) n) = .error (bad, c) ∧
          f = .pageFault c (s.pfAddr (s.linear g ea) n bad)) := by
  rcases State.readOperand_eq_fault h with h | h | h
  · left; refine ⟨?_, State.segCheck_fault h⟩
    by_contra hc; rw [(State.segCheck_eq_none hn).mpr hc] at h; cases h
  · right; left; exact ⟨(State.segCheck_eq_none hn).mp h.1, h.2⟩
  · right; right; exact ⟨(State.segCheck_eq_none hn).mp h.1, h.2⟩

/-- A byte that fails makes the segment check fail. -/
theorem State.segCheck_of_segFails {s : State} {g ea n} (hn : 0 < n) (h : s.SegFails g ea n) : s.segCheck g ea n = some (if g = .ss ∧ s.mode ≠ .real ∧ s.mode ≠ .v8086 then .stackSegment else .generalProtection) := by
  cases hc : s.segCheck g ea n with
  | none => exact absurd h ((State.segCheck_eq_none hn).mp hc)
  | some f => rw [State.segCheck_fault hc]

/-- The first byte whose translation fails is the one reported (R105). -/
theorem State.translateAll_first {s : State} {la : Addr} {n j : Nat} {c} (hj : j < n) (h1 : ∀ k < j, ∃ p, s.translate (s.byteAddr la k) = .ok p) (h2 : s.translate (s.byteAddr la j) = .error c) :
   s.translateAll (s.byteAddrs la n) = .error (s.byteAddr la j, c) := by
  have gen : ∀ (n j : Nat) (f : Nat → Addr), j < n → (∀ k < j, ∃ p, s.translate (f k) = .ok p) → s.translate (f j) = .error c → s.translateAll ((List.range n).map f) = .error (f j, c) := by
    intro n
    induction n with
    | zero => intro j f hj; omega
    | succ n ih =>
      intro j f hj h1 h2
      rw [List.range_succ_eq_map, List.map_cons, List.map_map]
      cases j with
      | zero => simp [State.translateAll, h2]
      | succ j =>
        obtain ⟨p, hp⟩ := h1 0 (by omega)
        simp only [State.translateAll, hp]
        rw [ih j (f ∘ Nat.succ) (by omega) (fun k hk => h1 (k+1) (by omega)) h2]; rfl
  exact gen n j _ hj h1 h2

/-- The address that CR2 receives is one of the candidates (R105). -/
theorem State.pfAddr_mem {s : State} {la n j} (hj : j < n) : s.pfAddr la n (s.byteAddr la j) ∈ s.pfCandidates la n (s.byteAddr la j) := by
  have hm : s.byteAddr la j ∈ s.pfCandidates la n (s.byteAddr la j) := by
    simp [State.pfCandidates, State.byteAddrs, samePage]; exact ⟨j, hj, rfl⟩
  have hpos := List.length_pos_of_mem hm
  unfold State.pfAddr
  rw [List.getElem?_eq_getElem (Nat.mod_lt _ hpos)]
  exact List.getElem_mem _

/-! ### Effective addresses as sums of integers (R58 to R60) -/

/-- A sum taken modulo 2^64 and truncated to `n` bits is the sum modulo 2^n. -/
theorem lowBits_toInt {n : Nat} {v : Addr} {z : Int} (hn : n ≤ 64) (hv : (v.toNat : Int) = z % 2 ^ 64) :
    ((lowBits n v).toNat : Int) = z % 2 ^ n := by
  have e : (lowBits n v).toNat = v.toNat % 2 ^ n := by
    simp only [lowBits, BitVec.toNat_setWidth]
    rw [Nat.mod_eq_of_lt (b := 2 ^ 64)]
    exact lt_of_le_of_lt (Nat.mod_le _ _) v.isLt
  rw [e]
  push_cast
  rw [hv, Int.emod_emod_of_dvd]
  exact pow_dvd_pow _ hn

/-- A sign-extended displacement, modulo 2^64, is the displacement as an integer. -/
theorem signExtend_toInt {w : Nat} (hw : w ≤ 64) (d : BitVec w) : ((d.signExtend 64).toNat : Int) = d.toInt % 2 ^ 64 := by
  have h : (d.signExtend 64).toInt = d.toInt := by
    rw [BitVec.toInt_signExtend, Nat.min_eq_right hw, BitVec.toInt_bmod_cancel]
  rw [← h, BitVec.toInt_eq_toNat_bmod]
  simp only [Int.bmod]
  have := (d.signExtend 64).isLt
  omega

theorem dispVal_toInt (d : Disp) : ((dispVal d).toNat : Int) = dispInt d % 2 ^ 64 := by
  cases d with
  | none => rfl
  | d8 d => exact signExtend_toInt (by decide) d
  | d32 d => exact signExtend_toInt (by decide) d

theorem dispVal16_toInt (d : Disp16) : ((dispVal16 d).toNat : Int) = disp16Int d % 2 ^ 64 := by
  cases d with
  | none => rfl
  | d8 d => exact signExtend_toInt (by decide) d
  | d16 d => simp only [dispVal16, disp16Int, BitVec.toNat_setWidth]; omega

/-! ### Segment overrides (R62) -/

/-- A segment override is among the prefixes exactly when it is among the overrides. -/
theorem seg_mem_iff {g ps} : Prefix.seg g ∈ ps ↔ g ∈ overridesOf ps := by
  induction ps with
  | nil => simp [overridesOf]
  | cons p ps ih => cases p <;> simp [overridesOf, ih]

/-- Outside 64-bit mode every override counts. -/
theorem mem_effectiveOverrides_of_ne {m : Mode} {ps : List Prefix} {d g : SegReg} (hm : m ≠ .mode64) :
    g ∈ effectiveOverrides m ps d ↔ Prefix.seg g ∈ ps := by
  simp [effectiveOverrides, hm, seg_mem_iff]

/-- In 64-bit mode FS and GS shut the others out. -/
theorem mem_effectiveOverrides_of_base {ps : List Prefix} {d g : SegReg} (h : Prefix.seg .fs ∈ ps ∨ Prefix.seg .gs ∈ ps) :
    g ∈ effectiveOverrides .mode64 ps d ↔ Prefix.seg g ∈ ps ∧ (g = .fs ∨ g = .gs) := by
  have ha : (overridesOf ps).any addsBase = true := by
    simp only [List.any_eq_true, ← seg_mem_iff]
    rcases h with h | h <;> exact ⟨_, h, rfl⟩
  simp [effectiveOverrides, ha, seg_mem_iff, addsBase]

/-- In 64-bit mode without FS and GS the others count, SS as the default. -/
theorem mem_effectiveOverrides_of_noBase {ps : List Prefix} {d g : SegReg} (h1 : Prefix.seg .fs ∉ ps)
    (h2 : Prefix.seg .gs ∉ ps) :
    g ∈ effectiveOverrides .mode64 ps d ↔ (Prefix.seg .ss ∈ ps ∧ g = d) ∨ (Prefix.seg g ∈ ps ∧ g ≠ .ss) := by
  have ha : (overridesOf ps).any addsBase = false := by
    simp only [List.any_eq_false, ← seg_mem_iff]
    intro x hx
    cases x <;> simp_all [addsBase]
  simp only [effectiveOverrides, ne_eq, not_true_eq_false, if_false, ha, Bool.false_eq_true, List.mem_map, ← seg_mem_iff,
    overrideSeg64]
  constructor
  · rintro ⟨x, hx, rfl⟩
    split
    · rename_i e; subst e; exact .inl ⟨hx, rfl⟩
    · rename_i e; exact .inr ⟨hx, e⟩
  · rintro (⟨h, rfl⟩ | ⟨h, e⟩)
    · exact ⟨_, h, rfl⟩
    · exact ⟨_, h, if_neg e⟩

/-- There is an effective override exactly when there is an override. -/
theorem effectiveOverrides_eq_nil {m : Mode} {ps : List Prefix} {d : SegReg} :
    effectiveOverrides m ps d = [] ↔ ∀ g, Prefix.seg g ∉ ps := by
  rw [show (∀ g, Prefix.seg g ∉ ps) ↔ overridesOf ps = [] by simp [List.eq_nil_iff_forall_not_mem, seg_mem_iff]]
  unfold effectiveOverrides
  split
  · rfl
  · split
    · rename_i h
      obtain ⟨x, hx, hb⟩ := List.any_eq_true.mp h
      exact ⟨fun e => absurd (List.mem_filter.mpr ⟨hx, hb⟩) (by simp [e]), fun e => by simp [e]⟩
    · exact List.map_eq_nil_iff

/-- An override is picked exactly when there is one. -/
theorem pickOverride_eq_none {l : List SegReg} : pickOverride l = none ↔ l = [] := by
  cases l with
  | nil => simp [pickOverride]
  | cons a l =>
    simp only [pickOverride]
    split
    · simp
    · simp only [List.getElem?_eq_none_iff, reduceCtorEq, iff_false, Nat.not_le]
      exact Nat.mod_lt _ (by simp)

/-- The override picked is one of those present. -/
theorem pickOverride_mem {l g} (h : pickOverride l = some g) : g ∈ l := by
  cases l with
  | nil => cases h
  | cons a l =>
    simp only [pickOverride] at h
    split at h
    · cases h; simp
    · exact List.mem_of_getElem? h

/-- All that the segment of an operand can be: the default without an override, else one that the overrides offer (R62). -/
theorem operandSeg_cases (m : Mode) (ps : List Prefix) (o : MemOp) :
    ((∀ g, Prefix.seg g ∉ ps) ∧ operandSeg m ps o = defaultSeg o) ∨
      operandSeg m ps o ∈ effectiveOverrides m ps (defaultSeg o) := by
  unfold operandSeg
  cases h : pickOverride (effectiveOverrides m ps (defaultSeg o)) with
  | none => exact .inl ⟨effectiveOverrides_eq_nil.mp (pickOverride_eq_none.mp h), rfl⟩
  | some g => exact .inr (pickOverride_mem h)

end Sys2Proof.Machine
end

