-- ==== Sys2Proof/Laws/Fetch.lean ====
section
/-! SUPPORT. Where the fetch reads in 64-bit mode without paging, and what a loaded program leaves in memory. -/

namespace Sys2Proof.Machine

open Sys2Proof

/-- In 64-bit mode without paging the byte at `RIP + j` is fetched from that address. -/
theorem State.fetchPhys_linear {s : State} {j : Nat} (hm : s.mode = .mode64) (ht : s.translation = .off)
    (hj : s.rip.toNat + j < 2 ^ 64) : s.fetchPhys (s.fetchLinear j) = s.rip.toNat + j := by
  have hb : s.mode.ipBits = 64 := by rw [hm]; rfl
  simp only [State.fetchPhys, ht, State.fetchLinear, hm]
  rw [State.nextRip_toNat, hb, Nat.mod_eq_of_lt hj]

/-- The bytes fetched, one by one. -/
theorem State.fetchFrom_eq (s : State) (n j : Nat) :
    s.fetchFrom n j = (List.range n).map fun k => s.fetchByte (j + k) := by
  induction n generalizing j with
  | zero => rfl
  | succ n ih =>
    rw [State.fetchFrom, ih, List.range_succ_eq_map]
    simp only [List.map_cons, List.map_map, Nat.add_zero, List.cons.injEq, true_and]
    exact List.map_congr_left fun k _ => by simp only [Function.comp]; congr 1; omega

/-- Placing a program leaves every byte outside it. -/
theorem State.placeBytes_read_other {s : State} (hm : s.mode = .mode64) (ht : s.translation = .off) (bs : List Byte)
    (j : Nat) (m : Memory) (hb : s.rip.toNat + j + bs.length ≤ 2 ^ 64) (a : Nat)
    (ha : a < s.rip.toNat + j ∨ s.rip.toNat + j + bs.length ≤ a) : (s.placeBytes bs j m).read a = m.read a := by
  induction bs generalizing j m with
  | nil => rfl
  | cons b bs ih =>
    simp only [List.length_cons] at hb ha
    simp only [State.placeBytes]
    rw [ih (j + 1) _ (by omega) (by omega), Memory.read_write_other]
    rw [State.fetchPhys_linear hm ht (by omega)]
    omega

/-- Placing a program puts byte `k` of it at `RIP + j + k`. -/
theorem State.placeBytes_read_at {s : State} (hm : s.mode = .mode64) (ht : s.translation = .off) (bs : List Byte)
    (j : Nat) {m : Memory} (hw : m.wf) (hb : s.rip.toNat + j + bs.length ≤ 2 ^ 64) (k : Nat) (hk : k < bs.length) :
    (s.placeBytes bs j m).read (s.rip.toNat + j + k) = bs[k] := by
  induction bs generalizing j m k with
  | nil => simp at hk
  | cons b bs ih =>
    simp only [List.length_cons] at hb hk
    simp only [State.placeBytes]
    cases k with
    | zero =>
      rw [State.placeBytes_read_other hm ht bs (j + 1) _ (by omega) _ (by omega), State.fetchPhys_linear hm ht (by omega)]
      exact Memory.read_write_same hw _ _
    | succ k =>
      have := ih (j + 1) (Memory.write_wf hw (s.fetchPhys (s.fetchLinear j)) b) (by omega) k (by omega)
      rw [show s.rip.toNat + j + (k + 1) = s.rip.toNat + (j + 1) + k by omega, this]
      rfl

end Sys2Proof.Machine
end

