-- ==== Sys2Proof/Laws/PerInstr.lean ====
section
/-! SUPPORT. The per-instruction families of LAWS.json: one lemma per constructor of `Instr`. -/

namespace Sys2Proof.Laws.EncodedLength

open Sys2Proof

/-- The bytes of an instruction are as many as R64 says. -/
def Statement (i : Instr) : Prop := (encode i).length = i.len

theorem mpsadbwReg (e : LegacyEnc) (d s : RegNum) (imm : BitVec 8) : Statement (.mpsadbwReg e d s imm) := by
  simp [Statement, encode, Instr.len, LegacyEnc.len, LegacyEnc.head_length]

theorem mpsadbwMem (e : LegacyEnc) (d : RegNum) (o : MemOp) (imm : BitVec 8) : Statement (.mpsadbwMem e d o imm) := by
  simp [Statement, encode, Instr.len, LegacyEnc.len, LegacyEnc.head_length, MemOp.bytes_length]; omega

theorem vmpsadbw128Reg (e : VexEnc) (d v s : RegNum) (imm : BitVec 8) : Statement (.vmpsadbw128Reg e d v s imm) := by
  simp [Statement, encode, Instr.len, VexEnc.len, VexEnc.head_length]

theorem vmpsadbw128Mem (e : VexEnc) (d v : RegNum) (o : MemOp) (imm : BitVec 8) :
    Statement (.vmpsadbw128Mem e d v o imm) := by
  simp [Statement, encode, Instr.len, VexEnc.len, VexEnc.head_length, MemOp.bytes_length]; omega

theorem vmpsadbw256Reg (e : VexEnc) (d v s : RegNum) (imm : BitVec 8) : Statement (.vmpsadbw256Reg e d v s imm) := by
  simp [Statement, encode, Instr.len, VexEnc.len, VexEnc.head_length]

theorem vmpsadbw256Mem (e : VexEnc) (d v : RegNum) (o : MemOp) (imm : BitVec 8) :
    Statement (.vmpsadbw256Mem e d v o imm) := by
  simp [Statement, encode, Instr.len, VexEnc.len, VexEnc.head_length, MemOp.bytes_length]; omega

end Sys2Proof.Laws.EncodedLength
end

