-- ==== Sys2Proof/Tests/Slice0.lean ====
section
/-! SUPPORT. The model's own tests: ill-formed terms that WellFormed refuses, words written out from the spec's encodings,
one step on small states with the values of spec/95_test_vectors.md, and for every statement with hypotheses a concrete
case that meets them all. Expected values come from the spec, never from the model. -/

namespace Sys2Proof.Tests

open Sys2Proof Sys2Proof.Machine

/-! ### Small states -/

/-- The start state of spec/95_test_vectors.md: 64-bit mode, MAXVL = 256, the premises of R18, CPL = 3, RIP = 1000H. -/
def base : State := { State.reset.enabled with rip := 0x1000#64, cpl := 3#2 }

def vreg (n : RegNum) (v : Nat) (s : State) : State := s.writeVr n (BitVec.ofNat 512 v)

def gpr (n : RegNum) (v : Nat) (s : State) : State := { s with gpr := s.gpr.set n.toNat (BitVec.ofNat 64 v) n.isLt }

/-- `n` bytes of memory from `a` on, the little-endian bytes of `v`. -/
def bytes (a n v : Nat) (s : State) : State :=
  { s with mem := (List.range n).foldl (fun m j => m.write (a + j) (BitVec.ofNat 8 (v >>> (8 * j)))) s.mem }

/-- The program's bytes at RIP. -/
def prog (l : List Nat) (s : State) : State := s.loadProgram (l.map (BitVec.ofNat 8))

/-- One page of memory at 2000H, and nothing else (`Mapped` of F14 to F16). -/
def mapped (s : State) : State :=
  { s with translation := .paged [⟨0x2000, 0x1000, 0x2000, Vector.replicate 4 none⟩] }

/-- The page at 2000H, readable below CPL 3 and denied at CPL 3. -/
def deniedAt3 (d : Denial) (s : State) : State :=
  { s with translation := .paged [⟨0x2000, 0x1000, 0x2000, #v[none, none, none, some d]⟩] }

/-- The page at 2000H, denied at every level. -/
def denied (d : Denial) (s : State) : State :=
  { s with translation := .paged [⟨0x2000, 0x1000, 0x2000, Vector.replicate 4 (some d)⟩] }

/-- The part with no AVX, and the part with AVX but no AVX2. -/
def noAvx (s : State) : State := { s with part := .sse true .v128 }

def noAvx2 (s : State) : State := { s with part := .avx false .v256 }

def valA : Nat := 0x0F0E0D0C0B0A09080706050403020100
def valB : Nat := 0xF0E0D0C0B0A090807060504030201000
def valU : Nat := 0xAFAEADACABAAA9A8A7A6A5A4A3A2A1A0
def valC : Nat := 0x86613C17F2CDA8835E3914EFCAA5805B3611ECC7A27D58330EE9C49F7A55300B
def valD : Nat := 0x42DD7813AE49E47F1AB550EB8621BC57F28D28C35EF9942FCA65009B36D16C07

/-- `hi ++ lo`. -/
def cat (hi lo : Nat) : Nat := hi * 2 ^ 128 + lo

/-- A register and RIP after one step. -/
def after (n : RegNum) (s : State) : Option (VReg × Addr) := (stateOf (step s)).map fun t => (t.readVr n, t.rip)

/-- The vector number and the error code of the exception. -/
def raises (o : Host.Outcome State Fault Refusal) : Option (Nat × Option (BitVec 32)) :=
  (faultOf o).map fun f => (f.vector, f.errorCode)

def legacy : LegacyEnc := ⟨[.opSize], none⟩

def vex : VexEnc := ⟨[], false, false, false, false⟩

/-! ### WellFormed: for each check a term it refuses -/

/-- F2H makes another encoding (R67). -/
theorem test_wf_rep_before_legacy :
    ¬ (Instr.mpsadbwReg ⟨[.opSize, .repne], none⟩ 0#4 1#4 0#8).WellFormed .mode64 := by decide

/-- The mandatory 66H is missing (R67). -/
theorem test_wf_no_mandatory_66 : ¬ (Instr.mpsadbwReg ⟨[], none⟩ 0#4 1#4 0#8).WellFormed .mode64 := by decide

/-- A REX byte exists in 64-bit mode only (R53). -/
theorem test_wf_rex_outside64 :
    ¬ (Instr.mpsadbwReg ⟨[.opSize], some ⟨false, false, false, false⟩⟩ 0#4 1#4 0#8).WellFormed .prot32 := by decide

/-- A REX byte before VEX exists in 64-bit mode only. -/
theorem test_wf_rex_before_vex_outside64 :
    ¬ (Instr.vmpsadbw128Reg ⟨[.rex ⟨false, false, false, false⟩], false, false, false, false⟩ 0#4 1#4 2#4
      0#8).WellFormed .compat32 := by decide

/-- R, X and B are 0 outside 64-bit mode (R54). -/
theorem test_wf_vex_rxb_outside64 :
    ¬ (Instr.vmpsadbw128Reg ⟨[], true, false, false, false⟩ 8#4 1#4 2#4 0#8).WellFormed .prot32 ∧
      ¬ (Instr.vmpsadbw128Reg ⟨[], false, true, false, false⟩ 0#4 1#4 2#4 0#8).WellFormed .prot32 ∧
      ¬ (Instr.vmpsadbw128Reg ⟨[], false, false, true, false⟩ 0#4 1#4 8#4 0#8).WellFormed .prot32 := by decide

/-- A register's bit 3 is the extension bit (R56). -/
theorem test_wf_register_extension :
    ¬ (Instr.mpsadbwReg legacy 8#4 1#4 0#8).WellFormed .mode64 ∧
      ¬ (Instr.mpsadbwReg legacy 0#4 9#4 0#8).WellFormed .mode64 := by decide

/-- VEX.vvvv is below 8 outside 64-bit mode (R54). -/
theorem test_wf_vvvv_outside64 : ¬ (Instr.vmpsadbw256Reg vex 0#4 8#4 2#4 0#8).WellFormed .prot32 := by decide

/-- A base with low bits 100 needs a SIB byte (R58). -/
theorem test_wf_base_100 : ¬ (Instr.mpsadbwMem legacy 0#4 (.base 4#4 .none) 0#8).WellFormed .mode64 := by decide

/-- A base with low bits 101 needs a displacement (R58). -/
theorem test_wf_base_101 : ¬ (Instr.mpsadbwMem legacy 0#4 (.base 5#4 .none) 0#8).WellFormed .mode64 := by decide

/-- A SIB base with low bits 101 needs a displacement (R59). -/
theorem test_wf_sib_base_101 : ¬ (Instr.mpsadbwMem legacy 0#4 (.sib 0#2 1#4 5#4 .none) 0#8).WellFormed .mode64 := by decide

/-- An index's bit 3 is REX.X (R59). -/
theorem test_wf_index_extension :
    ¬ (Instr.mpsadbwMem legacy 0#4 (.sib 0#2 9#4 3#4 .none) 0#8).WellFormed .mode64 ∧
      ¬ (Instr.mpsadbwMem legacy 0#4 (.sibNoBase 0#2 9#4 0#32) 0#8).WellFormed .mode64 := by decide

/-- The 16-bit forms do not exist in 64-bit mode (R60). -/
theorem test_wf_addr16_in_mode64 :
    ¬ (Instr.mpsadbwMem legacy 0#4 (.base16 0#3 .none) 0#8).WellFormed .mode64 ∧
      ¬ (Instr.mpsadbwMem legacy 0#4 (.disp16 0#16) 0#8).WellFormed .mode64 := by decide

/-- BP alone is not a 16-bit base without a displacement (R60). -/
theorem test_wf_base16_bp : ¬ (Instr.mpsadbwMem legacy 0#4 (.base16 6#3 .none) 0#8).WellFormed .prot16 := by decide

/-- No disp32 and no SIB byte with 16-bit address size (R60). -/
theorem test_wf_addr32_in_prot16 :
    ¬ (Instr.mpsadbwMem legacy 0#4 (.disp32 0#32) 0#8).WellFormed .prot16 ∧
      ¬ (Instr.mpsadbwMem legacy 0#4 (.sib 0#2 1#4 3#4 .none) 0#8).WellFormed .prot16 ∧
      ¬ (Instr.mpsadbwMem legacy 0#4 (.base 3#4 .none) 0#8).WellFormed .prot16 := by decide

/-! ### Decoding: words written out from the layouts of R53 to R61 -/

/-- E14, E15: prefixes 64H and 67H before format L. -/
theorem test_decode_prefixes :
    decode .mode64 [0x64#8, 0x66#8, 0x0F#8, 0x3A#8, 0x42#8, 0x28#8, 0x02#8] =
        .ok (.mpsadbwMem ⟨[.seg .fs, .opSize], none⟩ 5#4 (.base 0#4 .none) 2#8, []) ∧
      decode .mode64 [0x67#8, 0x66#8, 0x0F#8, 0x3A#8, 0x42#8, 0x28#8, 0x02#8] =
        .ok (.mpsadbwMem ⟨[.addrSize, .opSize], none⟩ 5#4 (.base 0#4 .none) 2#8, []) := ⟨rfl, rfl⟩

/-- E5: `mpsadbw xmm3, xmm4, 0xFD`, and the bytes after it are left. -/
theorem test_decode_mpsadbwReg :
    decode .mode64 [0x66#8, 0x0F#8, 0x3A#8, 0x42#8, 0xDC#8, 0xFD#8, 0x90#8] =
      .ok (.mpsadbwReg legacy 3#4 4#4 0xFD#8, [0x90#8]) := rfl

/-- E11, E12: R13 and RSP as bases. -/
theorem test_decode_mpsadbwMem :
    decode .mode64 [0x66#8, 0x41#8, 0x0F#8, 0x3A#8, 0x42#8, 0x6D#8, 0x00#8, 0x02#8] =
        .ok (.mpsadbwMem ⟨[.opSize], some ⟨false, false, false, true⟩⟩ 5#4 (.base 13#4 (.d8 0#8)) 2#8, []) ∧
      decode .mode64 [0x66#8, 0x0F#8, 0x3A#8, 0x42#8, 0x2C#8, 0x24#8, 0x02#8] =
        .ok (.mpsadbwMem legacy 5#4 (.sib 0#2 4#4 4#4 .none) 2#8, []) := ⟨rfl, rfl⟩

/-- E17: `vmpsadbw xmm3, xmm2, xmm2, 0`. -/
theorem test_decode_vmpsadbw128Reg :
    decode .mode64 [0xC4#8, 0xE3#8, 0x69#8, 0x42#8, 0xDA#8, 0x00#8] =
      .ok (.vmpsadbw128Reg vex 3#4 2#4 2#4 0#8, []) := rfl

/-- E19: `vmpsadbw xmm0, xmm0, [rdi], 1`. -/
theorem test_decode_vmpsadbw128Mem :
    decode .mode64 [0xC4#8, 0xE3#8, 0x79#8, 0x42#8, 0x07#8, 0x01#8] =
      .ok (.vmpsadbw128Mem vex 0#4 0#4 (.base 7#4 .none) 1#8, []) := rfl

/-- E22, and E29 in 32-bit code. -/
theorem test_decode_vmpsadbw256Reg :
    decode .mode64 [0xC4#8, 0xE3#8, 0x65#8, 0x42#8, 0xDB#8, 0x12#8] =
        .ok (.vmpsadbw256Reg vex 3#4 3#4 3#4 0x12#8, []) ∧
      decode .prot32 [0xC4#8, 0xE3#8, 0x75#8, 0x42#8, 0xC2#8, 0x3F#8] =
        .ok (.vmpsadbw256Reg vex 0#4 1#4 2#4 0x3F#8, []) := ⟨rfl, rfl⟩

/-- E23, E24. -/
theorem test_decode_vmpsadbw256Mem :
    decode .mode64 [0xC4#8, 0xE3#8, 0x7D#8, 0x42#8, 0x10#8, 0x21#8] =
        .ok (.vmpsadbw256Mem vex 2#4 0#4 (.base 0#4 .none) 0x21#8, []) ∧
      decode .mode64 [0xC4#8, 0xE3#8, 0x75#8, 0x42#8, 0x06#8, 0x24#8] =
        .ok (.vmpsadbw256Mem vex 0#4 1#4 (.base 6#4 .none) 0x24#8, []) := ⟨rfl, rfl⟩

/-- E28: disp32 alone in 32-bit code; and 16-bit addressing by the table of R60: ModRM 42H is BP+SI and a disp8. -/
theorem test_decode_other_modes :
    decode .prot32 [0x66#8, 0x0F#8, 0x3A#8, 0x42#8, 0x05#8, 0x00#8, 0x10#8, 0x00#8, 0x00#8, 0x07#8] =
        .ok (.mpsadbwMem legacy 0#4 (.disp32 0x1000#32) 7#8, []) ∧
      decode .prot16 [0x66#8, 0x0F#8, 0x3A#8, 0x42#8, 0x42#8, 0xFE#8, 0x07#8] =
        .ok (.mpsadbwMem legacy 0#4 (.base16 2#3 (.d8 0xFE#8)) 7#8, []) ∧
      decode .prot16 [0x66#8, 0x0F#8, 0x3A#8, 0x42#8, 0x06#8, 0x34#8, 0x12#8, 0x07#8] =
        .ok (.mpsadbwMem legacy 0#4 (.disp16 0x1234#16) 7#8, []) := ⟨rfl, rfl, rfl⟩

/-- A SIB byte with `base = 101b` and `mod = 00b`: no base register (R59). -/
theorem test_decode_sib_no_base :
    decode .mode64 [0x66#8, 0x0F#8, 0x3A#8, 0x42#8, 0x04#8, 0x8D#8, 0x10#8, 0x00#8, 0x00#8, 0x00#8, 0x07#8] =
      .ok (.mpsadbwMem legacy 0#4 (.sibNoBase 2#2 1#4 0x10#32) 7#8, []) := rfl

/-- F19, F20, the LES reading of C4H in 32-bit code, and the corner bits of VEX outside 64-bit mode (R54, R67). -/
theorem test_decode_refuses :
    decode .mode64 [0x0F#8, 0x3A#8, 0x42#8, 0xC0#8, 0x00#8] = .error .noMandatory66 ∧
      decode .mode64 [0xF2#8, 0x66#8, 0x0F#8, 0x3A#8, 0x42#8, 0xC0#8, 0x00#8] = .error .repBeforeLegacy ∧
      decode .mode64 [0xC4#8, 0xE3#8, 0x70#8, 0x42#8, 0xC2#8, 0x00#8] = .error .vexOtherPp ∧
      decode .mode64 [0xC4#8, 0xE2#8, 0x71#8, 0x42#8, 0xC2#8, 0x00#8] = .error .vexOtherMap ∧
      decode .mode64 [0xC5#8, 0xF1#8, 0x42#8, 0xC2#8, 0x00#8] = .error .twoByteVex ∧
      decode .prot32 [0xC4#8, 0x43#8, 0x71#8, 0x42#8, 0xC2#8, 0x00#8] = .error .les ∧
      decode .prot32 [0xC4#8, 0xC3#8, 0x71#8, 0x42#8, 0xC2#8, 0x00#8] = .error .vexBOutside64 ∧
      decode .prot32 [0xC4#8, 0xE3#8, 0x31#8, 0x42#8, 0xC2#8, 0x00#8] = .error .vexVvvvOutside64 ∧
      decode .mode64 [0x66#8, 0x0F#8, 0x3A#8, 0x42#8, 0xC1#8] = .error .truncated :=
  ⟨rfl, rfl, rfl, rfl, rfl, rfl, rfl, rfl, rfl⟩

/-- The six rows of spec/opcode_table.json decode to their constructors. -/
theorem test_decodeTableWord :
    [0xC0423A0F66, 0x00423A0F66, 0xC0420103C4, 0x00420103C4, 0xC0420503C4, 0x00420503C4].map
      (fun w => (decodeTableWord 40 w).map Instr.tableRow) = [some 0, some 1, some 2, some 3, some 4, some 5] := by decide

/-- Each of them runs as the first instruction after reset. -/
theorem test_withFetchWord :
    [0xC0423A0F66, 0x00423A0F66, 0xC0420103C4, 0x00420103C4, 0xC0420503C4, 0x00420503C4].map
      (fun w => (stateOf (step (State.reset.withFetchWord 40 w))).map State.rip) =
      [some 0xFFF6#64, some 0xFFF6#64, some 0xFFF6#64, some 0xFFF6#64, some 0xFFF6#64, some 0xFFF6#64] := by decide

/-! ### One step (spec/95_test_vectors.md section 2) -/

/-- L2: the upper half of the destination is kept. -/
theorem test_step_mpsadbwReg :
    after 0#4 (base |> vreg 0#4 (cat valU valA) |> vreg 1#4 valB |> prog [0x66, 0x0F, 0x3A, 0x42, 0xC1, 0x05]) =
      some (BitVec.ofNat 512 (cat valU 0x012E01320136013A013E01420146014A), 0x1006#64) := by decide +kernel

/-- L12: not a wrapped subtraction, and not of signed bytes. -/
theorem test_step_mpsadbwReg_unsigned :
    after 0#4 (base |> vreg 0#4 0x01010101010101010101010101010101 |> vreg 1#4 (2 ^ 128 - 1) |>
        prog [0x66, 0x0F, 0x3A, 0x42, 0xC1, 0x00]) =
      some (0x03F803F803F803F803F803F803F803F8#512, 0x1006#64) := by decide +kernel

/-- L16: the four bytes at 2004H to 2007H, little-endian. -/
theorem test_step_mpsadbwMem :
    after 0#4 (base |> vreg 0#4 valA |> gpr 0#4 0x2000 |> bytes 0x2000 32 valD |>
        prog [0x66, 0x0F, 0x3A, 0x42, 0x00, 0x01]) =
      some (0x01B801BA01BC01BE01C001C201C401C6#512, 0x1006#64) := by decide +kernel

/-- L19: RIP-relative, from the byte after the immediate. -/
theorem test_step_mpsadbwMem_ripRelative :
    after 2#4 (base |> vreg 2#4 valA |> bytes 0x1110 16 valB |>
        prog [0x66, 0x0F, 0x3A, 0x42, 0x15, 0x06, 0x01, 0x00, 0x00, 0x03]) =
      some (0x033E03420346034A034E03520356035A#512, 0x100A#64) := by decide +kernel

/-- X3: the upper half is zeroed, and bits 7:3 of the immediate are ignored. -/
theorem test_step_vmpsadbw128Reg :
    after 0#4 (base |> vreg 0#4 (cat valU valU) |> vreg 1#4 (cat valU valA) |> vreg 2#4 (cat valU valB) |>
        prog [0xC4, 0xE3, 0x71, 0x42, 0xC2, 0xFF]) =
      some (0x032E03320336033A033E03420346034A#512, 0x1006#64) := by decide +kernel

/-- X6: registers 8, 9 and 15. -/
theorem test_step_vmpsadbw128Reg_extended :
    after 8#4 (base |> vreg 15#4 valA |> vreg 9#4 valB |> vreg 8#4 valU |>
        prog [0xC4, 0x43, 0x01, 0x42, 0xC1, 0x02]) =
      some (0x023E02420246024A024E02520256025A#512, 0x1006#64) := by decide +kernel

/-- X7: a misaligned operand. -/
theorem test_step_vmpsadbw128Mem :
    after 0#4 (base |> vreg 0#4 (cat valU valA) |> gpr 7#4 0x2001 |> bytes 0x2001 16 valD |>
        prog [0xC4, 0xE3, 0x79, 0x42, 0x07, 0x01]) =
      some (0x01B801BA01BC01BE01C001C201C401C6#512, 0x1006#64) := by decide +kernel

/-- X8: `[r12+r14*8-8]`. -/
theorem test_step_vmpsadbw128Mem_sib :
    after 4#4 (base |> vreg 5#4 valA |> gpr 12#4 0x3000 |> gpr 14#4 2 |> bytes 0x3008 16 valB |>
        prog [0xC4, 0x83, 0x51, 0x42, 0x64, 0xF4, 0xF8, 0x06]) =
      some (0x022E02320236023A023E02420246024A#512, 0x1008#64) := by decide +kernel

/-- Y3: the two lanes with different selects. -/
theorem test_step_vmpsadbw256Reg :
    after 0#4 (base |> vreg 1#4 valC |> vreg 2#4 valD |> prog [0xC4, 0xE3, 0x75, 0x42, 0xC2, 0x21]) =
      some (0x0180010001A20158010E010001060180011A010002000208013E010001000120#512, 0x1006#64) := by decide +kernel

/-- Y8: one register three times. -/
theorem test_step_vmpsadbw256Reg_same :
    after 3#4 (base |> vreg 3#4 (cat valA valA) |> prog [0xC4, 0xE3, 0x65, 0x42, 0xDB, 0x12]) =
      some (BitVec.ofNat 512 (cat 0x00040008000C001000140018001C0020 0x00040008000C001000140018001C0020),
        0x1006#64) := by decide +kernel

/-- Y9: 32 misaligned bytes. -/
theorem test_step_vmpsadbw256Mem :
    after 2#4 (base |> vreg 0#4 valC |> gpr 0#4 0x2001 |> bytes 0x2001 32 valD |>
        prog [0xC4, 0xE3, 0x7D, 0x42, 0x10, 0x21]) =
      some (0x0180010001A20158010E010001060180011A010002000208013E010001000120#512, 0x1006#64) := by decide +kernel

/-- F14: the upper half of the operand is not mapped. -/
theorem test_step_vmpsadbw256Mem_pageFault :
    raises (step (base |> gpr 0#4 0x2FF0 |> mapped |> prog [0xC4, 0xE3, 0x7D, 0x42, 0x10, 0x21])) =
      some (14, some 4#32) := by decide +kernel

/-! ### What the witnesses are made with -/

theorem next_of {i : Instr} {s : State} (h : (stateOf (exec i s)).isSome = true) : ∃ t, exec i s = .next t := by
  cases he : exec i s with
  | next t => exact ⟨t, rfl⟩
  | fault f => rw [he] at h; cases h
  | refused r => rw [he] at h; cases h

theorem stepNext_of {s : State} (h : (stateOf (step s)).isSome = true) : ∃ t, step s = .next t := by
  cases he : step s with
  | next t => exact ⟨t, rfl⟩
  | fault f => rw [he] at h; cases h
  | refused r => rw [he] at h; cases h

/-- The error code of a page fault. -/
def pageFaultCode (o : Host.Outcome State Fault Refusal) : Option (BitVec 32) :=
  match o with
  | .fault (.pageFault c _) => some c
  | _ => none

theorem pageFault_of {o : Host.Outcome State Fault Refusal} {c : BitVec 32} (h : pageFaultCode o = some c) :
    ∃ a, o = .fault (.pageFault c a) := by
  unfold pageFaultCode at h
  split at h
  · cases h; exact ⟨_, rfl⟩
  · cases h

theorem segFails_of {s : State} {g : SegReg} {ea : Addr} {n : Nat} (hn : 0 < n) (h : (s.segCheck g ea n).isSome = true) :
    s.SegFails g ea n := by
  by_contra hc
  rw [(State.segCheck_eq_none hn).mpr hc] at h
  cases h

/-- Without paging and devices, an operand that passes its segment check reads the bytes that memory holds. -/
theorem operandReads_of {s : State} {i : Instr} {o : MemOp} (ht : s.translation = .off) (hd : s.devices = [])
    (h : s.segCheck (Instr.segOf i s o) (Instr.eaOf i s o) i.operandBytes = none) :
    s.OperandReads i o fun j => s.mem.read (s.byteAddr (Instr.laOf i s o) j).toNat :=
  ⟨(State.segCheck_eq_none (Instr.operandBytes_pos i)).mp h, fun j _ =>
    ⟨_, by simp [State.translate, ht], by simp [State.isDevice, hd], rfl⟩⟩

theorem inv_of {s : State} (h1 : s.mem.wf) (h2 : ∀ n : RegNum, s.readVr n >>> maxVlBits s.maxVl = 0#512)
    (h3 : s.rip.toNat < 2 ^ s.mode.ipBits ∧ ((s.hasAvx2 = true → s.hasAvx = true) ∧ (s.hasAvx = true → s.hasSse41 = true)) ∧
      (s.hasAvx = true → 256 ≤ maxVlBits s.maxVl) ∧ (s.xcr0.getLsbD 2 = true → s.xcr0.getLsbD 1 = true)) : s.Inv := by
  refine ⟨h1, fun n b hb => ?_, h3.1, h3.2.1, h3.2.2.1, h3.2.2.2⟩
  have := congrArg (fun v => v.getLsbD (b - maxVlBits s.maxVl)) (h2 n)
  simpa [BitVec.getLsbD_ushiftRight, show maxVlBits s.maxVl + (b - maxVlBits s.maxVl) = b by omega] using this

/-- Register operands: A and B of spec/95_test_vectors.md, upper halves not zero. -/
def regs : State := base |> vreg 0#4 (cat valU valA) |> vreg 1#4 (cat valU valB) |> vreg 2#4 (cat valB valA)

/-- A memory operand at an aligned address and one byte beyond it, in RAX and RDI. -/
def withMem : State := regs |> gpr 0#4 0x2000 |> gpr 7#4 0x2001 |> bytes 0x2000 8 valD

/-- `mpsadbw xmm0, [rax], 1`. -/
def memL : Instr := .mpsadbwMem legacy 0#4 (.base 0#4 .none) 1#8

/-- `mpsadbw xmm0, [rdi], 1`, misaligned. -/
def memLodd : Instr := .mpsadbwMem legacy 0#4 (.base 7#4 .none) 1#8

/-- `vmpsadbw xmm0, xmm1, [rdi], 1`. -/
def mem128 : Instr := .vmpsadbw128Mem vex 0#4 1#4 (.base 7#4 .none) 1#8

/-- `vmpsadbw ymm0, ymm1, [rdi], 0x21`. -/
def mem256 : Instr := .vmpsadbw256Mem vex 0#4 1#4 (.base 7#4 .none) 0x21#8

/-- `vmpsadbw ymm2, ymm0, [rax], 0x21` (E23). -/
def mem256rax : Instr := .vmpsadbw256Mem vex 2#4 0#4 (.base 0#4 .none) 0x21#8

/-- `mpsadbw xmm5, [rsp], 2` (E12), through SS. -/
def memStack : Instr := .mpsadbwMem legacy 5#4 (.sib 0#2 4#4 4#4 .none) 2#8

def regL : Instr := .mpsadbwReg legacy 0#4 1#4 0#8
def reg128 : Instr := .vmpsadbw128Reg vex 0#4 1#4 2#4 0#8
def reg256 : Instr := .vmpsadbw256Reg vex 0#4 1#4 2#4 0#8

/-- Ten and eleven 66H bytes: 15 and 16 bytes in all (F18, F17). -/
def long (n : Nat) : Instr := .mpsadbwReg ⟨List.replicate n .opSize, none⟩ 0#4 1#4 0#8

/-! ### A witness for the hypotheses of every statement that has some -/

theorem test_witness_DecodeOfEncode :
    (Instr.mpsadbwMem ⟨[.seg .fs, .opSize, .addrSize], some ⟨true, true, true, true⟩⟩ 15#4
        (.sib 3#2 12#4 13#4 (.d8 0xF8#8)) 0xFF#8).WellFormed .mode64 ∧
      (Instr.vmpsadbw256Mem ⟨[.lock, .rex ⟨true, false, false, false⟩], true, true, true, true⟩ 15#4 15#4
        (.sibNoBase 0#2 15#4 0x80000000#32) 0xFF#8).WellFormed .mode64 ∧
      (Instr.vmpsadbw128Reg vex 7#4 7#4 7#4 0x80#8).WellFormed .prot32 ∧
      (Instr.mpsadbwMem legacy 7#4 (.base16 6#3 (.d16 0xFFFF#16)) 0#8).WellFormed .real := by decide

theorem test_witness_EncodeOfDecode :
    ∃ i rest, decode .mode64 [0x66#8, 0x48#8, 0x0F#8, 0x3A#8, 0x42#8, 0xC1#8, 0x00#8] = .ok (i, rest) := ⟨_, _, rfl⟩

/-- The shortest encoding, six bytes, and one with a byte left over. -/
theorem test_witness_DecodedLength :
    (∃ i rest, decode .mode64 [0xC4#8, 0xE3#8, 0xF5#8, 0x42#8, 0xC2#8, 0x3F#8] = .ok (i, rest)) ∧
      ∃ i rest, decode .mode64 [0xC4#8, 0xE3#8, 0xF5#8, 0x42#8, 0xC2#8, 0x3F#8, 0x00#8] = .ok (i, rest) :=
  ⟨⟨_, _, rfl⟩, ⟨_, _, rfl⟩⟩

/-- One program for each clause: no 66H, F2H beside 66H, F3H in its place, another pp, another map, 62H, C5H. -/
theorem test_witness_NeighbourEncodingsRefused :
    (∀ b ∈ [0xF2#8, 0x66#8, 0xF3#8, 0x48#8], Prefix.ofByte .mode64 b ≠ none) ∧
      ((base |> prog [0x0F, 0x3A, 0x42, 0xC0, 0]).atEnd = false ∧
        (base |> prog [0x0F, 0x3A, 0x42, 0xC0, 0]).fetchBytes = [] ++ [0x0F#8, 0x3A#8, 0x42#8] ++ [0xC0#8, 0#8]) ∧
      (base |> prog [0xF2, 0x66, 0x0F, 0x3A, 0x42, 0xC0, 0]).fetchBytes =
        [0xF2#8, 0x66#8] ++ [0x0F#8, 0x3A#8, 0x42#8] ++ [0xC0#8, 0#8] ∧
      (base |> prog [0xF3, 0x48, 0x0F, 0x3A, 0x42, 0xC0, 0]).fetchBytes =
        [0xF3#8, 0x48#8] ++ [0x0F#8, 0x3A#8, 0x42#8] ++ [0xC0#8, 0#8] ∧
      ((base |> prog [0xC4, 0xE3, 0x70, 0x42, 0xC2, 0]).fetchBytes = [] ++ [0xC4#8, 0xE3#8, 0x70#8] ++ [0x42#8, 0xC2#8, 0#8] ∧
        (0x70#8).extractLsb' 0 2 ≠ 1#2) ∧
      ((base |> prog [0xC4, 0xE2, 0x71, 0x42, 0xC2, 0]).fetchBytes = [] ++ [0xC4#8, 0xE2#8, 0x71#8] ++ [0x42#8, 0xC2#8, 0#8] ∧
        (0xE2#8).extractLsb' 0 5 ≠ 3#5) ∧
      (base |> prog [0x62, 0, 0]).fetchBytes = [] ++ [0x62#8] ++ [0#8, 0#8] ∧
      (base |> prog [0xC5, 0xF1]).fetchBytes = [] ++ [0xC5#8] ++ [0xF1#8] := by decide +kernel

/-- Two lanes that differ only in byte 15 and in a byte outside block_2; windows of words 0 and 7. -/
theorem test_witness_LaneFunctionWords :
    (∀ k < 11, byteOf (0xFF000000000000000000000000000000#128) (4 * (1#1).toNat + k) = byteOf (0#128) (4 * (1#1).toNat + k)) ∧
      (∀ k < 4, byteOf (0xFF#128) (4 * (3#2).toNat + k) = byteOf (0#128) (4 * (3#2).toNat + k)) ∧
      (0 < 8 ∧ 7 < 8) := by decide

theorem test_witness_LaneArithmeticExact :
    (0#8).toNat ≤ (255#8).toNat ∧ absDiff 0#8 255#8 = 255 ∧ (10 ≤ 10 ∧ 15 < 16) := by decide

/-- Register and memory rows of the legacy form, the register row at the longest length, 15 bytes. -/
theorem test_witness_LegacyRegisterResult :
    regs.LegacyReady ⟨List.replicate 10 .opSize, none⟩ (long 10).len ∧ (long 10).len = 15 ∧
      regs.LegacyReady legacy regL.len := by
  unfold State.LegacyReady
  decide

theorem test_witness_LegacyMemoryResult :
    withMem.LegacyReady legacy memL.len ∧
      (withMem.OperandReads memL (.base 0#4 .none) fun j =>
        withMem.mem.read (withMem.byteAddr (Instr.laOf memL withMem (.base 0#4 .none)) j).toNat) ∧
      (Instr.laOf memL withMem (.base 0#4 .none)).toNat % 16 = 0 :=
  ⟨by unfold State.LegacyReady; decide, operandReads_of rfl rfl (by decide +kernel), by decide⟩

theorem test_witness_Vex128RegisterResult : regs.VexReady regs.hasAvx vex reg128.len := by
  exact (vexReady_iff _ _ _ _).mpr ((preCheck_eq_none_iff regs reg128).mp (by decide))

theorem test_witness_Vex128MemoryResult :
    withMem.VexReady withMem.hasAvx vex mem128.len ∧
      withMem.OperandReads mem128 (.base 7#4 .none) fun j =>
        withMem.mem.read (withMem.byteAddr (Instr.laOf mem128 withMem (.base 7#4 .none)) j).toNat :=
  ⟨(vexReady_iff _ _ _ _).mpr ((preCheck_eq_none_iff withMem mem128).mp (by decide)),
    operandReads_of rfl rfl (by decide +kernel)⟩

theorem test_witness_Vex256RegisterResult : regs.VexReady regs.hasAvx2 vex reg256.len :=
  (vexReady_iff _ _ _ _).mpr ((preCheck_eq_none_iff regs reg256).mp (by decide))

theorem test_witness_Vex256MemoryResult :
    withMem.VexReady withMem.hasAvx2 vex mem256.len ∧
      withMem.OperandReads mem256 (.base 7#4 .none) fun j =>
        withMem.mem.read (withMem.byteAddr (Instr.laOf mem256 withMem (.base 7#4 .none)) j).toNat :=
  ⟨(vexReady_iff _ _ _ _).mpr ((preCheck_eq_none_iff withMem mem256).mp (by decide)),
    operandReads_of rfl rfl (by decide +kernel)⟩

/-- All three forms complete, a state whose low lanes are the upper ones, immediates that differ in ignored bits, and a
window equal to block_2 (both are A, window 0). -/
theorem test_witness_FormsAgree :
    regs.LegacyReady legacy (Instr.mpsadbwReg legacy 0#4 2#4 0#8).len ∧
      regs.VexReady regs.hasAvx vex (Instr.vmpsadbw128Reg vex 0#4 0#4 2#4 0#8).len ∧ regs.hasAvx2 = true ∧
      ((vreg 0#4 valU (vreg 2#4 valB regs)).xmm 0#4 = (regs.ymm 0#4).extractLsb' 128 128 ∧
        (vreg 0#4 valU (vreg 2#4 valB regs)).xmm 2#4 = (regs.ymm 2#4).extractLsb' 128 128) ∧
      (∃ t', exec (.vmpsadbw128Reg vex 0#4 0#4 2#4 (0#8 >>> 3)) (vreg 0#4 valU (vreg 2#4 valB regs)) = .next t') ∧
      (0xF8#8).toNat % 8 = (0#8).toNat % 8 ∧ (0xC0#8).toNat % 64 = (0#8).toNat % 64 ∧
      ∀ k < 4, regs.vrByte 0#4 (4 * ((0#8).toNat / 4 % 2) + 0 + k) = regs.vrByte 2#4 (4 * ((0#8).toNat % 4) + k) :=
  ⟨by unfold State.LegacyReady; decide,
    (vexReady_iff _ _ _ _).mpr ((preCheck_eq_none_iff regs (.vmpsadbw128Reg vex 0#4 0#4 2#4 0#8)).mp (by decide)), rfl,
    by decide +kernel, next_of (by decide +kernel), by decide, by decide, by decide +kernel⟩

theorem test_witness_ImmediateIgnoredBits :
    (0xFD#8).toNat % 8 = (5#8).toNat % 8 ∧ (0xE1#8).toNat % 64 = (0x21#8).toNat % 64 := by decide

/-- The three register rows on a state that meets the invariant, destination and sources one register. -/
theorem test_witness_PageOperationsRefined :
    regs.Inv ∧ (∃ t, exec (.mpsadbwReg legacy 0#4 0#4 5#8) regs = .next t) ∧
      (∃ t, exec (.vmpsadbw128Reg vex 0#4 0#4 0#4 5#8) regs = .next t) ∧
      ∃ t, exec (.vmpsadbw256Reg vex 0#4 0#4 0#4 0x2D#8) regs = .next t :=
  ⟨inv_of (by decide) (by decide +kernel) (by decide +kernel), next_of (by decide +kernel), next_of (by decide +kernel),
    next_of (by decide +kernel)⟩

theorem test_witness_IntrinsicsAreTheInstruction :
    (∃ t, exec (.mpsadbwReg legacy 0#4 1#4 ((0x7FFFFF05#32).setWidth 8)) regs = .next t) ∧
      (∃ t, exec (.vmpsadbw128Reg vex 0#4 1#4 2#4 ((5#32).setWidth 8)) regs = .next t) ∧
      ∃ t, exec (.vmpsadbw256Reg vex 0#4 1#4 2#4 ((0x21#32).setWidth 8)) regs = .next t :=
  ⟨next_of (by decide +kernel), next_of (by decide +kernel), next_of (by decide +kernel)⟩

theorem test_witness_VexOldDestinationIrrelevant : (0#4 : RegNum) ≠ 1#4 ∧ (0#4 : RegNum) ≠ 2#4 := by decide

/-- Each of the six rows completes from these states. -/
theorem test_witness_CompletedInstructionFrame :
    (∃ t, exec regL regs = .next t) ∧ (∃ t, exec memL withMem = .next t) ∧ (∃ t, exec reg128 regs = .next t) ∧
      (∃ t, exec mem128 withMem = .next t) ∧ (∃ t, exec reg256 regs = .next t) ∧ ∃ t, exec mem256 withMem = .next t :=
  ⟨next_of (by decide +kernel), next_of (by decide +kernel), next_of (by decide +kernel), next_of (by decide +kernel),
    next_of (by decide +kernel), next_of (by decide +kernel)⟩

/-- Memory changed at 2003H and 2008H, on both sides of block_2 at 2004H to 2007H. -/
theorem test_witness_OnlyTheBlocksMatter :
    memL.memOp = some (.base 0#4 .none) ∧
      (∀ j < memL.operandBytes, inBlock memL j → ∀ p,
        withMem.translate (withMem.byteAddr (Instr.laOf memL withMem (.base 0#4 .none)) j) = .ok p →
        ((withMem.mem.write 0x2003 0xEE#8).write 0x2008 0xEE#8).read p = withMem.mem.read p) ∧
      ((withMem.mem.write 0x2003 0xEE#8).write 0x2008 0xEE#8).read 0x2003 ≠ withMem.mem.read 0x2003 := by
  refine ⟨rfl, fun j hj hb p hp => ?_, by decide +kernel⟩
  have hj' : 4 ≤ j ∧ j < 8 := by
    rcases hb with h | h
    · have : memL.imm8.toNat % 4 = 1 := by decide
      omega
    · exact absurd h.1 (by decide)
  have e : withMem.translate (withMem.byteAddr (Instr.laOf memL withMem (.base 0#4 .none)) j) = .ok (0x2000 + j) := by
    obtain ⟨h1, h2⟩ := hj'
    interval_cases j <;> rfl
  rw [e] at hp
  cases hp
  rw [Memory.read_write_other _ (by omega), Memory.read_write_other _ (by omega)]

/-- The 256-bit form at 2001H: block_2 is at 2005H and block_4 at 2011H (imm8 = 21H); memory changed on both sides of
block_4. -/
theorem test_witness_OnlyTheBlocksMatter_256 :
    mem256.memOp = some (.base 7#4 .none) ∧
      (∀ j < mem256.operandBytes, inBlock mem256 j → ∀ p,
        withMem.translate (withMem.byteAddr (Instr.laOf mem256 withMem (.base 7#4 .none)) j) = .ok p →
        ((withMem.mem.write 0x2010 0xEE#8).write 0x2015 0xEE#8).read p = withMem.mem.read p) ∧
      (inBlock mem256 16 ∧ inBlock mem256 19) ∧
      ((withMem.mem.write 0x2010 0xEE#8).write 0x2015 0xEE#8).read 0x2015 ≠ withMem.mem.read 0x2015 := by
  have h2 : mem256.imm8.toNat % 4 = 1 := by decide
  have h4 : mem256.imm8.toNat / 8 % 4 = 0 := by decide
  refine ⟨rfl, fun j hj hb p hp => ?_, ⟨.inr ⟨rfl, by omega, by omega⟩, .inr ⟨rfl, by omega, by omega⟩⟩,
    by decide +kernel⟩
  have hj' : (4 ≤ j ∧ j < 8) ∨ (16 ≤ j ∧ j < 20) := by
    rcases hb with h | ⟨-, h⟩ <;> omega
  have e : withMem.translate (withMem.byteAddr (Instr.laOf mem256 withMem (.base 7#4 .none)) j) = .ok (0x2001 + j) := by
    rcases hj' with ⟨h1, h2⟩ | ⟨h1, h2⟩ <;> interval_cases j <;> rfl
  rw [e] at hp
  cases hp
  rw [Memory.read_write_other _ (by omega), Memory.read_write_other _ (by omega)]

/-- A paged state in which a memory form completes at CPL 3 and its bytes are readable at CPL 0; a register form where
everything is denied. -/
theorem test_witness_PrivilegeLevelIrrelevant :
    (mem128.memOp = some (.base 7#4 .none) ∧
      (∀ j < mem128.operandBytes, ∃ p, ({ mapped withMem with cpl := 0#2 } : State).translate
        ((mapped withMem).byteAddr (Instr.laOf mem128 (mapped withMem) (.base 7#4 .none)) j) = .ok p) ∧
      ∃ t, exec mem128 (mapped withMem) = .next t) ∧
      (regL.memOp = none ∧ ∃ t, exec regL (denied .protection withMem) = .next t) := by
  refine ⟨⟨rfl, fun j hj => ⟨0x2001 + j, ?_⟩, next_of (by decide +kernel)⟩, rfl, next_of (by decide +kernel)⟩
  have : j < 16 := hj
  interval_cases j <;> rfl

theorem test_witness_ExceptionsIndependentOfData :
    exec memLodd withMem = .fault .generalProtection ∧ exec regL { regs with cr0 := 4#64 } = .fault .invalidOpcode :=
  ⟨rfl, rfl⟩

/-- F3, F4, F5, F9, F10 and a VEX form in real-address mode: a cause of each row. -/
theorem test_witness_InvalidOpcodeCauses :
    regL.len ≤ 15 ∧ ({ regs with part := .sse false .v256 } : State).UdCause regL ∧ ({ regs with cr0 := 4#64 } : State).UdCause regL ∧
      ({ regs with cr4 := 0x40000#64 } : State).UdCause regL ∧ (noAvx regs).UdCause reg128 ∧
      ({ regs with cr4 := 0x200#64 } : State).UdCause reg128 ∧ ({ regs with xcr0 := 3#64 } : State).UdCause reg128 ∧
      regs.UdCause (.mpsadbwReg ⟨[.lock, .opSize], none⟩ 0#4 0#4 0#8) ∧
      regs.UdCause (.vmpsadbw128Reg ⟨[.opSize], false, false, false, false⟩ 0#4 0#4 0#4 0#8) ∧
      ({ regs with mode := .real } : State).UdCause reg256 ∧ (noAvx2 regs).UdCause reg256 ∧
      ¬ regs.UdCause regL := by
  refine ⟨by decide, ?_⟩
  simp only [← udOf_iff]
  decide

theorem test_witness_VexL1NeedsAvx2 :
    ((noAvx2 regs).hasAvx2 = false ∧ reg256.len ≤ 15 ∧ mem256.len ≤ 15) ∧
      (({ regs with cr4 := 0#64 } : State).hasAvx2 = true ∧
        exec reg256 { regs with cr4 := 0#64 } = .fault .invalidOpcode) :=
  ⟨by decide, rfl, rfl⟩

/-- F7: CR0.TS = 1 and no cause of `#UD`. -/
theorem test_witness_DeviceNotAvailableCause :
    regL.len ≤ 15 ∧ ¬ ({ regs with cr0 := 8#64 } : State).UdCause regL ∧
      ({ regs with cr0 := 8#64 } : State).cr0.getLsbD 3 = true := by
  refine ⟨by decide, ?_, by decide⟩
  rw [← udOf_iff]
  decide

/-- F13 at the first non-canonical address, and in 32-bit code one byte beyond the limit of SS. -/
theorem test_witness_StackSegmentCauses :
    ((gpr 4#4 0x800000000000 regs).Decodable memStack ∧ Instr.segOf memStack (gpr 4#4 0x800000000000 regs)
        (.sib 0#2 4#4 4#4 .none) = .ss ∧
      (gpr 4#4 0x800000000000 regs).SegFails .ss (Instr.eaOf memStack (gpr 4#4 0x800000000000 regs) (.sib 0#2 4#4 4#4 .none))
        memStack.operandBytes) ∧
      (({ gpr 4#4 0xFFF1 regs with mode := .prot32 } : State).Decodable memStack ∧
        ({ gpr 4#4 0xFFF1 regs with mode := .prot32 } : State).SegFails .ss
          (Instr.eaOf memStack { gpr 4#4 0xFFF1 regs with mode := .prot32 } (.sib 0#2 4#4 4#4 .none)) memStack.operandBytes) :=
  ⟨⟨(preCheck_eq_none_iff _ _).mp (by decide), by decide, segFails_of (by decide) (by decide +kernel)⟩,
    (preCheck_eq_none_iff _ _).mp (by decide), segFails_of (by decide) (by decide +kernel)⟩

/-- A non-canonical operand in 64-bit mode: on RSP it goes through SS, with override 3EH or 2EH or 26H through DS, CS or ES
(R36), and with 36H through SS; on RAX with 36H through DS (R103, R104 c). -/
theorem test_step_override_nonCanonical :
    [[0x3E], [0x2E], [0x26], [0x36], []].map (fun ps =>
      raises (step (base |> gpr 4#4 0x800000000000 |> prog (ps ++ [0x66, 0x0F, 0x3A, 0x42, 0x2C, 0x24, 0x02])))) =
      [some (13, some 0#32), some (13, some 0#32), some (13, some 0#32), some (12, some 0#32), some (12, some 0#32)] ∧
    raises (step (base |> gpr 0#4 0x800000000000 |> prog [0x36, 0x66, 0x0F, 0x3A, 0x42, 0x28, 0x02])) =
      some (13, some 0#32) := by decide +kernel

/-- An expand-down segment that begins at 1000H: the offset below is outside it, and 16 bytes from there are not; and a null
selector in DS and in SS (R36, R103, R104). -/
theorem test_segCheck_expandDown_and_null :
    ({ regs with mode := .prot32, ds := ⟨8#16, 0#64, 0xFFFFFFFF#32, [⟨0, 0xFFF⟩], true, false⟩ } : State).segCheck .ds
        0xFFF#64 16 = some .generalProtection ∧
      ({ regs with mode := .prot32, ds := ⟨8#16, 0#64, 0xFFFFFFFF#32, [⟨0, 0xFFF⟩], true, false⟩ } : State).segCheck .ds
        0x1000#64 16 = none ∧
      ({ regs with mode := .prot32, ds := ⟨0#16, 0#64, 0xFFFF#32, [], true, true⟩ } : State).segCheck .ds 0#64 16 =
        some .generalProtection ∧
      ({ regs with mode := .prot32, ss := ⟨0#16, 0#64, 0xFFFF#32, [], true, true⟩ } : State).segCheck .ss 0#64 16 =
        some .stackSegment := by decide

/-- F17, F11, F12, F1, and in real-address mode the last byte of an operand at 10000H. -/
theorem test_witness_GeneralProtectionCauses :
    15 < (long 11).len ∧
      ((gpr 7#4 0x800000000000 regs).Decodable mem128 ∧ (gpr 7#4 0x800000000000 regs).SegFails
        (Instr.segOf mem128 (gpr 7#4 0x800000000000 regs) (.base 7#4 .none))
        (Instr.eaOf mem128 (gpr 7#4 0x800000000000 regs) (.base 7#4 .none)) mem128.operandBytes) ∧
      ((gpr 7#4 0x7FFFFFFFFFF8 regs).SegFails (Instr.segOf mem128 (gpr 7#4 0x7FFFFFFFFFF8 regs) (.base 7#4 .none))
        (Instr.eaOf mem128 (gpr 7#4 0x7FFFFFFFFFF8 regs) (.base 7#4 .none)) mem128.operandBytes) ∧
      (withMem.Decodable memLodd ∧ ¬ withMem.SegFails (Instr.segOf memLodd withMem (.base 7#4 .none))
        (Instr.eaOf memLodd withMem (.base 7#4 .none)) memLodd.operandBytes ∧
        (Instr.laOf memLodd withMem (.base 7#4 .none)).toNat % 16 ≠ 0) ∧
      ({ regs with mode := .real } : State).SegFails .ds 0xFFF1#64 16 :=
  ⟨by decide, ⟨(preCheck_eq_none_iff _ _).mp (by decide), segFails_of (by decide) (by decide +kernel)⟩,
    segFails_of (by decide) (by decide +kernel),
    ⟨(preCheck_eq_none_iff _ _).mp (by decide), (State.segCheck_eq_none (by decide)).mp (by decide +kernel), by decide⟩,
    segFails_of (by decide) (by decide +kernel)⟩

/-- F14: bytes 0 to 15 translate, byte 16 at 3000H does not. -/
theorem test_witness_PageFaultOfLowestByte :
    (mapped (gpr 0#4 0x2FF0 regs)).Decodable mem256rax ∧ mem256rax.memOp = some (.base 0#4 .none) ∧
      ¬ (mapped (gpr 0#4 0x2FF0 regs)).SegFails (Instr.segOf mem256rax (mapped (gpr 0#4 0x2FF0 regs)) (.base 0#4 .none))
        (Instr.eaOf mem256rax (mapped (gpr 0#4 0x2FF0 regs)) (.base 0#4 .none)) mem256rax.operandBytes ∧
      16 < mem256rax.operandBytes ∧
      (∀ k < 16, ∃ p, (mapped (gpr 0#4 0x2FF0 regs)).translate ((mapped (gpr 0#4 0x2FF0 regs)).byteAddr
        (Instr.laOf mem256rax (mapped (gpr 0#4 0x2FF0 regs)) (.base 0#4 .none)) k) = .ok p) ∧
      (mapped (gpr 0#4 0x2FF0 regs)).translate ((mapped (gpr 0#4 0x2FF0 regs)).byteAddr
        (Instr.laOf mem256rax (mapped (gpr 0#4 0x2FF0 regs)) (.base 0#4 .none)) 16) = .error 4#32 := by
  refine ⟨(preCheck_eq_none_iff _ _).mp (by decide), rfl, (State.segCheck_eq_none (by decide)).mp (by decide +kernel),
    by decide, fun k hk => ⟨0x2FF0 + k, ?_⟩, rfl⟩
  interval_cases k <;> rfl

/-- Page faults of every kind: not mapped at CPL 3 and 0, a region not present, a protection violation, a reserved bit with
P = 0 and P = 1, a protection key; and F14, an operand whose first sixteen bytes translate. -/
theorem test_witness_PageFaultErrorCode :
    (∃ a, exec mem128 (mapped (gpr 7#4 0x3000 regs)) = .fault (.pageFault 4#32 a)) ∧
      (∃ a, exec mem128 { mapped (gpr 7#4 0x3000 regs) with cpl := 0#2 } = .fault (.pageFault 0#32 a)) ∧
      (∃ a, exec mem128 (deniedAt3 .notPresent withMem) = .fault (.pageFault 4#32 a)) ∧
      (∃ a, exec mem128 (deniedAt3 .protection withMem) = .fault (.pageFault 5#32 a)) ∧
      (∃ a, exec mem128 { denied .protection withMem with cpl := 0#2 } = .fault (.pageFault 1#32 a)) ∧
      (∃ a, exec mem128 (denied (.reservedBit false) withMem) = .fault (.pageFault 12#32 a)) ∧
      (∃ a, exec mem128 (denied (.reservedBit true) withMem) = .fault (.pageFault 13#32 a)) ∧
      (∃ a, exec mem128 (denied .key withMem) = .fault (.pageFault 37#32 a)) ∧
      ∃ a, exec mem256rax (mapped (gpr 0#4 0x2FF0 regs)) = .fault (.pageFault 4#32 a) := by
  refine ⟨?_, ?_, ?_, ?_, ?_, ?_, ?_, ?_, ?_⟩ <;> exact pageFault_of (by decide +kernel)

/-- F17 and F18 for the length, F8 for `#UD` before `#NM`, F7 for `#NM`, F12 for the canonical check, F15 for the alignment
before the page fault, F14 for the page fault. -/
theorem test_witness_ExceptionPriority :
    (15 < (long 11).len ∧ (long 10).len ≤ 15) ∧
      (reg128.len ≤ 15 ∧ ({ regs with cr0 := 8#64, cr4 := 0#64 } : State).UdCause reg128 ∧
        ({ regs with cr0 := 8#64, cr4 := 0#64 } : State).cr0.getLsbD 3 = true) ∧
      (¬ ({ regs with cr0 := 8#64 } : State).UdCause regL ∧ ({ regs with cr0 := 8#64 } : State).cr0.getLsbD 3 = true) ∧
      ((gpr 7#4 0x7FFFFFFFFFF8 regs).Decodable mem128 ∧
        (gpr 7#4 0x7FFFFFFFFFF8 regs).SegFails (Instr.segOf mem128 (gpr 7#4 0x7FFFFFFFFFF8 regs) (.base 7#4 .none))
          (Instr.eaOf mem128 (gpr 7#4 0x7FFFFFFFFFF8 regs) (.base 7#4 .none)) mem128.operandBytes) ∧
      ((mapped (gpr 0#4 0x2FF8 regs)).Decodable memL ∧
        ¬ (mapped (gpr 0#4 0x2FF8 regs)).SegFails (Instr.segOf memL (mapped (gpr 0#4 0x2FF8 regs)) (.base 0#4 .none))
          (Instr.eaOf memL (mapped (gpr 0#4 0x2FF8 regs)) (.base 0#4 .none)) memL.operandBytes ∧
        (Instr.laOf memL (mapped (gpr 0#4 0x2FF8 regs)) (.base 0#4 .none)).toNat % 16 ≠ 0) ∧
      ((mapped (gpr 0#4 0x3000 regs)).Decodable memL ∧
        ¬ (mapped (gpr 0#4 0x3000 regs)).SegFails (Instr.segOf memL (mapped (gpr 0#4 0x3000 regs)) (.base 0#4 .none))
          (Instr.eaOf memL (mapped (gpr 0#4 0x3000 regs)) (.base 0#4 .none)) memL.operandBytes ∧
        (Instr.laOf memL (mapped (gpr 0#4 0x3000 regs)) (.base 0#4 .none)).toNat % 16 = 0 ∧
        (mapped (gpr 0#4 0x3000 regs)).translate ((mapped (gpr 0#4 0x3000 regs)).byteAddr
          (Instr.laOf memL (mapped (gpr 0#4 0x3000 regs)) (.base 0#4 .none)) 0) = .error 4#32) := by
  refine ⟨by decide, ⟨by decide, ?_, by decide⟩, ⟨?_, by decide⟩,
    ⟨(preCheck_eq_none_iff _ _).mp (by decide), segFails_of (by decide) (by decide +kernel)⟩,
    ⟨(preCheck_eq_none_iff _ _).mp (by decide), (State.segCheck_eq_none (by decide)).mp (by decide +kernel), by decide⟩,
    (preCheck_eq_none_iff _ _).mp (by decide), (State.segCheck_eq_none (by decide)).mp (by decide +kernel), by decide, rfl⟩
  all_goals rw [← udOf_iff]; decide

/-- The last byte of the operand alone fails: byte 31 at 3000H, and in 64-bit mode byte 15 not canonical. -/
theorem test_witness_EveryOperandByteChecked :
    mem256rax.memOp = some (.base 0#4 .none) ∧ 31 < mem256rax.operandBytes ∧
      (mapped (gpr 0#4 0x2FE1 regs)).translate ((mapped (gpr 0#4 0x2FE1 regs)).byteAddr
        (Instr.laOf mem256rax (mapped (gpr 0#4 0x2FE1 regs)) (.base 0#4 .none)) 31) = .error 4#32 ∧
      (gpr 7#4 0x7FFFFFFFFFF1 regs).SegFails (Instr.segOf mem128 (gpr 7#4 0x7FFFFFFFFFF1 regs) (.base 7#4 .none))
        (Instr.eaOf mem128 (gpr 7#4 0x7FFFFFFFFFF1 regs) (.base 7#4 .none)) mem128.operandBytes :=
  ⟨rfl, by decide, rfl, segFails_of (by decide) (by decide +kernel)⟩

/-- One address 2001H: the legacy form is misaligned there and the VEX forms read it. -/
theorem test_witness_AlignmentRule :
    (withMem.Decodable memLodd ∧ memLodd.isLegacy = true ∧
      ¬ withMem.SegFails (Instr.segOf memLodd withMem (.base 7#4 .none)) (Instr.eaOf memLodd withMem (.base 7#4 .none))
        memLodd.operandBytes ∧ (Instr.laOf memLodd withMem (.base 7#4 .none)).toNat % 16 ≠ 0) ∧
      (withMem.Decodable mem256 ∧ mem256.isLegacy = false ∧
        withMem.OperandReads mem256 (.base 7#4 .none) fun j =>
          withMem.mem.read (withMem.byteAddr (Instr.laOf mem256 withMem (.base 7#4 .none)) j).toNat) :=
  ⟨⟨(preCheck_eq_none_iff _ _).mp (by decide), rfl, (State.segCheck_eq_none (by decide)).mp (by decide +kernel), by decide⟩,
    (preCheck_eq_none_iff _ _).mp (by decide), rfl, operandReads_of rfl rfl (by decide +kernel)⟩

theorem test_witness_ExceptionIdentity :
    Fault.invalidOpcode.vector ≠ 14 ∧ (regs.atFault (.pageFault 4#32 0x3000#64)).cr2 = 0x3000#64 := by decide

/-- P-D step 2, and a page fault. -/
theorem test_witness_FaultChangesNothing :
    step (withMem |> prog [0x66, 0x0F, 0x3A, 0x42, 0x07, 0x00]) = .fault .generalProtection ∧
      ∃ a, step (regs |> gpr 0#4 0x3000 |> mapped |> prog [0x66, 0x0F, 0x3A, 0x42, 0x00, 0x00]) =
        .fault (.pageFault 4#32 a) :=
  ⟨rfl, pageFault_of (by decide +kernel)⟩

/-- A window just below and just above the operand of `mem128` at 2001H to 2010H; and what is raised. -/
theorem test_witness_CompletesOrRaises :
    (∀ j < mem128.operandBytes, ∀ p,
      ({ withMem with devices := [⟨0x2000, 1⟩, ⟨0x2011, 1⟩] } : State).translate
        (({ withMem with devices := [⟨0x2000, 1⟩, ⟨0x2011, 1⟩] } : State).byteAddr
          (Instr.laOf mem128 { withMem with devices := [⟨0x2000, 1⟩, ⟨0x2011, 1⟩] } (.base 7#4 .none)) j) = .ok p →
      ({ withMem with devices := [⟨0x2000, 1⟩, ⟨0x2011, 1⟩] } : State).isDevice p = false) ∧
      exec memLodd withMem = .fault .generalProtection ∧
      exec mem128 { withMem with devices := [⟨0x2010, 1⟩] } = .refused .deviceMemory := by
  refine ⟨fun j hj p hp => ?_, rfl, by rfl⟩
  have h16 : j < 16 := hj
  interval_cases j <;> (cases hp; decide)

/-- Both modes; the legacy form ready in each, at the longest length. -/
theorem test_witness_RealAndVirtualMode :
    (long 10).len ≤ 15 ∧ reg256.isLegacy = false ∧
      ({ regs with mode := .real } : State).LegacyReady ⟨List.replicate 10 .opSize, none⟩ (long 10).len ∧
      ({ regs with mode := .v8086 } : State).LegacyReady ⟨List.replicate 10 .opSize, none⟩ (long 10).len := by
  unfold State.LegacyReady
  decide

/-- A negative disp8 below register 0 wraps at each address size; and disp32 alone in 32-bit code (E28). -/
theorem test_witness_BaseAddress :
    (({ regs with mode := .prot32 } : State).mode ≠ .mode64) ∧
      ((gpr 0#4 0 regs).effAddr .a32 7 (.base 0#4 (.d8 0xF8#8)) = 0xFFFFFFF8#64) ∧
      ((gpr 0#4 0 regs).effAddr .a64 7 (.base 0#4 (.d8 0xF8#8)) = 0xFFFFFFFFFFFFFFF8#64) ∧
      (({ regs with mode := .prot32 } : State).effAddr .a32 10 (.disp32 0x1000#32) = 0x1000#64) := by decide

/-- Index 0100b is none; 1100b, with X = 1, is R12; X8 of the test vectors, `[r12+r14*8-8]`. -/
theorem test_witness_SibAddress :
    (12#4 : RegNum) ≠ 4#4 ∧
      (gpr 12#4 0x3000 (gpr 14#4 2 regs)).effAddr .a64 8 (.sib 3#2 14#4 12#4 (.d8 0xF8#8)) = 0x3008#64 := by decide

/-- With 67H and without, in 64-bit and in 16-bit code. -/
theorem test_witness_AddressSize :
    (Prefix.addrSize ∉ memL.prefixes) ∧
      (Prefix.addrSize ∈ (Instr.mpsadbwMem ⟨[.addrSize, .opSize], none⟩ 5#4 (.base 0#4 .none) 2#8).prefixes) ∧
      addrSizeOf .prot16 [.addrSize, .addrSize] = .a32 ∧ addrSizeOf .mode64 [.addrSize] = .a32 := by decide

theorem test_witness_RipRelativeAddress :
    regs.mode = .mode64 ∧
      ((Instr.mpsadbwMem legacy 2#4 (.disp32 0x106#32) 3#8).memOp = some (.disp32 0x106#32) ∧
        Prefix.addrSize ∉ (Instr.mpsadbwMem legacy 2#4 (.disp32 0x106#32) 3#8).prefixes ∧
        ∀ g, Prefix.seg g ∉ (Instr.mpsadbwMem legacy 2#4 (.disp32 0x106#32) 3#8).prefixes) ∧
      ((Instr.vmpsadbw128Mem ⟨[.addrSize], false, false, false, false⟩ 2#4 1#4 (.disp32 0x80000000#32) 3#8).memOp =
          some (.disp32 0x80000000#32) ∧
        Prefix.addrSize ∈ (Instr.vmpsadbw128Mem ⟨[.addrSize], false, false, false, false⟩ 2#4 1#4
          (.disp32 0x80000000#32) 3#8).prefixes) ∧
      ({ regs with rip := 0#64 } : State).rip = 0#64 ∧
      decode .mode64 [0x66#8, 0x0F#8, 0x3A#8, 0x42#8, 0x15#8, 0x06#8, 0x01#8, 0x00#8, 0x00#8, 0x03#8] =
        .ok (.mpsadbwMem legacy 2#4 (.disp32 0x106#32) 3#8, []) :=
  ⟨rfl, ⟨rfl, by decide, fun g => by simp [Instr.prefixes, legacy]⟩, ⟨rfl, by decide⟩, rfl, rfl⟩

/-- R12, whose low bits are those of RSP; no override; one override, alone and twice; SS alone; FS beside ES, GS beside SS,
FS beside GS; ES beside SS. -/
theorem test_witness_OperandSegment :
    ((12#4 : RegNum) ≠ 4#4 ∧ (12#4 : RegNum) ≠ 5#4) ∧ (∀ g, Prefix.seg g ∉ [Prefix.opSize]) ∧
      (Prefix.seg .fs ∈ [Prefix.seg .fs, .opSize, .seg .fs] ∧
        ∀ h, Prefix.seg h ∈ [Prefix.seg .fs, .opSize, .seg .fs] → h = .fs) ∧
      (Prefix.seg .es ∈ [Prefix.seg .es, .opSize] ∧ ∀ h, Prefix.seg h ∈ [Prefix.seg .es, .opSize] → h = .es) ∧
      (SegReg.es ≠ .ss ∧ ∀ h, Prefix.seg h ∈ [Prefix.seg .ss, .opSize] → h = .ss) ∧
      (Prefix.seg .fs ∈ [Prefix.seg .es, .seg .fs] ∧ Prefix.seg .gs ∉ [Prefix.seg .es, .seg .fs]) ∧
      (Prefix.seg .gs ∈ [Prefix.seg .gs, .seg .ss] ∧ Prefix.seg .fs ∉ [Prefix.seg .gs, .seg .ss]) ∧
      (Prefix.seg .fs ∈ [Prefix.seg .gs, .seg .fs] ∧ Prefix.seg .gs ∈ [Prefix.seg .gs, .seg .fs]) ∧
      (Prefix.seg .es ∈ [Prefix.seg .ss, .seg .es] ∧ Prefix.seg .fs ∉ [Prefix.seg .ss, .seg .es] ∧
        Prefix.seg .gs ∉ [Prefix.seg .ss, .seg .es] ∧ Mode.prot32 ≠ .mode64) := by
  simp

theorem test_witness_LinearAddress :
    regs.mode = .mode64 ∧ SegReg.fs ≠ .gs ∧ SegReg.ds ≠ .fs ∧ SegReg.ds ≠ .gs ∧
      ({ regs with mode := .prot32 } : State).mode = .prot32 ∧ ({ regs with mode := .v8086 } : State).mode = .v8086 ∧
      (0xFFFF#64).toNat < 2 ^ 32 ∧ (0xFFFFFFFF#64).toNat < 2 ^ 32 := by decide

theorem test_witness_ResetValues : (1#4 : RegNum) ≠ 2#4 ∧ (3#4 : RegNum) ≠ 2#4 := by decide

theorem test_witness_ResetRaisesInvalidOpcode :
    regL.len ≤ 15 ∧ (long 10).len ≤ 15 ∧ mem256.len ≤ 15 := by decide

/-- A step of a memory form with a loaded program, from a state that meets the invariant. -/
theorem test_witness_StepKeepsInvariant :
    (withMem |> prog [0xC4, 0xE3, 0x7D, 0x42, 0x17, 0x21]).Inv ∧
      ∃ t, step (withMem |> prog [0xC4, 0xE3, 0x7D, 0x42, 0x17, 0x21]) = .next t :=
  ⟨inv_of (by decide +kernel) (by decide +kernel) (by decide +kernel), stepNext_of (by decide +kernel)⟩

/-- Six bytes that end exactly at the top of the address space, and six that wrap by one. -/
theorem test_witness_StepRunsDecoded :
    (({ regs with rip := 0xFFFFFFFFFFFFFFFA#64 } |> prog [0x66, 0x0F, 0x3A, 0x42, 0xC1, 0]).atEnd = false ∧
      decode .mode64 ({ regs with rip := 0xFFFFFFFFFFFFFFFA#64 } |> prog [0x66, 0x0F, 0x3A, 0x42, 0xC1, 0]).fetchBytes =
        .ok (regL, []) ∧
      ({ regs with rip := 0xFFFFFFFFFFFFFFFA#64 } |> prog [0x66, 0x0F, 0x3A, 0x42, 0xC1, 0]).fetchStraddles regL.len =
        false) ∧
      (({ regs with rip := 0xFFFFFFFFFFFFFFFB#64 } |> prog [0x66, 0x0F, 0x3A, 0x42, 0xC1, 0]).atEnd = false ∧
      decode .mode64 ({ regs with rip := 0xFFFFFFFFFFFFFFFB#64 } |> prog [0x66, 0x0F, 0x3A, 0x42, 0xC1, 0]).fetchBytes =
        .ok (regL, []) ∧
      ({ regs with rip := 0xFFFFFFFFFFFFFFFB#64 } |> prog [0x66, 0x0F, 0x3A, 0x42, 0xC1, 0]).fetchStraddles regL.len =
        true) := ⟨⟨rfl, rfl, rfl⟩, rfl, rfl, rfl⟩

/-- At the end of six bytes; at bytes that are another instruction; and after six bytes that end at the top of the address
space, where RIP is 0. -/
theorem test_witness_RunEndsAtProgramEnd :
    (({ (base |> prog [0x66, 0x0F, 0x3A, 0x42, 0xC1, 0]) with rip := 0x1006#64 } : State).rip.toNat =
        ((base |> prog [0x66, 0x0F, 0x3A, 0x42, 0xC1, 0]).progBase.toNat +
          (base |> prog [0x66, 0x0F, 0x3A, 0x42, 0xC1, 0]).progLen) % 2 ^ base.mode.ipBits) ∧
      ((base |> prog [0x90]).rip.toNat ≠
          ((base |> prog [0x90]).progBase.toNat + (base |> prog [0x90]).progLen) % 2 ^ base.mode.ipBits ∧
        decode .mode64 (base |> prog [0x90]).fetchBytes = .error .otherOpcode) ∧
      ((0#64 : Addr).toNat = ((0xFFFFFFFFFFFFFFFA#64 : Addr).toNat + 6) % 2 ^ base.mode.ipBits ∧
        ({ regs with rip := 0xFFFFFFFFFFFFFFFA#64 } |> prog [0x66, 0x0F, 0x3A, 0x42, 0xC1, 0]).progLen = 6 ∧
        ∃ t, step ({ regs with rip := 0xFFFFFFFFFFFFFFFA#64 } |> prog [0x66, 0x0F, 0x3A, 0x42, 0xC1, 0]) = .next t) :=
  ⟨by decide, ⟨by decide, rfl⟩, by decide, rfl, stepNext_of (by decide +kernel)⟩

/-- A program up to the last byte of the address space. -/
theorem test_witness_LoadedProgramIsFetched :
    ({ withMem with rip := 0xFFFFFFFFFFFFFFFA#64 } : State).mode = .mode64 ∧
      ({ withMem with rip := 0xFFFFFFFFFFFFFFFA#64 } : State).translation = .off ∧ withMem.mem.wf ∧
      (0xFFFFFFFFFFFFFFFA#64).toNat + (encode regL).length ≤ 2 ^ 64 ∧ (encode regL).length < 2 ^ 64 := by decide +kernel

/-- From reset with the bytes of each format; the legacy form on a part without AVX and VEX.128 on one without AVX2. -/
theorem test_witness_EnabledProgramStarts :
    State.reset.translation = .off ∧ State.reset.mem.wf ∧ State.reset.rip.toNat + (encode reg256).length < 2 ^ 47 ∧
      decode .mode64 (encode reg256) = .ok (reg256, []) ∧ decode .mode64 (encode reg128) = .ok (reg128, []) ∧
      decode .mode64 (encode regL) = .ok (regL, []) ∧ reg256.len ≤ 15 ∧
      (State.reset.hasFlag reg256.cpuidFlag = true ∧ (noAvx2 State.reset).hasFlag reg128.cpuidFlag = true ∧
        (noAvx2 State.reset).hasFlag reg256.cpuidFlag = false ∧ (noAvx State.reset).hasFlag regL.cpuidFlag = true ∧
        (noAvx State.reset).hasFlag reg128.cpuidFlag = false) ∧
      (∀ p ∈ regL.prefixes, p ≠ .lock) ∧ ∀ p ∈ reg256.prefixes, p.allowedBeforeVex = true := by decide +kernel

end Sys2Proof.Tests
end

section
/-! The frame of a completed instruction (R20). -/

namespace Sys2Proof.Machine

open Sys2Proof

/-- Settles O22. Whatever completes ends in `State.complete` on its destination and its length (`exec_eq_next`), the one
place where an execution changes the state; what that leaves, and where it puts RIP, is said once for every value. -/
theorem completedInstructionFrame : Obligations.CompletedInstructionFrame := by
  intro i s t completes
  obtain ⟨-, m, -, rfl⟩ := exec_eq_next.mp completes
  exact ⟨s.sameBut_complete i.dst (resultOf s m i) i.len, s.nextRip_toNat i.len⟩

end Sys2Proof.Machine
end

section
/-! The ignored W bits (R68). -/

namespace Sys2Proof

/-- The instruction with its REX.W or VEX.W set to `w`; format L without a REX byte has no such bit (R53, R54). -/
def Instr.withW (w : Bool) : Instr → Instr
  | .mpsadbwReg e dst src2 imm => .mpsadbwReg { e with rex := e.rex.map ({ · with w := w }) } dst src2 imm
  | .mpsadbwMem e dst o imm => .mpsadbwMem { e with rex := e.rex.map ({ · with w := w }) } dst o imm
  | .vmpsadbw128Reg e dst src1 src2 imm => .vmpsadbw128Reg { e with w := w } dst src1 src2 imm
  | .vmpsadbw128Mem e dst src1 o imm => .vmpsadbw128Mem { e with w := w } dst src1 o imm
  | .vmpsadbw256Reg e dst src1 src2 imm => .vmpsadbw256Reg { e with w := w } dst src1 src2 imm
  | .vmpsadbw256Mem e dst src1 o imm => .vmpsadbw256Mem { e with w := w } dst src1 o imm

namespace Instr

/-- The W bit lives in a byte that is there with either value. -/
@[simp] theorem len_withW (w : Bool) (i : Instr) : (i.withW w).len = i.len := by
  cases i with
  | mpsadbwReg e | mpsadbwMem e => simp [withW, len, LegacyEnc.len]
  | _ => rfl

@[simp] theorem dst_withW (w : Bool) (i : Instr) : (i.withW w).dst = i.dst := by cases i <;> rfl

@[simp] theorem prefixes_withW (w : Bool) (i : Instr) : (i.withW w).prefixes = i.prefixes := by cases i <;> rfl

@[simp] theorem memOp_withW (w : Bool) (i : Instr) : (i.withW w).memOp = i.memOp := by cases i <;> rfl

@[simp] theorem isLegacy_withW (w : Bool) (i : Instr) : (i.withW w).isLegacy = i.isLegacy := by cases i <;> rfl

@[simp] theorem operandBytes_withW (w : Bool) (i : Instr) : (i.withW w).operandBytes = i.operandBytes := by
  cases i <;> rfl

end Instr

namespace Machine

@[simp] theorem udOf_withW (s : State) (w : Bool) (i : Instr) : udOf s (i.withW w) = udOf s i := by cases i <;> rfl

@[simp] theorem resultOf_withW (s : State) (m : List Byte) (w : Bool) (i : Instr) :
    resultOf s m (i.withW w) = resultOf s m i := by
  cases i <;> rfl

@[simp] theorem operandOf_withW (s : State) (w : Bool) (i : Instr) : operandOf s (i.withW w) = operandOf s i := by
  simp [operandOf]

/-- No stage of R86 reads the W bit. -/
theorem exec_withW (w : Bool) (i : Instr) (s : State) : exec (i.withW w) s = exec i s := by
  simp [exec_eq]

/-- Settles O8. In every row the instruction with the other W is `Instr.withW` of the first, which executes alike. -/
theorem wBitsIgnored : Obligations.WBitsIgnored :=
  ⟨fun ps x w dst src2 o imm s =>
    ⟨exec_withW w (.mpsadbwReg ⟨ps, some x⟩ dst src2 imm) s, exec_withW w (.mpsadbwMem ⟨ps, some x⟩ dst o imm) s⟩,
  fun e w dst src1 src2 o imm s =>
    ⟨exec_withW w (.vmpsadbw128Reg e dst src1 src2 imm) s, exec_withW w (.vmpsadbw128Mem e dst src1 o imm) s,
      exec_withW w (.vmpsadbw256Reg e dst src1 src2 imm) s, exec_withW w (.vmpsadbw256Mem e dst src1 o imm) s⟩⟩

end Machine

end Sys2Proof
end

section
/-! The RIP-relative address (R61). -/

namespace Sys2Proof.Machine

open Sys2Proof

/-! ### Addresses in 64-bit mode -/

@[simp] theorem lowBits_64 (a : Addr) : lowBits 64 a = a := by simp [lowBits]

theorem lowBits_32_toNat (a : Addr) : (lowBits 32 a).toNat = a.toNat % 2 ^ 32 := by
  simp only [lowBits, BitVec.toNat_setWidth]
  omega

/-- In 64-bit mode RIP moves modulo 2^64 (R15). -/
theorem State.nextRip_mode64 {s : State} (hm : s.mode = .mode64) (len : Nat) :
    s.nextRip len = s.rip + BitVec.ofNat 64 len := by
  rw [State.nextRip, hm]
  exact lowBits_64 _

/-- In 64-bit mode a segment without a base of its own leaves the effective address as it is (R36). -/
theorem State.linear_mode64_noBase {s : State} {g : SegReg} (hm : s.mode = .mode64) (hfs : g ≠ .fs) (hgs : g ≠ .gs)
    (ea : Addr) : s.linear g ea = ea := by
  simp [State.linear, hm, hfs, hgs]

/-- Without prefix 67H the address size is the mode's own (R62). -/
theorem addrSizeOf_of_notMem {m : Mode} {ps : List Prefix} (h : .addrSize ∉ ps) : addrSizeOf m ps = m.addrSize := by
  simp [addrSizeOf, h]

/-- Prefix 67H switches the mode's own address size (R62). -/
theorem addrSizeOf_of_mem {m : Mode} {ps : List Prefix} (h : .addrSize ∈ ps) :
    addrSizeOf m ps = m.addrSize.toggled := by
  simp [addrSizeOf, h]

/-- Without an override the segment is the default (R62). -/
theorem operandSeg_of_noOverride {m : Mode} {ps : List Prefix} (h : ∀ g, .seg g ∉ ps) (o : MemOp) :
    operandSeg m ps o = defaultSeg o := by
  rcases operandSeg_cases m ps o with ⟨-, default⟩ | overridden
  · exact default
  · rw [effectiveOverrides_eq_nil.mpr h] at overridden
    cases overridden

/-! ### The RIP-relative form -/

/-- In 64-bit mode the sum of R61, truncated to the address size. -/
theorem Instr.eaOf_disp32_mode64 {s : State} (hm : s.mode = .mode64) (i : Instr) (d : BitVec 32) :
    Instr.eaOf i s (.disp32 d) =
      lowBits (addrSizeOf .mode64 i.prefixes).bits (s.rip + BitVec.ofNat 64 i.len + d.signExtend 64) := by
  simp [Instr.eaOf, State.operandAddr, State.effAddr, hm, State.nextRip_mode64 hm]

/-- Without prefix 67H the sum is modulo 2^64. -/
theorem Instr.eaOf_ripRelative {s : State} {i : Instr} (hm : s.mode = .mode64) (h67 : .addrSize ∉ i.prefixes)
    (d : BitVec 32) :
    Instr.eaOf i s (.disp32 d) = s.rip + BitVec.ofNat 64 i.len + d.signExtend 64 := by
  rw [Instr.eaOf_disp32_mode64 hm, addrSizeOf_of_notMem h67]
  exact lowBits_64 _

/-- With prefix 67H the sum is truncated to 32 bits. -/
theorem Instr.eaOf_ripRelative_67 {s : State} {i : Instr} (hm : s.mode = .mode64) (h67 : .addrSize ∈ i.prefixes)
    (d : BitVec 32) :
    (Instr.eaOf i s (.disp32 d)).toNat = (s.rip + BitVec.ofNat 64 i.len + d.signExtend 64).toNat % 2 ^ 32 := by
  rw [Instr.eaOf_disp32_mode64 hm, addrSizeOf_of_mem h67]
  exact lowBits_32_toNat _

/-- The default segment of the form is DS. -/
theorem Instr.segOf_ripRelative {i : Instr} (hseg : ∀ g, .seg g ∉ i.prefixes) (s : State) (d : BitVec 32) :
    Instr.segOf i s (.disp32 d) = .ds :=
  operandSeg_of_noOverride hseg (.disp32 d)

/-! ### The rule's example -/

/-- `mpsadbw xmm2, [rip+0x106], 3`, the example of R61. -/
def ripExample : Instr := .mpsadbwMem ⟨[.opSize], none⟩ 2#4 (.disp32 0x106#32) 3#8

theorem decode_ripExample :
    decode .mode64 [0x66#8, 0x0F#8, 0x3A#8, 0x42#8, 0x15#8, 0x06#8, 0x01#8, 0x00#8, 0x00#8, 0x03#8] =
      .ok (ripExample, []) := rfl

/-- At address 0 its ten bytes end at 0AH, 106H below the operand. -/
theorem eaOf_ripExample {s : State} (hm : s.mode = .mode64) (hrip : s.rip = 0#64) :
    Instr.eaOf ripExample s (.disp32 0x106#32) = 0x110#64 := by
  rw [Instr.eaOf_ripRelative hm (by decide), hrip]
  rfl

theorem laOf_ripExample {s : State} (hm : s.mode = .mode64) (hrip : s.rip = 0#64) :
    Instr.laOf ripExample s (.disp32 0x106#32) = 0x110#64 := by
  have hseg : Instr.segOf ripExample s (.disp32 0x106#32) = .ds :=
    Instr.segOf_ripRelative (by simp [ripExample, Instr.prefixes]) s _
  calc Instr.laOf ripExample s (.disp32 0x106#32)
      = s.linear (Instr.segOf ripExample s (.disp32 0x106#32)) (Instr.eaOf ripExample s (.disp32 0x106#32)) := rfl
    _ = Instr.eaOf ripExample s (.disp32 0x106#32) := by
      rw [hseg, State.linear_mode64_noBase hm (by decide) (by decide)]
    _ = 0x110#64 := eaOf_ripExample hm hrip

/-- Settles O42. The sum and the segment are those of the form's own lemmas; the rule's ten bytes decode to `ripExample`
and nothing else, whose operand is the disp32. -/
theorem ripRelativeAddress : Obligations.RipRelativeAddress := by
  refine ⟨fun s i d hm _ => ⟨fun h67 => Instr.eaOf_ripRelative hm h67 d, fun h67 => Instr.eaOf_ripRelative_67 hm h67 d,
    fun hseg => Instr.segOf_ripRelative hseg s d⟩, ?_⟩
  intro s i o hm hrip decoded operand
  obtain rfl : ripExample = i := by simpa [decode_ripExample] using decoded
  obtain rfl : .disp32 0x106#32 = o := Option.some.inj operand
  exact ⟨eaOf_ripExample hm hrip, laOf_ripExample hm hrip⟩

end Sys2Proof.Machine
end

section
/-! The lane function (R80, R81). -/

namespace Sys2Proof.Machine

open Sys2Proof

theorem packWords_congr {t u : Nat → Nat} (h : ∀ i < 8, t i = u i) : packWords t = packWords u := by
  simp [packWords, h]

/-- The exact difference of two unsigned bytes, the smaller taken from the larger (R81). -/
theorem absDiff_add_of_le {x y : Byte} (h : x.toNat ≤ y.toNat) : absDiff x y + x.toNat = y.toNat := by
  unfold absDiff; omega

/-- `SAD8` reads only block_1, whose windows are 11 bytes long together, and block_2 (R80). -/
theorem sad8_congr {a b a' b' : Lane} {s1 : BitVec 1} {s2 : BitVec 2}
    (block1 : ∀ k < 11, byteOf a' (4 * s1.toNat + k) = byteOf a (4 * s1.toNat + k))
    (block2 : ∀ k < 4, byteOf b' (4 * s2.toNat + k) = byteOf b (4 * s2.toNat + k)) :
    sad8 a' b' s1 s2 = sad8 a b s1 s2 := by
  refine packWords_congr fun i hi => ?_
  have window : ∀ k < 4, byteOf a' (4 * s1.toNat + i + k) = byteOf a (4 * s1.toNat + i + k) := fun k hk => by
    simpa only [Nat.add_assoc] using block1 (i + k) (by omega)
  rw [sadSum_eq_sadOf, sadSum_eq_sadOf, sadOf_congr window block2]

theorem wordOf_sad8_le (a b : Lane) (s1 : BitVec 1) (s2 : BitVec 2) {i : Nat} (hi : i < 8) :
    (wordOf (sad8 a b s1 s2) i).toNat ≤ 1020 := by
  rw [wordOf_sad8 _ _ _ _ _ hi]
  exact sadSum_le ..

/-- 1020 is below 2^10, so bits 15:10 of every word are 0 (R81). -/
theorem getLsbD_wordOf_sad8 (a b : Lane) (s1 : BitVec 1) (s2 : BitVec 2) {i k : Nat} (hi : i < 8) (hk : 10 ≤ k) :
    (wordOf (sad8 a b s1 s2) i).getLsbD k = false := by
  apply Nat.testBit_lt_two_pow
  calc (wordOf (sad8 a b s1 s2) i).toNat
      ≤ 1020 := wordOf_sad8_le a b s1 s2 hi
    _ < 2 ^ 10 := by decide
    _ ≤ 2 ^ k := Nat.pow_le_pow_right (by decide) hk

/-- Settles O9, word by word: each word is `t_i`, and each `t_i` stays within block_1 and block_2. -/
theorem laneFunctionWords : Obligations.LaneFunctionWords := by
  refine fun a b s1 s2 => ⟨fun i hi => ?_, fun a' b' block1 block2 => sad8_congr block1 block2⟩
  rw [wordOf_sad8 _ _ _ _ _ hi, sadSum_eq_sadOf]

/-- Settles O10: the differences are exact, and a word holds their sum unreduced because 1020 fits ten bits. -/
theorem laneArithmeticExact : Obligations.LaneArithmeticExact :=
  ⟨fun x y => ⟨absDiff_le x y, absDiff_comm x y, absDiff_add_of_le⟩, fun a b s1 s2 i hi =>
    ⟨wordOf_sad8 a b s1 s2 i hi, wordOf_sad8_le a b s1 s2 hi, fun _ hk _ => getLsbD_wordOf_sad8 a b s1 s2 hi hk⟩⟩

end Sys2Proof.Machine
end

section
/-! `#UD`, `#NM`, and what identifies an exception (R101, R102, R107). -/

namespace Sys2Proof.Machine

open Sys2Proof

/-- Only a page fault records an address (R107). -/
theorem Fault.cr2Value_of_vector_ne {f : Fault} (h : f.vector ≠ 14) : f.cr2Value = none := by
  cases f with
  | pageFault => exact absurd rfl h
  | _ => rfl

/-- Every other exception leaves the state as it was, CR2 too (R109). -/
theorem State.atFault_of_vector_ne (s : State) {f : Fault} (h : f.vector ≠ 14) : s.atFault f = s := by
  cases f with
  | pageFault => exact absurd rfl h
  | _ => rfl

/-- A memory operand raises `#SS`, `#GP` or `#PF` (R103 to R105), and so neither `#UD` nor `#NM`. -/
theorem State.twelve_le_vector_of_readOperand {s : State} {al : Bool} {g : SegReg} {ea : Addr} {n : Nat} {f : Fault}
    (hn : 0 < n) (h : s.readOperand al g ea n = .fault f) : 12 ≤ f.vector := by
  obtain ⟨-, rfl⟩ | ⟨-, -, -, rfl⟩ | ⟨-, -, bad, c, -, rfl⟩ := State.readOperand_fault_cases hn h
  · split <;> decide
  · decide
  · exact (by decide : 12 ≤ 14)

/-- An exception below `#SS` comes from a check before the operand: `#UD` for its cause, `#NM` for TS without one (R108). -/
theorem exec_fault_of_vector_lt {i : Instr} {s : State} {f : Fault} (h : exec i s = .fault f) (hf : f.vector < 12) :
    (s.UdCause i ∧ f = .invalidOpcode) ∨
      (¬ s.UdCause i ∧ s.cr0.getLsbD 3 = true ∧ f = .deviceNotAvailable) := by
  obtain ⟨-, rfl⟩ | ⟨-, cause⟩ | ⟨-, ts⟩ | ⟨-, o, -, operand⟩ := exec_fault_cases h
  · exact absurd hf (by decide)
  · exact .inl cause
  · exact .inr ts
  · exact absurd hf (Nat.not_lt.mpr (State.twelve_le_vector_of_readOperand (Instr.operandBytes_pos i) operand))

theorem exec_eq_invalidOpcode {i : Instr} {s : State} (len : i.len ≤ 15) :
    exec i s = .fault .invalidOpcode ↔ s.UdCause i := by
  refine ⟨fun h => ?_, exec_fault_of_checks.2.1 len⟩
  obtain ⟨cause, -⟩ | ⟨-, -, other⟩ := exec_fault_of_vector_lt h (by decide)
  · exact cause
  · cases other

theorem exec_eq_deviceNotAvailable {i : Instr} {s : State} (len : i.len ≤ 15) :
    exec i s = .fault .deviceNotAvailable ↔ ¬ s.UdCause i ∧ s.cr0.getLsbD 3 = true := by
  refine ⟨fun h => ?_, fun ⟨noCause, ts⟩ => exec_fault_of_checks.2.2 len noCause ts⟩
  obtain ⟨-, other⟩ | ⟨noCause, ts, -⟩ := exec_fault_of_vector_lt h (by decide)
  · cases other
  · exact ⟨noCause, ts⟩

/-- Settles O27. A cause raises `#UD` in the check before the operand, and no later stage can raise it. -/
theorem invalidOpcodeCauses : Obligations.InvalidOpcodeCauses :=
  ⟨fun _ _ len => exec_eq_invalidOpcode len, rfl, rfl, fun s => s.atFault_of_vector_ne (by decide)⟩

/-- Settles O29. TS is checked after the causes of `#UD` and before the operand, which raises no `#NM`. -/
theorem deviceNotAvailableCause : Obligations.DeviceNotAvailableCause :=
  ⟨fun _ _ len => exec_eq_deviceNotAvailable len, rfl, rfl⟩

/-- Settles O37. The numbers and codes are those of the definitions; CR2 is what `atFault` leaves there. -/
theorem exceptionIdentity : Obligations.ExceptionIdentity := by
  refine ⟨⟨rfl, rfl, rfl, rfl, fun _ _ => rfl⟩, ⟨rfl, rfl, rfl, rfl, fun _ _ => rfl⟩, fun s f => ⟨?_, fun h => ?_⟩⟩
  · rintro c a rfl
    exact s.atFault_cr2 (.pageFault c a)
  · exact ⟨Fault.cr2Value_of_vector_ne h, congrArg State.cr2 (s.atFault_of_vector_ne h)⟩

end Sys2Proof.Machine
end

section
/-! Decoding and encoding are inverse to each other (R53 to R60, R64). -/

namespace Sys2Proof

/-! ### What the decoder makes of an encoding -/

-- The tests above leave a queue of kernel checks, each with a waiting thread. Elaborating this one lemma in step with
-- the kernel lets the queue run empty before the proofs below ask for threads of their own.
set_option Elab.async false in
theorem decodeLegacyTail_register (m : Mode) {e : LegacyEnc} {d s : RegNum} (hd : RegNum.wellFormed e.r d = true)
    (hs : RegNum.wellFormed e.b s = true) (imm : Byte) (rest : List Byte) :
    decodeLegacyTail m e (modRM 3#2 (d.setWidth 3) (s.setWidth 3) :: imm :: rest) =
      .ok (.mpsadbwReg e d s imm, rest) := by
  simp [decodeLegacyTail, modRM_mod, modRM_reg, modRM_rm, regNum_of_wellFormed hd, regNum_of_wellFormed hs]

theorem decodeLegacyTail_memory {m : Mode} {e : LegacyEnc} {d : RegNum} {o : MemOp}
    (hd : RegNum.wellFormed e.r d = true) (ho : o.wellFormed (addrSizeOf m e.prefixes) e.x e.b = true) (imm : Byte)
    (rest : List Byte) :
    decodeLegacyTail m e (o.bytes (d.setWidth 3) ++ imm :: rest) = .ok (.mpsadbwMem e d o imm, rest) := by
  obtain ⟨mb, tl, bytes, hmod, hreg, decoded⟩ := decodeMemOp_bytes _ _ _ o (d.setWidth 3) (imm :: rest) ho
  simp [bytes, decodeLegacyTail, hmod, hreg, decoded, regNum_of_wellFormed hd]

theorem decodeVexTail_register (m : Mode) {e : VexEnc} {d s : RegNum} (hd : RegNum.wellFormed e.r d = true)
    (hs : RegNum.wellFormed e.b s = true) (v : RegNum) (l : Bool) (imm : Byte) (rest : List Byte) :
    decodeVexTail m e v l (modRM 3#2 (d.setWidth 3) (s.setWidth 3) :: imm :: rest) =
      .ok (if l then .vmpsadbw256Reg e d v s imm else .vmpsadbw128Reg e d v s imm, rest) := by
  cases l <;>
    simp [decodeVexTail, modRM_mod, modRM_reg, modRM_rm, regNum_of_wellFormed hd, regNum_of_wellFormed hs]

theorem decodeVexTail_memory {m : Mode} {e : VexEnc} {d : RegNum} {o : MemOp} (hd : RegNum.wellFormed e.r d = true)
    (ho : o.wellFormed (addrSizeOf m e.prefixes) e.x e.b = true) (v : RegNum) (l : Bool) (imm : Byte)
    (rest : List Byte) :
    decodeVexTail m e v l (o.bytes (d.setWidth 3) ++ imm :: rest) =
      .ok (if l then .vmpsadbw256Mem e d v o imm else .vmpsadbw128Mem e d v o imm, rest) := by
  obtain ⟨mb, tl, bytes, hmod, hreg, decoded⟩ := decodeMemOp_bytes _ _ _ o (d.setWidth 3) (imm :: rest) ho
  cases l <;> simp [bytes, decodeVexTail, hmod, hreg, decoded, regNum_of_wellFormed hd]

/-- Settles O2. The head of each format leads to its tail (`decode_legacyHead`, `decode_vexHead`), and the tail reads
the ModRM byte, the operand and the immediate back. -/
theorem decodeOfEncode : Obligations.DecodeOfEncode := by
  intro m i rest wf
  cases i with
  | mpsadbwReg e d s imm =>
    simp only [Instr.WellFormed, Instr.wellFormed, Bool.and_eq_true] at wf
    obtain ⟨⟨he, hd⟩, hs⟩ := wf
    simpa [encode, decode_legacyHead m e _ he] using decodeLegacyTail_register m hd hs imm rest
  | mpsadbwMem e d o imm =>
    simp only [Instr.WellFormed, Instr.wellFormed, Bool.and_eq_true] at wf
    obtain ⟨⟨he, hd⟩, ho⟩ := wf
    simpa [encode, decode_legacyHead m e _ he] using decodeLegacyTail_memory hd ho imm rest
  | vmpsadbw128Reg e d v s imm =>
    simp only [Instr.WellFormed, Instr.wellFormed, Bool.and_eq_true] at wf
    obtain ⟨⟨⟨he, hd⟩, hv⟩, hs⟩ := wf
    simpa [encode, decode_vexHead m e v false _ he hv] using decodeVexTail_register m hd hs v false imm rest
  | vmpsadbw128Mem e d v o imm =>
    simp only [Instr.WellFormed, Instr.wellFormed, Bool.and_eq_true] at wf
    obtain ⟨⟨⟨he, hd⟩, hv⟩, ho⟩ := wf
    simpa [encode, decode_vexHead m e v false _ he hv] using decodeVexTail_memory hd ho v false imm rest
  | vmpsadbw256Reg e d v s imm =>
    simp only [Instr.WellFormed, Instr.wellFormed, Bool.and_eq_true] at wf
    obtain ⟨⟨⟨he, hd⟩, hv⟩, hs⟩ := wf
    simpa [encode, decode_vexHead m e v true _ he hv] using decodeVexTail_register m hd hs v true imm rest
  | vmpsadbw256Mem e d v o imm =>
    simp only [Instr.WellFormed, Instr.wellFormed, Bool.and_eq_true] at wf
    obtain ⟨⟨⟨he, hd⟩, hv⟩, ho⟩ := wf
    simpa [encode, decode_vexHead m e v true _ he hv] using decodeVexTail_memory hd ho v true imm rest

/-! ### What bytes decode -/

/-- What decodes stands behind 0FH or C4H. -/
theorem decode_eq_ok {m : Mode} {bs : List Byte} {x : Instr × List Byte} (h : decode m bs = .ok x) :
    ∃ r, (afterPrefixes m bs = 0x0F#8 :: r ∧ decodeLegacy m (leadingPrefixes m bs) r = .ok x) ∨
      (afterPrefixes m bs = 0xC4#8 :: r ∧ decodeVex m (leadingPrefixes m bs) r = .ok x) := by
  unfold decode at h
  split at h
  · cases h
  · rename_i b r after
    split at h
    · rename_i hb; subst hb; exact ⟨r, .inl ⟨after, h⟩⟩
    · split at h
      · rename_i hb; subst hb; exact ⟨r, .inr ⟨after, h⟩⟩
      · split at h
        · cases h
        · split at h <;> cases h

/-- The opcode and the prefixes of format L (R53, R67). -/
theorem decodeLegacy_eq_ok {m : Mode} {ps : List Prefix} {bs : List Byte} {x : Instr × List Byte}
    (h : decodeLegacy m ps bs = .ok x) :
    ∃ tl, bs = 0x3A#8 :: 0x42#8 :: tl ∧ (dropFinalRex ps).all Prefix.isLegacy = true ∧ .opSize ∈ dropFinalRex ps ∧
      decodeLegacyTail m ⟨dropFinalRex ps, finalRex ps⟩ tl = .ok x := by
  unfold decodeLegacy at h
  split at h
  · cases h
  · split at h <;> cases h
  · rename_i b1 b2 tl
    split at h
    · cases h
    · rename_i opcode
      simp only [ne_eq, not_or, not_not] at opcode
      obtain ⟨rfl, rfl⟩ := opcode
      split at h
      · cases h
      · split at h
        · cases h
        · rename_i legacy
          split at h
          · cases h
          · rename_i has66
            exact ⟨tl, rfl, by simpa using legacy, by simpa using has66, h⟩

/-- The opcode and the VEX prefix of format V (R54, R67). -/
theorem decodeVex_eq_ok {m : Mode} {ps : List Prefix} {bs : List Byte} {x : Instr × List Byte}
    (h : decodeVex m ps bs = .ok x) :
    ∃ b1 b2 tl, bs = b1 :: b2 :: 0x42#8 :: tl ∧ b1.extractLsb' 0 5 = 3#5 ∧ b2.extractLsb' 0 2 = 1#2 ∧
      (m ≠ .mode64 → b1.extractLsb' 6 2 = 3#2 ∧ b1.getLsbD 5 = true ∧ b2.getLsbD 6 = true) ∧
      decodeVexTail m ⟨ps, !b1.getLsbD 7, !b1.getLsbD 6, !b1.getLsbD 5, b2.getLsbD 7⟩ (~~~ b2.extractLsb' 3 4)
        (b2.getLsbD 2) tl = .ok x := by
  unfold decodeVex at h
  split at h
  · rename_i b1 b2 op tl
    iterate 6 (split at h; next => cases h)
    rename_i les map pp opcode b5 b6
    simp only [ne_eq, not_not] at map pp opcode
    subst opcode
    refine ⟨b1, b2, tl, rfl, map, pp, fun hm => ?_, h⟩
    exact ⟨by simpa [hm] using les, by simpa [hm] using b5, by simpa [hm] using b6⟩
  · split at h <;> cases h
  · cases h

theorem rex_mem_of_finalRex {ps : List Prefix} {r : Rex} (h : finalRex ps = some r) : .rex r ∈ ps := by
  rw [← dropFinalRex_finalRex ps, h]
  simp

theorem mem_dropFinalRex {ps : List Prefix} {p : Prefix} (hp : p ∈ ps) (h : p.isRex = false) :
    p ∈ dropFinalRex ps := by
  rw [← dropFinalRex_finalRex ps] at hp
  rcases List.mem_append.mp hp with hp | hp
  · exact hp
  · cases hr : finalRex ps with
    | none => simp [hr] at hp
    | some r =>
      simp only [hr, List.mem_singleton] at hp
      subst hp
      cases h

/-- The head of format L is its prefixes, REX as the last of them, and the opcode. -/
theorem head_dropFinalRex (ps : List Prefix) :
    (LegacyEnc.mk (dropFinalRex ps) (finalRex ps)).head = ps.map Prefix.toByte ++ [0x0F#8, 0x3A#8, 0x42#8] := by
  have split := congrArg (List.map Prefix.toByte) (dropFinalRex_finalRex ps)
  rw [← split, LegacyEnc.head]
  cases finalRex ps <;> simp [Prefix.toByte]

/-- Settles O3. The checks that the decoder has made on its way to a tail are the well-formedness of the encoding, and
each byte it has passed is the encoder's; the tails are `decodeLegacyTail_eq_ok` and `decodeVexTail_eq_ok`. -/
theorem encodeOfDecode : Obligations.EncodeOfDecode := by
  intro m bs i rest decoded
  have bytes := prefixes_append_after m bs
  have rexMode := leadingPrefixes_rex m bs
  obtain ⟨r, ⟨after, legacy⟩ | ⟨after, vex⟩⟩ := decode_eq_ok decoded <;>
    generalize leadingPrefixes m bs = ps at * <;> rw [after] at bytes
  · obtain ⟨tl, rfl, allLegacy, has66, tail⟩ := decodeLegacy_eq_ok legacy
    have wf : (LegacyEnc.mk (dropFinalRex ps) (finalRex ps)).wellFormed m = true := by
      have rex : (finalRex ps).isNone = true ∨ m = .mode64 := by
        cases hr : finalRex ps with
        | none => exact .inl rfl
        | some r => exact .inr (rexMode _ (rex_mem_of_finalRex hr) rfl)
      simpa [LegacyEnc.wellFormed, allLegacy, has66] using rex
    obtain ⟨iwf, encoded⟩ := decodeLegacyTail_eq_ok wf tail
    refine ⟨iwf, ?_⟩
    rw [encoded, head_dropFinalRex, ← bytes]
    simp
  · obtain ⟨b1, b2, tl, rfl, map, pp, outside64, tail⟩ := decodeVex_eq_ok vex
    have wf : (VexEnc.mk ps (!b1.getLsbD 7) (!b1.getLsbD 6) (!b1.getLsbD 5) (b2.getLsbD 7)).wellFormed m = true := by
      by_cases hm : m = .mode64
      · simp [VexEnc.wellFormed, hm]
      · obtain ⟨notLes, b5, -⟩ := outside64 hm
        have noRex : ∀ p ∈ ps, p.isRex = false := fun p hp => by
          by_contra isRex
          exact hm (rexMode p hp (by simpa using isRex))
        simpa [VexEnc.wellFormed, vexByte1_outside64 b1 notLes, b5] using .inr noRex
    have vwf : vnumWellFormed m (~~~ b2.extractLsb' 3 4) = true := by
      by_cases hm : m = .mode64
      · simp [vnumWellFormed, hm]
      · obtain ⟨-, -, b6⟩ := outside64 hm
        rw [vnumWellFormed, vvvv_msb, b6]
        simp
    obtain ⟨iwf, encoded⟩ := decodeVexTail_eq_ok wf vwf tail
    refine ⟨iwf, ?_⟩
    rw [encoded, VexEnc.head, VexEnc.byte1, VexEnc.byte2, vexByte1_eq b1 map, vexByte2_eq b2 pp, ← bytes]
    simp

/-! ### Lengths (R64) -/

theorem encode_length (i : Instr) : (encode i).length = i.len := by
  cases i with
  | mpsadbwReg e d s imm => exact Laws.EncodedLength.mpsadbwReg e d s imm
  | mpsadbwMem e d o imm => exact Laws.EncodedLength.mpsadbwMem e d o imm
  | vmpsadbw128Reg e d v s imm => exact Laws.EncodedLength.vmpsadbw128Reg e d v s imm
  | vmpsadbw128Mem e d v o imm => exact Laws.EncodedLength.vmpsadbw128Mem e d v o imm
  | vmpsadbw256Reg e d v s imm => exact Laws.EncodedLength.vmpsadbw256Reg e d v s imm
  | vmpsadbw256Mem e d v o imm => exact Laws.EncodedLength.vmpsadbw256Mem e d v o imm

/-- Format L has at least the mandatory 66H, its opcode, ModRM and the immediate. -/
theorem LegacyEnc.six_le_len {m : Mode} (e : LegacyEnc) (h : e.wellFormed m = true) (sd : Nat) : 6 ≤ e.len sd := by
  simp only [LegacyEnc.wellFormed, Bool.and_eq_true, List.contains_iff_mem] at h
  have := List.length_pos_of_mem h.1.2
  simp only [LegacyEnc.len]
  omega

theorem VexEnc.six_le_len (e : VexEnc) (sd : Nat) : 6 ≤ e.len sd := by
  simp only [VexEnc.len]
  omega

theorem Instr.six_le_len {m : Mode} {i : Instr} (h : i.WellFormed m) : 6 ≤ i.len := by
  cases i with
  | mpsadbwReg e | mpsadbwMem e =>
    simp only [Instr.WellFormed, Instr.wellFormed, Bool.and_eq_true] at h
    obtain ⟨⟨he, -⟩, -⟩ := h
    simp only [Instr.len]
    exact e.six_le_len he _
  | vmpsadbw128Reg e | vmpsadbw128Mem e | vmpsadbw256Reg e | vmpsadbw256Mem e =>
    simp only [Instr.len]
    exact e.six_le_len _

/-- Settles O5. The bytes taken are the encoding (`encodeOfDecode`), as long as R64 says. -/
theorem decodedLength : Obligations.DecodedLength := by
  intro m bs i rest decoded
  obtain ⟨wf, rfl⟩ := encodeOfDecode m bs i rest decoded
  exact ⟨by rw [List.length_append, encode_length], Instr.six_le_len wf⟩

end Sys2Proof
end

section
/-! The opcode table, the encodings next to this instruction, and spelled words (R54, R67, R72). -/

namespace Sys2Proof

/-! ### The opcode table (R72) -/

/-- A row looks at five bytes. -/
theorem TableRow.accepts_append (r : TableRow) {five : List Byte} (h : five.length = 5) (rest : List Byte) :
    r.accepts (five ++ rest) = r.accepts five := by
  simp [TableRow.accepts, ← h]

theorem tableRowOf_append {five : List Byte} (h : five.length = 5) (rest : List Byte) :
    tableRowOf (five ++ rest) = tableRowOf five := by
  simp [tableRowOf, TableRow.accepts_append _ h]

/-- In format L the ModRM byte alone tells the register row from the memory row. -/
theorem tableRowOf_legacy (mb : Byte) :
    tableRowOf [0x66#8, 0x0F#8, 0x3A#8, 0x42#8, mb] = some (if mb.extractLsb' 6 2 = 3#2 then 0 else 1) := by
  revert mb; decide

theorem VexEnc.byte1_masked (e : VexEnc) : e.byte1 &&& 0x1F#8 = 0x03#8 := by
  have fields : ∀ r x b : Bool,
      (BitVec.ofBool (!r) ++ BitVec.ofBool (!x) ++ BitVec.ofBool (!b) ++ 3#5 : Byte) &&& 0x1F#8 = 0x03#8 := by decide
  exact fields e.r e.x e.b

theorem VexEnc.byte2_masked (e : VexEnc) (v : RegNum) (l : Bool) :
    e.byte2 v l &&& 0x07#8 = if l then 0x05#8 else 0x01#8 := by
  have fields : ∀ (w : Bool) (v : RegNum) (l : Bool),
      (BitVec.ofBool w ++ (~~~ v) ++ BitVec.ofBool l ++ 1#2 : Byte) &&& 0x07#8 = if l then 0x05#8 else 0x01#8 := by
    decide
  exact fields e.w v l

/-- The masks leave two bits of ModRM. -/
theorem modRM_masked (mb : Byte) : mb &&& 0xC0#8 = 0xC0#8 ↔ mb.extractLsb' 6 2 = 3#2 := by
  revert mb; decide

/-- In format V the row is that of VEX.L and ModRM. -/
theorem tableRowOf_vex (e : VexEnc) (v : RegNum) (l : Bool) (mb : Byte) :
    tableRowOf [0xC4#8, e.byte1, e.byte2 v l, 0x42#8, mb] =
      some (if mb.extractLsb' 6 2 = 3#2 then (if l then 4 else 2) else (if l then 5 else 3)) := by
  by_cases h : mb.extractLsb' 6 2 = 3#2 <;> cases l <;>
    simp [tableRowOf, opcodeTable, TableRow.accepts, List.findIdx?_cons, VexEnc.byte1_masked, VexEnc.byte2_masked,
      modRM_masked, h]

/-- A memory operand starts with a ModRM byte whose mod is not 11b, well-formed or not. -/
theorem MemOp.bytes_head (o : MemOp) (reg : BitVec 3) :
    ∃ mb tl, o.bytes reg = mb :: tl ∧ mb.extractLsb' 6 2 ≠ 3#2 := by
  cases o with
  | base r d | sib sc i r d => exact ⟨_, _, rfl, by rw [modRM_mod]; exact d.mod_ne⟩
  | base16 rm d => exact ⟨_, _, rfl, by rw [modRM_mod]; exact d.mod_ne⟩
  | sibNoBase | disp32 | disp16 => exact ⟨_, _, rfl, by rw [modRM_mod]; decide⟩

/-- The five bytes of format L that the table looks at. -/
theorem tableRowOf_legacyHead (mb : Byte) (rest : List Byte) :
    tableRowOf ((LegacyEnc.mk [.opSize] none).head ++ mb :: rest) =
      some (if mb.extractLsb' 6 2 = 3#2 then 0 else 1) :=
  (tableRowOf_append (five := [0x66#8, 0x0F#8, 0x3A#8, 0x42#8, mb]) rfl rest).trans (tableRowOf_legacy mb)

/-- The five bytes of format V that the table looks at. -/
theorem tableRowOf_vexHead (r x b w : Bool) (v : RegNum) (l : Bool) (mb : Byte) (rest : List Byte) :
    tableRowOf ((VexEnc.mk [] r x b w).head v l ++ mb :: rest) =
      some (if mb.extractLsb' 6 2 = 3#2 then (if l then 4 else 2) else (if l then 5 else 3)) :=
  (tableRowOf_append (five := [0xC4#8, (VexEnc.mk [] r x b w).byte1, (VexEnc.mk [] r x b w).byte2 v l, 0x42#8, mb]) rfl
    rest).trans (tableRowOf_vex (VexEnc.mk [] r x b w) v l mb)

/-- Settles O4. The fifth byte is the ModRM byte, whose mod is 11b in the register rows and in no other. -/
theorem opcodeTableRowMatches : Obligations.OpcodeTableRowMatches := by
  intro i rest
  cases i with
  | mpsadbwReg e d s imm => simp [Instr.strip, encode, Instr.tableRow, tableRowOf_legacyHead, modRM_mod]
  | mpsadbwMem e d o imm =>
    obtain ⟨mb, tl, bytes, hmod⟩ := o.bytes_head (d.setWidth 3)
    simp [Instr.strip, encode, Instr.tableRow, bytes, tableRowOf_legacyHead, hmod]
  | vmpsadbw128Reg e d v s imm | vmpsadbw256Reg e d v s imm =>
    simp [Instr.strip, encode, Instr.tableRow, tableRowOf_vexHead, modRM_mod]
  | vmpsadbw128Mem e d v o imm | vmpsadbw256Mem e d v o imm =>
    obtain ⟨mb, tl, bytes, hmod⟩ := o.bytes_head (d.setWidth 3)
    simp [Instr.strip, encode, Instr.tableRow, bytes, tableRowOf_vexHead, hmod]

/-- Settles O6. Byte 2 is a function of W, L and `src1` alone, and both sides agree on each of their values. -/
theorem vexPrefixBytes : Obligations.VexPrefixBytes := by
  intro w dst src1 src2 imm
  have byte2 (l : Bool) : (VexEnc.mk [] false false false w).byte2 src1 l =
      BitVec.ofNat 8 (w.toNat * 128 + (15 - src1.toNat) * 8 + (if l then 4 else 0) + 1) := by
    revert w src1 l; decide
  simp [encode, VexEnc.head, byte2, VexEnc.byte1]

/-- Settles O1: each word is read byte by byte. -/
theorem spelledWordsDecode : Obligations.SpelledWordsDecode :=
  ⟨rfl, rfl, rfl, rfl, rfl, rfl, rfl, rfl, rfl, rfl⟩

/-! ### The encodings next to this instruction (R67) -/

/-- Bytes that are all prefixes are the bytes of a list of prefixes of the mode. -/
theorem exists_prefixes {m : Mode} {bs : List Byte} (h : ∀ b ∈ bs, Prefix.ofByte m b ≠ none) :
    ∃ ps : List Prefix, bs = ps.map Prefix.toByte ∧ ∀ p ∈ ps, p.isRex = true → m = .mode64 := by
  refine ⟨leadingPrefixes m bs, ?_, leadingPrefixes_rex m bs⟩
  have after : afterPrefixes m bs = [] := by
    induction bs with
    | nil => rfl
    | cons b bs ih =>
      obtain ⟨p, hp⟩ := Option.ne_none_iff_exists'.mp (h b (by simp))
      simp only [afterPrefixes, hp]
      exact ih fun c hc => h c (by simp [hc])
  simpa [after] using (prefixes_append_after m bs).symm

theorem Prefix.toByte_injective : Function.Injective Prefix.toByte := fun p q h => by
  simpa [Prefix.ofByte_toByte .mode64 _ fun _ => rfl] using congrArg (Prefix.ofByte .mode64) h

/-- The decoder takes the prefixes off and looks at the byte behind them. -/
theorem prefixes_before {m : Mode} {ps : List Prefix} (hps : ∀ p ∈ ps, p.isRex = true → m = .mode64) {b : Byte}
    (hb : Prefix.ofByte m b = none) (r : List Byte) :
    leadingPrefixes m (ps.map Prefix.toByte ++ b :: r) = ps ∧
      afterPrefixes m (ps.map Prefix.toByte ++ b :: r) = b :: r := by
  rw [leadingPrefixes_append m ps _ hps, afterPrefixes_append m ps _ hps, (prefixes_of_opcode m b r hb).1,
    (prefixes_of_opcode m b r hb).2, List.append_nil]
  exact ⟨rfl, rfl⟩

/-- Format L decodes only with 66H and without F2H and F3H before it. -/
theorem opSize_of_decode_legacy {m : Mode} {ps : List Prefix} (hps : ∀ p ∈ ps, p.isRex = true → m = .mode64)
    {r : List Byte} {x : Instr × List Byte} (h : decode m (ps.map Prefix.toByte ++ 0x0F#8 :: r) = .ok x) :
    .opSize ∈ ps ∧ .repne ∉ ps ∧ .rep ∉ ps := by
  obtain ⟨leading, after⟩ := prefixes_before hps (Prefix.ofByte_opcode m).1 r
  obtain ⟨r', ⟨after', legacy⟩ | ⟨after', -⟩⟩ := decode_eq_ok h
  · rw [leading] at legacy
    obtain ⟨-, -, allLegacy, has66, -⟩ := decodeLegacy_eq_ok legacy
    rw [List.all_eq_true] at allLegacy
    have kept : ∀ p ∈ dropFinalRex ps, p ∈ ps := fun p hp => by
      rw [← dropFinalRex_finalRex ps]
      exact List.mem_append_left _ hp
    exact ⟨kept _ has66, fun hrep => absurd (allLegacy _ (mem_dropFinalRex hrep rfl)) (by decide),
      fun hrep => absurd (allLegacy _ (mem_dropFinalRex hrep rfl)) (by decide)⟩
  · rw [after] at after'
    cases after'

/-- Format V decodes only with map 00011b and pp 01b. -/
theorem fields_of_decode_vex {m : Mode} {ps : List Prefix} (hps : ∀ p ∈ ps, p.isRex = true → m = .mode64)
    {b1 b2 : Byte} {r : List Byte} {x : Instr × List Byte}
    (h : decode m (ps.map Prefix.toByte ++ 0xC4#8 :: b1 :: b2 :: r) = .ok x) :
    b1.extractLsb' 0 5 = 3#5 ∧ b2.extractLsb' 0 2 = 1#2 := by
  obtain ⟨-, after⟩ := prefixes_before hps (Prefix.ofByte_opcode m).2.1 (b1 :: b2 :: r)
  obtain ⟨r', ⟨after', -⟩ | ⟨after', vex⟩⟩ := decode_eq_ok h
  · rw [after] at after'
    cases after'
  · rw [after] at after'
    obtain ⟨b1', b2', tl, rfl, map, pp, -⟩ := decodeVex_eq_ok vex
    simp only [List.cons.injEq, true_and] at after'
    obtain ⟨rfl, rfl, -⟩ := after'
    exact ⟨map, pp⟩

/-- Nothing decodes behind another byte than 0FH and C4H. -/
theorem decode_ne_ok_of_otherByte {m : Mode} {ps : List Prefix} (hps : ∀ p ∈ ps, p.isRex = true → m = .mode64)
    {b : Byte} (hb : Prefix.ofByte m b = none) (legacy : b ≠ 0x0F#8) (vex : b ≠ 0xC4#8) (r : List Byte)
    (x : Instr × List Byte) :
    decode m (ps.map Prefix.toByte ++ b :: r) ≠ .ok x := by
  intro h
  obtain ⟨-, after⟩ := prefixes_before hps hb r
  obtain ⟨r', ⟨after', -⟩ | ⟨after', -⟩⟩ := decode_eq_ok h <;> rw [after, List.cons.injEq] at after'
  · exact legacy after'.1
  · exact vex after'.1

namespace Machine

/-- Before the program's end a step refuses bytes that do not decode (R67, R134). -/
theorem step_of_decode_error {s : State} {e : DecodeError} (notEnd : s.atEnd = false)
    (h : decode s.mode s.fetchBytes = .error e) : step s = .refused (.undecoded e) := by
  simp [step, notEnd, h]

theorem step_undecoded {s : State} (notEnd : s.atEnd = false) (h : ∀ x, decode s.mode s.fetchBytes ≠ .ok x) :
    ∃ e, step s = .refused (.undecoded e) := by
  cases decoded : decode s.mode s.fetchBytes with
  | error e => exact ⟨e, step_of_decode_error notEnd decoded⟩
  | ok x => exact absurd decoded (h x)

/-- Settles O7. What decodes has the 66H, the map and the pp of its format (R53, R54), and starts behind its prefixes
with 0FH or C4H. -/
theorem neighbourEncodingsRefused : Obligations.NeighbourEncodingsRefused := by
  intro s bs r notEnd prefixBytes
  obtain ⟨ps, rfl, hps⟩ := exists_prefixes prefixBytes
  obtain ⟨-, -, notC5, not62⟩ := Prefix.ofByte_opcode s.mode
  have byteMem (p : Prefix) : p.toByte ∈ ps.map Prefix.toByte ↔ p ∈ ps :=
    List.mem_map_of_injective Prefix.toByte_injective
  refine ⟨fun fetched neighbour => ?_, fun b1 b2 fetched neighbour => ?_, fun fetched => ?_, fun fetched => ?_⟩ <;>
    refine step_undecoded notEnd fun x decoded => ?_ <;> rw [fetched, List.append_assoc] at decoded
  · obtain ⟨has66, noRepne, noRep⟩ := opSize_of_decode_legacy hps decoded
    rcases neighbour with no66 | repne | rep
    · exact no66 ((byteMem .opSize).mpr has66)
    · exact noRepne ((byteMem .repne).mp repne)
    · exact noRep ((byteMem .rep).mp rep)
  · obtain ⟨map, pp⟩ := fields_of_decode_vex hps decoded
    exact neighbour.elim (· map) (· pp)
  · exact decode_ne_ok_of_otherByte hps not62 (by decide) (by decide) r x decoded
  · exact decode_ne_ok_of_otherByte hps notC5 (by decide) (by decide) r x decoded

end Machine

end Sys2Proof
end

section
/-! The invariant, reset, launch, and what a step runs (R15, R130, R131, R134). -/

namespace Sys2Proof.Machine

open Sys2Proof

/-! ### The invariant -/

/-- The instruction pointer wraps at its width (R15). -/
theorem State.nextRip_lt (s : State) (len : Nat) : (s.nextRip len).toNat < 2 ^ s.mode.ipBits := by
  rw [State.nextRip_toNat]
  exact Nat.mod_lt _ (by positivity)

/-- No vector register has a bit at `MAXVL` or above after a write, if none had before (R10). -/
theorem State.readVr_writeVr_above {s : State}
    (h : ∀ (n : RegNum) (b : Nat), maxVlBits s.maxVl ≤ b → (s.readVr n).getLsbD b = false) (dst : RegNum) (v : VReg)
    (n : RegNum) {b : Nat} (hb : maxVlBits s.maxVl ≤ b) : ((s.writeVr dst v).readVr n).getLsbD b = false := by
  by_cases hn : n = dst
  · subst hn
    rw [getLsbD_readVr_writeVr_same]
    simp [Nat.not_lt.mpr hb]
  · rw [State.readVr_writeVr_other s v hn]
    exact h n b hb

/-- Completing an instruction keeps the invariant: it writes one vector register and RIP, each within its width. -/
theorem State.Inv.complete {s : State} (h : s.Inv) (dst : RegNum) (v : VReg) (len : Nat) :
    (s.complete dst v len).Inv where
  memory := h.memory
  vectors n _ hb := State.readVr_writeVr_above h.vectors dst v n hb
  ip := s.nextRip_lt len
  flags := h.flags
  width := h.width
  xcr0 := h.xcr0

/-- Settles O49. A step to a next state completes an instruction (`step_eq_next`, `exec_eq_next`), which keeps the
invariant. -/
theorem stepKeepsInvariant : Obligations.StepKeepsInvariant := by
  intro s t inv stepped
  obtain ⟨i, -, -, -, -, executed⟩ := step_eq_next stepped
  obtain ⟨-, m, -, rfl⟩ := exec_eq_next.mp executed
  exact inv.complete i.dst (resultOf s m i) i.len

/-! ### Reset (R130) -/

theorem State.reset_readVr (n : RegNum) : State.reset.readVr n = 0#512 := by
  simp [State.readVr, State.reset]

/-- Settles O48. Memory is empty and every vector register 0; the rest holds of every part. -/
theorem resetMeetsInvariant : Obligations.ResetMeetsInvariant where
  memory := Memory.reset_wf
  vectors n b _ := by rw [State.reset_readVr, BitVec.getLsbD_zero]
  ip := by decide
  flags := ⟨State.hasAvx_of_hasAvx2, State.hasSse41_of_hasAvx⟩
  width := State.maxVl_of_hasAvx
  xcr0 := by decide

/-- Settles O46. All but the registers, which are many, are the fields of `State.reset` and `State.init` as written. -/
theorem resetValues : Obligations.ResetValues := by
  have gpr : ∀ n : RegNum, n ≠ 2#4 → State.reset.gprAt .a64 n = 0#64 := by decide
  exact ⟨State.reset_readVr, gpr, rfl, rfl, rfl, rfl, rfl, rfl, rfl, rfl, rfl, rfl, rfl, rfl, rfl, rfl, rfl,
    fun _ => ⟨rfl, rfl, rfl⟩⟩

/-- In real-address and virtual-8086 mode every VEX form has a cause of `#UD` (R101). -/
theorem State.udCause_of_vex {s : State} (hm : s.mode = .real ∨ s.mode = .v8086) {i : Instr}
    (vex : i.isLegacy = false) : s.UdCause i := by
  have cause (flag : Bool) (e : VexEnc) : s.VexUdCause flag e := hm.elim .inl fun h => .inr (.inl h)
  cases i with
  | mpsadbwReg | mpsadbwMem => cases vex
  | vmpsadbw128Reg e | vmpsadbw128Mem e | vmpsadbw256Reg e | vmpsadbw256Mem e => exact cause _ e

/-- Without CR4.OSFXSR the legacy form has a cause of `#UD` (R101). -/
theorem State.udCause_of_legacy {s : State} (osfxsr : s.cr4.getLsbD 9 = false) {i : Instr}
    (legacy : i.isLegacy = true) : s.UdCause i := by
  cases i with
  | mpsadbwReg e | mpsadbwMem e => exact .inr (.inl osfxsr)
  | vmpsadbw128Reg | vmpsadbw128Mem | vmpsadbw256Reg | vmpsadbw256Mem => cases legacy

/-- Settles O47. After reset CR4.OSFXSR is 0 and the mode is real-address. -/
theorem resetRaisesInvalidOpcode : Obligations.ResetRaisesInvalidOpcode := by
  intro i len
  refine (exec_eq_invalidOpcode len).mpr ?_
  cases form : i.isLegacy with
  | true => exact State.udCause_of_legacy rfl form
  | false => exact State.udCause_of_vex (.inl rfl) form

/-! ### What a step runs (R134) -/

theorem step_of_decode {s : State} {i : Instr} {rest : List Byte} (notEnd : s.atEnd = false)
    (h : decode s.mode s.fetchBytes = .ok (i, rest)) :
    step s = if s.fetchStraddles i.len then .refused .fetchStraddles else exec i s := by
  simp [step, notEnd, h]

/-- Settles O50. Past the program's end and the decoding a step only tests the placement (`step_of_decode`). -/
theorem stepRunsDecoded : Obligations.StepRunsDecoded := fun s i rest notEnd decoded =>
  ⟨fun h => by simp [step_of_decode notEnd decoded, h], fun h => by simp [step_of_decode notEnd decoded, h]⟩

/-- A step is refused as the program's end only there: an execution is refused only for a device. -/
theorem step_eq_endOfProgram {s : State} : step s = .refused .endOfProgram ↔ s.atEnd = true := by
  refine ⟨fun h => ?_, fun h => by simp [step, h]⟩
  by_contra notEnd
  rw [Bool.not_eq_true] at notEnd
  cases decoded : decode s.mode s.fetchBytes with
  | error e => simp [step_of_decode_error notEnd decoded] at h
  | ok x =>
    obtain ⟨i, rest⟩ := x
    rw [step_of_decode notEnd decoded] at h
    split at h
    · cases h
    · obtain ⟨-, refused⟩ := exec_eq_refused.mp h
      unfold operandOf at refused
      split at refused
      · cases refused
      · cases (State.readOperand_eq_refused refused).1

/-- The run is over exactly at `BASE + |P|`, modulo 2 to the power of the instruction pointer's width (R134). -/
theorem State.atEnd_iff {s : State} (hrip : s.rip.toNat < 2 ^ s.mode.ipBits)
    (hbase : s.progBase.toNat < 2 ^ s.mode.ipBits) (hlen : s.progLen < 2 ^ s.mode.ipBits) :
    s.atEnd = true ↔ s.rip.toNat = (s.progBase.toNat + s.progLen) % 2 ^ s.mode.ipBits := by
  have offset : s.progOffset = (2 ^ 64 - s.progBase.toNat + s.rip.toNat) % 2 ^ 64 % 2 ^ s.mode.ipBits % 2 ^ 64 := by
    simp only [State.progOffset, lowBits, BitVec.toNat_setWidth, BitVec.toNat_sub]
  rw [State.atEnd, decide_eq_true_eq, offset]
  generalize s.progBase.toNat = base at *
  generalize s.rip.toNat = rip at *
  obtain h | h | h : s.mode.ipBits = 16 ∨ s.mode.ipBits = 32 ∨ s.mode.ipBits = 64 := by
    cases s.mode <;> decide
  all_goals
    rw [h] at hrip hbase hlen ⊢
    omega

/-- Settles O51. The end is `State.atEnd`, which no other outcome of a step answers for. -/
theorem runEndsAtProgramEnd : Obligations.RunEndsAtProgramEnd := by
  intro s hrip hbase hlen
  have atEnd := State.atEnd_iff hrip hbase hlen
  refine ⟨step_eq_endOfProgram.trans atEnd, fun e notEnd undecoded => step_of_decode_error ?_ undecoded⟩
  rwa [ne_eq, ← atEnd, Bool.not_eq_true] at notEnd

/-! ### A loaded program (R131, R134) -/

/-- After loading RIP stands at `BASE`. -/
theorem State.loadProgram_progOffset (s : State) (bs : List Byte) : (s.loadProgram bs).progOffset = 0 := by
  simp [State.progOffset, lowBits]

/-- The fetch reads a loaded program byte for byte. -/
theorem State.loadProgram_fetchBytes {s : State} {bs : List Byte} (hm : s.mode = .mode64) (ht : s.translation = .off)
    (hw : s.mem.wf) (hb : s.rip.toNat + bs.length ≤ 2 ^ 64) : (s.loadProgram bs).fetchBytes = bs := by
  rw [State.fetchBytes, State.loadProgram_progOffset, State.fetchFrom_eq]
  refine List.ext_getElem (by simp) fun k hk hk' => ?_
  simp only [List.getElem_map, List.getElem_range, State.fetchByte]
  rw [State.fetchPhys_linear (s := s.loadProgram bs) hm ht (by simp; omega)]
  simpa using State.placeBytes_read_at hm ht bs 0 hw (by omega) k hk'

/-- Settles O52. Byte `k` of the program is placed where the fetch of byte `k` reads, and nothing outside is written. -/
theorem loadedProgramIsFetched : Obligations.LoadedProgramIsFetched := fun s bs hm ht hw hb _ =>
  ⟨State.loadProgram_fetchBytes hm ht hw hb, State.loadProgram_wf hw bs, fun a outside =>
    State.placeBytes_read_other hm ht bs 0 s.mem (by omega) a (by omega)⟩

/-- An address below 2^47 is canonical at either width. -/
theorem canonical_of_lt {a : Addr} (h : a.toNat < 2 ^ 47) (va : VaBits) : canonical va a = true := by
  have shifted : a >>> (vaBitsNat va - 1) = 0#64 := by
    apply BitVec.eq_of_toNat_eq
    rw [BitVec.toNat_ushiftRight, Nat.shiftRight_eq_div_pow, Nat.div_eq_of_lt (lt_of_lt_of_le h ?_)]
    · rfl
    · cases va <;> decide
  simp [canonical, shifted]

/-- Below 2^47 no instruction wraps or leaves the canonical addresses (R15). -/
theorem State.fetchStraddles_of_lt {s : State} {len : Nat} (hm : s.mode = .mode64) (h : s.rip.toNat + len < 2 ^ 47) :
    s.fetchStraddles len = false := by
  have linear {j : Nat} (hj : j < len) : canonical s.vaBits (s.fetchLinear j) = true := by
    apply canonical_of_lt
    simp only [State.fetchLinear, hm, State.nextRip_toNat, Mode.ipBits, Mode.addrSize, AddrSize.bits]
    omega
  simp only [State.fetchStraddles, hm, Bool.or_eq_false_iff, decide_eq_false_iff_not, Bool.not_eq_false',
    List.all_eq_true, List.mem_range]
  exact ⟨by omega, fun j hj => linear hj⟩

/-- Under the premises of R131 the legacy form is left with the causes of the part and of LOCK. -/
theorem State.enabled_not_legacyUdCause {s : State} {e : LegacyEnc} (flag : s.hasSse41 = true)
    (lock : .lock ∉ e.prefixes) : ¬ s.enabled.LegacyUdCause e := by
  simp [State.LegacyUdCause, flag, lock]

/-- Under the premises of R131 a VEX form is left with the causes of the part and of its prefixes. -/
theorem State.enabled_not_vexUdCause {s : State} {e : VexEnc} (allowed : ∀ p ∈ e.prefixes, p.allowedBeforeVex = true) :
    ¬ s.enabled.VexUdCause true e := by
  have no {p : Prefix} (h : p.allowedBeforeVex = false) : p ∉ e.prefixes := fun hp => by simp [allowed p hp] at h
  have others : ¬ ∃ p ∈ e.prefixes, p = .opSize ∨ p = .repne ∨ p = .rep ∨ ∃ r, p = .rex r := by
    rintro ⟨p, hp, rfl | rfl | rfl | ⟨r, rfl⟩⟩ <;> exact no rfl hp
  simp [State.VexUdCause, no (p := .lock) rfl, others]

/-- The premises of R131 leave the feature flag and the prefixes as the only causes of `#UD`, and none of `#NM`. -/
theorem State.enabled_decodable {s : State} {i : Instr} (len : i.len ≤ 15) (flag : s.hasFlag i.cpuidFlag = true)
    (lock : ∀ p ∈ i.prefixes, p ≠ .lock)
    (allowed : i.isLegacy = false → ∀ p ∈ i.prefixes, p.allowedBeforeVex = true) : s.enabled.Decodable i := by
  refine ⟨len, ?_, by simp⟩
  cases i with
  | mpsadbwReg e | mpsadbwMem e => exact enabled_not_legacyUdCause flag fun h => lock _ h rfl
  | vmpsadbw128Reg e | vmpsadbw128Mem e =>
    have hasAvx : s.enabled.hasAvx = true := flag
    simpa only [State.UdCause, hasAvx] using enabled_not_vexUdCause (allowed rfl)
  | vmpsadbw256Reg e | vmpsadbw256Mem e =>
    have hasAvx2 : s.enabled.hasAvx2 = true := flag
    simpa only [State.UdCause, hasAvx2] using enabled_not_vexUdCause (allowed rfl)

/-- Whether an instruction passes the checks before its operand does not depend on the program. -/
theorem State.loadProgram_decodable {s : State} {bs : List Byte} {i : Instr} :
    (s.loadProgram bs).Decodable i ↔ s.Decodable i := by
  cases i <;> exact Iff.rfl

/-- Settles O53. The fetch reads the program (`State.loadProgram_fetchBytes`), which is not empty because it decodes,
and below 2^47 nothing wraps. -/
theorem enabledProgramStarts : Obligations.EnabledProgramStarts := by
  intro s i bs rest ht hw hb decoded
  have fetched : (s.enabled.loadProgram bs).fetchBytes = bs :=
    State.loadProgram_fetchBytes rfl ht hw (by simp only [State.enabled_rip]; omega)
  obtain ⟨taken, six⟩ := decodedLength _ _ _ _ decoded
  have notEnd : (s.enabled.loadProgram bs).atEnd = false := by
    simp only [State.atEnd, State.loadProgram_progOffset, State.loadProgram_progLen, decide_eq_false_iff_not]
    omega
  have inPlace : (s.enabled.loadProgram bs).fetchStraddles i.len = false :=
    State.fetchStraddles_of_lt rfl (by simp only [State.loadProgram_rip, State.enabled_rip]; omega)
  refine ⟨(stepRunsDecoded _ i rest notEnd (by rw [fetched]; exact decoded)).1 inPlace, fun len flag lock allowed => ?_⟩
  exact State.loadProgram_decodable.mpr (State.enabled_decodable len flag lock allowed)

end Sys2Proof.Machine
end

section
/-! Addresses: effective addresses, segments, linear addresses (R36, R58 to R62). -/

namespace Sys2Proof.Machine

open Sys2Proof

/-! ### Sums modulo 2^64, and what the address size leaves of them -/

theorem addrSize_bits_le (a : AddrSize) : a.bits ≤ 64 := by cases a <;> decide

/-- Addresses add as integers modulo 2^64. -/
theorem add_toInt {x y : Addr} {a b : Int} (hx : (x.toNat : Int) = a % 2 ^ 64) (hy : (y.toNat : Int) = b % 2 ^ 64) :
    ((x + y).toNat : Int) = (a + b) % 2 ^ 64 := by
  rw [BitVec.toNat_add]
  omega

theorem toNat_toInt (x : Addr) : (x.toNat : Int) = (x.toNat : Int) % 2 ^ 64 := by
  have := x.isLt
  omega

/-- A register read at an address size is its low bits (R58). -/
theorem State.gprAt_toNat (s : State) (a : AddrSize) (r : RegNum) :
    (s.gprAt a r).toNat = (s.gpr[r.toNat]'r.isLt).toNat % 2 ^ a.bits := by
  simp only [State.gprAt, lowBits, BitVec.toNat_setWidth]
  exact Nat.mod_eq_of_lt (lt_of_le_of_lt (Nat.mod_le ..) (BitVec.isLt _))

/-- Index 0100b is no index (R59). -/
theorem State.indexVal_none (s : State) (a : AddrSize) (sc : BitVec 2) : s.indexVal a sc 4#4 = 0#64 := rfl

/-- The scale multiplies by a power of 2 (R59). -/
theorem State.indexVal_toInt (s : State) (a : AddrSize) (sc : BitVec 2) {i : RegNum} (hi : i ≠ 4#4) :
    ((s.indexVal a sc i).toNat : Int) = ((s.gprAt a i).toNat * 2 ^ sc.toNat : Int) % 2 ^ 64 := by
  rw [State.indexVal, if_neg hi, BitVec.toNat_shiftLeft, Nat.shiftLeft_eq]
  push_cast
  rfl

/-- Settles O54. Each summand is known modulo 2^64, and the address size keeps the low bits of the sum. -/
theorem baseAddress : Obligations.BaseAddress := by
  intro s a r d d32 len
  refine ⟨s.gprAt_toNat a r, fun _ => ⟨?_, fun hm => ?_⟩⟩
  · exact lowBits_toInt (addrSize_bits_le a) (add_toInt (toNat_toInt _) (dispVal_toInt d))
  · rw [State.effAddr, if_neg hm]
    exact lowBits_toInt (addrSize_bits_le a) (signExtend_toInt (by decide) d32)

/-- Settles O41. Each summand is known modulo 2^64, the index as the register times a power of 2 or 0. -/
theorem sibAddress : Obligations.SibAddress := by
  intro s a sc i b d d32 len _ r ea
  refine ⟨?_, fun hi => ?_, ?_, fun hi => ?_⟩ <;> refine lowBits_toInt (addrSize_bits_le a) ?_
  · rw [State.indexVal_none, BitVec.add_zero]
    exact add_toInt (toNat_toInt _) (dispVal_toInt d)
  · exact add_toInt (add_toInt (toNat_toInt _) (s.indexVal_toInt a sc hi)) (dispVal_toInt d)
  · rw [State.indexVal_none, BitVec.zero_add]
    exact signExtend_toInt (by decide) d32
  · exact add_toInt (s.indexVal_toInt a sc hi) (signExtend_toInt (by decide) d32)

/-- A 16-bit form adds its displacement to its base expression modulo 2^16 (R60). -/
theorem State.effAddr_base16 (s : State) (rm : BitVec 3) {z : Int} (hz : ((s.base16Val rm).toNat : Int) = z % 2 ^ 64)
    (len : Nat) (d : Disp16) :
    ((s.effAddr .a16 len (.base16 rm d)).toNat : Int) = (z + disp16Int d) % 65536 :=
  lowBits_toInt (by decide) (add_toInt hz (dispVal16_toInt d))

/-- Settles O43. Each base expression is one register or a sum of two. -/
theorem sixteenBitAddress : Obligations.SixteenBitAddress := by
  intro s len d d16 r ea g
  have one (n : RegNum) : ((s.gprAt .a16 n).toNat : Int) = r n % 2 ^ 64 := toNat_toInt _
  have two (n m : RegNum) : ((s.gprAt .a16 n + s.gprAt .a16 m).toNat : Int) = (r n + r m) % 2 ^ 64 :=
    add_toInt (one n) (one m)
  refine ⟨s.effAddr_base16 0#3 (two 3#4 6#4) len d, rfl, s.effAddr_base16 1#3 (two 3#4 7#4) len d, rfl,
    s.effAddr_base16 2#3 (two 5#4 6#4) len d, rfl, s.effAddr_base16 3#3 (two 5#4 7#4) len d, rfl,
    s.effAddr_base16 4#3 (one 6#4) len d, rfl, s.effAddr_base16 5#3 (one 7#4) len d, rfl,
    s.effAddr_base16 6#3 (one 5#4) len d, rfl, s.effAddr_base16 7#3 (one 3#4) len d, rfl, ?_, rfl⟩
  rw [State.effAddr, BitVec.toNat_setWidth]
  omega

theorem codeSize_eq (m : Mode) : codeSize m = m.addrSize := by cases m <;> rfl

theorem switchedSize_eq (a : AddrSize) : switchedSize a = a.toggled := by cases a <;> rfl

/-- Settles O55. Both sides read the address size off prefix 67H and the mode. -/
theorem addressSize : Obligations.AddressSize := by
  intro i o s
  simp only [codeSize_eq, switchedSize_eq, Instr.eaOf, State.operandAddr]
  exact ⟨fun h => by rw [addrSizeOf_of_notMem h], fun h => by rw [addrSizeOf_of_mem h]⟩

/-! ### The linear address (R36) -/

/-- Settles O45. One case for each way a mode forms the address. -/
theorem linearAddress : Obligations.LinearAddress := by
  intro s g ea
  refine ⟨fun hm hg => ?_, fun hm hfs hgs => State.linear_mode64_noBase hm hfs hgs ea, fun hm => ?_, fun hm hea => ?_⟩
  · rw [State.linear, hm]
    simp [hg, BitVec.toNat_add]
  · have linear : s.linear g ea = lowBits 32 ((s.seg g).base + ea) := by
      rcases hm with hm | hm | hm <;> rw [State.linear, hm]
    rw [linear, lowBits_32_toNat, BitVec.toNat_add]
    omega
  · have linear : s.linear g ea = ((s.seg g).selector.setWidth 64 <<< 4) + ea := by
      rcases hm with hm | hm <;> rw [State.linear, hm]
    have := (s.seg g).selector.isLt
    rw [linear, BitVec.toNat_add, BitVec.toNat_shiftLeft, BitVec.toNat_setWidth, Nat.shiftLeft_eq]
    omega

/-! ### The segment (R62) -/

/-- The default segment is SS or DS. -/
theorem defaultSeg_cases (o : MemOp) : defaultSeg o = .ss ∨ defaultSeg o = .ds := by
  have base (r : RegNum) : baseSeg r = .ss ∨ baseSeg r = .ds := by unfold baseSeg; split <;> simp
  cases o with
  | base r d => exact base r
  | sib sc i r d => exact base r
  | base16 rm d => simp only [defaultSeg]; split <;> simp
  | sibNoBase | disp32 | disp16 => exact .inr rfl

theorem defaultSeg_ne_fs (o : MemOp) : defaultSeg o ≠ .fs := by
  rcases defaultSeg_cases o with h | h <;> rw [h] <;> decide

theorem defaultSeg_ne_gs (o : MemOp) : defaultSeg o ≠ .gs := by
  rcases defaultSeg_cases o with h | h <;> rw [h] <;> decide

/-- With an override the segment is one that the overrides offer. -/
theorem operandSeg_mem {m : Mode} {ps : List Prefix} {g : SegReg} (h : .seg g ∈ ps) (o : MemOp) :
    operandSeg m ps o ∈ effectiveOverrides m ps (defaultSeg o) := by
  rcases operandSeg_cases m ps o with ⟨without, -⟩ | offered
  · exact absurd h (without g)
  · exact offered

/-- In 64-bit mode with FS or GS among the overrides the segment is one of the two that is there. -/
theorem operandSeg_of_base {ps : List Prefix} (h : .seg .fs ∈ ps ∨ .seg .gs ∈ ps) (o : MemOp) :
    .seg (operandSeg .mode64 ps o) ∈ ps ∧ (operandSeg .mode64 ps o = .fs ∨ operandSeg .mode64 ps o = .gs) :=
  (mem_effectiveOverrides_of_base h).mp (h.elim (operandSeg_mem · o) (operandSeg_mem · o))

/-- In 64-bit mode without FS and GS the segment is the default, for SS or for want of an override, or an override. -/
theorem operandSeg_of_noBase {ps : List Prefix} (hfs : .seg .fs ∉ ps) (hgs : .seg .gs ∉ ps) (o : MemOp) :
    ((∀ g, .seg g ∉ ps) ∧ operandSeg .mode64 ps o = defaultSeg o) ∨
      (.seg .ss ∈ ps ∧ operandSeg .mode64 ps o = defaultSeg o) ∨
      (.seg (operandSeg .mode64 ps o) ∈ ps ∧ operandSeg .mode64 ps o ≠ .ss) := by
  rcases operandSeg_cases .mode64 ps o with default | offered
  · exact .inl default
  · exact .inr ((mem_effectiveOverrides_of_noBase hfs hgs).mp offered)

/-- The segment is the default or an override, in every mode. -/
theorem operandSeg_default_or_mem (m : Mode) (ps : List Prefix) (o : MemOp) :
    operandSeg m ps o = defaultSeg o ∨ .seg (operandSeg m ps o) ∈ ps := by
  rcases operandSeg_cases m ps o with ⟨-, default⟩ | offered
  · exact .inl default
  · by_cases hm : m = .mode64
    · subst hm
      by_cases base : .seg .fs ∈ ps ∨ .seg .gs ∈ ps
      · exact .inr (operandSeg_of_base base o).1
      · rw [not_or] at base
        rcases operandSeg_of_noBase base.1 base.2 o with ⟨-, default⟩ | ⟨-, default⟩ | ⟨mem, -⟩
        · exact .inl default
        · exact .inl default
        · exact .inr mem
    · exact .inr ((mem_effectiveOverrides_of_ne hm).mp offered)

/-- Overrides that agree replace the segment, but for SS in 64-bit mode (log 30). -/
theorem operandSeg_of_agree {m : Mode} {ps : List Prefix} {g : SegReg} (hg : .seg g ∈ ps)
    (agree : ∀ h, .seg h ∈ ps → h = g) (notSs : m ≠ .mode64 ∨ g ≠ .ss) (o : MemOp) : operandSeg m ps o = g := by
  have offered := operandSeg_mem (m := m) hg o
  by_cases hm : m = .mode64
  · subst hm
    by_cases base : .seg .fs ∈ ps ∨ .seg .gs ∈ ps
    · exact agree _ (operandSeg_of_base base o).1
    · rw [not_or] at base
      rcases operandSeg_of_noBase base.1 base.2 o with ⟨without, -⟩ | ⟨ss, -⟩ | ⟨mem, -⟩
      · exact absurd hg (without g)
      · exact absurd (agree _ ss).symm (notSs.resolve_left (by simp))
      · exact agree _ mem
  · exact agree _ ((mem_effectiveOverrides_of_ne hm).mp offered)

/-- The default segments of the forms with a 32-bit or 64-bit base. -/
theorem baseSeg_eq {r : RegNum} : (r = 4#4 ∨ r = 5#4 → baseSeg r = .ss) ∧ (r ≠ 4#4 → r ≠ 5#4 → baseSeg r = .ds) :=
  ⟨fun h => if_pos h, fun h4 h5 => if_neg (by simp [h4, h5])⟩

/-- Settles O44, each clause by what the overrides offer in its mode. -/
theorem operandSegment : Obligations.OperandSegment := by
  intro m ps o
  refine ⟨fun r i sc d d32 => ⟨fun h => ⟨baseSeg_eq.1 h, baseSeg_eq.1 h⟩,
      fun h4 h5 => ⟨baseSeg_eq.2 h4 h5, baseSeg_eq.2 h4 h5⟩, rfl, rfl⟩,
    fun without => operandSeg_of_noOverride without o, fun g hg agree notSs => operandSeg_of_agree hg agree notSs o,
    ?_, ?_, ?_, ?_, ?_, ?_, fun g hg hm => (mem_effectiveOverrides_of_ne hm).mp (operandSeg_mem hg o),
    operandSeg_default_or_mem m ps o⟩
  · rintro rfl onlySs
    rcases operandSeg_default_or_mem .mode64 ps o with default | mem
    · exact default
    · rcases operandSeg_of_noBase (fun h => nomatch onlySs _ h) (fun h => nomatch onlySs _ h) o with
        ⟨-, default⟩ | ⟨-, default⟩ | ⟨-, notSs⟩
      · exact default
      · exact default
      · exact absurd (onlySs _ mem) notSs
  · rintro rfl hfs hgs
    obtain ⟨mem, fs | gs⟩ := operandSeg_of_base (.inl hfs) o
    · exact fs
    · exact absurd (gs ▸ mem) hgs
  · rintro rfl hgs hfs
    obtain ⟨mem, fs | gs⟩ := operandSeg_of_base (.inr hgs) o
    · exact absurd (fs ▸ mem) hfs
    · exact gs
  · rintro rfl hfs -
    exact (operandSeg_of_base (.inl hfs) o).2
  · rintro rfl hfs hgs
    rcases operandSeg_default_or_mem .mode64 ps o with default | mem
    · rw [default]
      exact ⟨defaultSeg_ne_fs o, defaultSeg_ne_gs o⟩
    · exact ⟨fun fs => hfs (fs ▸ mem), fun gs => hgs (gs ▸ mem)⟩
  · rintro g hg rfl hfs hgs
    exact (operandSeg_of_noBase hfs hgs o).resolve_left fun ⟨without, _⟩ => without g hg

end Sys2Proof.Machine
end

section
/-! Where the bytes of an operand stand, and what an execution cannot see (R16, R20, R63, R83, R100, R109, R113). -/

namespace Sys2Proof.Machine

open Sys2Proof

/-! ### The places of an operand -/

/-- The physical addresses of an operand of `n` bytes after the checks of R86, the operand read without its last stage:
memory enters only after it (`State.readOperand_eq_places`). -/
def State.operandPlaces (s : State) (aligned : Bool) (g : SegReg) (ea : Addr) (n : Nat) :
    Host.Outcome (List Nat) Fault Refusal :=
  match s.segCheck g ea n with
  | some f => .fault f
  | none =>
    if aligned && decide ((s.linear g ea).toNat % 16 ≠ 0) then .fault .generalProtection
    else
      match s.translateAll (s.byteAddrs (s.linear g ea) n) with
      | .ok ps => if ps.any s.isDevice then .refused .deviceMemory else .next ps
      | .error (bad, code) => .fault (.pageFault code (s.pfAddr (s.linear g ea) n bad))

theorem State.readOperand_eq_places (s : State) (al : Bool) (g : SegReg) (ea : Addr) (n : Nat) :
    s.readOperand al g ea n = andThen (s.operandPlaces al g ea n) fun ps => .next (ps.map s.mem.read) := by
  unfold State.readOperand State.operandPlaces State.readLinear State.readPhys
  cases s.segCheck g ea n with
  | some f => rfl
  | none =>
    cases al && decide ((s.linear g ea).toNat % 16 ≠ 0) with
    | true => rfl
    | false =>
      cases s.translateAll (s.byteAddrs (s.linear g ea) n) with
      | error x => rfl
      | ok ps => cases hd : ps.any s.isDevice <;> simp [hd, andThen]

/-- The places of an instruction's memory operand; none for a register form. -/
def placesOf (s : State) (i : Instr) : Host.Outcome (List Nat) Fault Refusal :=
  match i.memOp with
  | none => .next []
  | some o => s.operandPlaces i.isLegacy (Instr.segOf i s o) (Instr.eaOf i s o) i.operandBytes

theorem operandOf_eq_places (s : State) (i : Instr) :
    operandOf s i = andThen (placesOf s i) fun ps => .next (ps.map s.mem.read) := by
  unfold operandOf placesOf
  cases i.memOp with
  | none => rfl
  | some o => exact s.readOperand_eq_places ..

theorem andThen_assoc {α β γ : Type} (o : Host.Outcome α Fault Refusal) (k : α → Host.Outcome β Fault Refusal)
    (l : β → Host.Outcome γ Fault Refusal) : andThen (andThen o k) l = andThen o fun a => andThen (k a) l := by
  cases o <;> rfl

/-- The stages of R86 with the places of the operand in place of its bytes. -/
theorem exec_eq_places (i : Instr) (s : State) :
    exec i s =
      match s.preCheck i.len (udOf s i) with
      | some f => .fault f
      | none =>
        andThen (placesOf s i) fun ps => .next (s.complete i.dst (resultOf s (ps.map s.mem.read) i) i.len) := by
  rw [exec_eq, operandOf_eq_places, andThen_assoc]
  rfl

/-- An operand all of whose bytes translate has one place for each of them. -/
theorem State.translateAll_byteAddrs {s : State} {la : Addr} {n : Nat} {ps : List Nat}
    (h : s.translateAll (s.byteAddrs la n) = .ok ps) :
    ps.length = n ∧ ∀ j (hj : j < ps.length), s.translate (s.byteAddr la j) = .ok ps[j] := by
  rw [State.translateAll_eq_ok, State.byteAddrs, List.forall₂_iff_get] at h
  obtain ⟨length, each⟩ := h
  simp only [List.length_map, List.length_range] at length each
  refine ⟨length.symm, fun j hj => ?_⟩
  simpa using each j (length ▸ hj) hj

/-- Every place of an operand is where one of its bytes translates. -/
theorem State.exists_byte_of_place {s : State} {la : Addr} {n : Nat} {ps : List Nat}
    (h : s.translateAll (s.byteAddrs la n) = .ok ps) {p : Nat} (hp : p ∈ ps) :
    ∃ j < n, s.translate (s.byteAddr la j) = .ok p := by
  obtain ⟨length, each⟩ := State.translateAll_byteAddrs h
  obtain ⟨j, hj, rfl⟩ := List.getElem_of_mem hp
  exact ⟨j, length ▸ hj, each j hj⟩

/-- Every byte of an operand translates, if all do. -/
theorem State.exists_place_of_byte {s : State} {la : Addr} {n : Nat} {ps : List Nat}
    (h : s.translateAll (s.byteAddrs la n) = .ok ps) {j : Nat} (hj : j < n) :
    ∃ p, s.translate (s.byteAddr la j) = .ok p := by
  obtain ⟨length, each⟩ := State.translateAll_byteAddrs h
  exact ⟨_, each j (length ▸ hj)⟩

/-- What it takes to place an operand. -/
theorem State.operandPlaces_eq_next {s : State} {al : Bool} {g : SegReg} {ea : Addr} {n : Nat} {ps : List Nat} :
    s.operandPlaces al g ea n = .next ps ↔
      s.segCheck g ea n = none ∧ (al = true → (s.linear g ea).toNat % 16 = 0) ∧
        s.translateAll (s.byteAddrs (s.linear g ea) n) = .ok ps ∧ ps.any s.isDevice = false := by
  unfold State.operandPlaces
  cases s.segCheck g ea n with
  | some f => simp
  | none =>
    by_cases misaligned : al = true ∧ (s.linear g ea).toNat % 16 ≠ 0
    · simp [misaligned]
    · have aligned : al = true → (s.linear g ea).toNat % 16 = 0 := by simpa using misaligned
      have passes : (al && decide ((s.linear g ea).toNat % 16 ≠ 0)) = false := by simpa using aligned
      simp only [passes, Bool.false_eq_true, if_false, true_and]
      cases s.translateAll (s.byteAddrs (s.linear g ea) n) with
      | error x => simp
      | ok qs => cases hd : qs.any s.isDevice <;> simp <;> grind

/-! ### Two states that execute alike -/

/-- Where two states make the same checks, place the operand alike, and complete alike, they execute alike. -/
theorem exec_congr {i : Instr} {s s' : State} (f : State → State)
    (checks : s'.preCheck i.len (udOf s' i) = s.preCheck i.len (udOf s i)) (places : placesOf s' i = placesOf s i)
    (completes : ∀ ps, placesOf s i = .next ps →
      s'.complete i.dst (resultOf s' (ps.map s'.mem.read) i) i.len =
        f (s.complete i.dst (resultOf s (ps.map s.mem.read) i) i.len)) :
    exec i s' = mapNext f (exec i s) := by
  rw [exec_eq_places, exec_eq_places, checks, places]
  cases s.preCheck i.len (udOf s i) with
  | some x => rfl
  | none =>
    cases h : placesOf s i with
    | next ps => exact congrArg _ (completes ps h)
    | fault x => rfl
    | refused r => rfl

theorem State.translateAll_congr {s s' : State} (h : ∀ a, s'.translate a = s.translate a) (as : List Addr) :
    s'.translateAll as = s.translateAll as := by
  induction as with
  | nil => rfl
  | cons a as ih => simp only [State.translateAll, h, ih]

/-- The state with other contents in every register and in memory but those that place an operand. -/
def State.withUnread (s u : State) : State :=
  { s with vr := u.vr, eflags := u.eflags, mxcsr := u.mxcsr, cr2 := u.cr2, mem := u.mem }

/-- No vector register, flag or byte of memory places an operand, and neither does CR2. -/
theorem placesOf_withUnread (s u : State) (i : Instr) : placesOf (s.withUnread u) i = placesOf s i := by
  have translateAll (as : List Addr) : (s.withUnread u).translateAll as = s.translateAll as :=
    State.translateAll_congr (s := s) (s' := s.withUnread u) (fun _ => rfl) as
  unfold placesOf
  split
  · rfl
  · unfold State.operandPlaces
    simp only [translateAll]
    rfl

/-- Nor does one of them enter the checks before the operand. -/
theorem preCheck_withUnread (s u : State) (i : Instr) :
    (s.withUnread u).preCheck i.len (udOf (s.withUnread u) i) = s.preCheck i.len (udOf s i) := by
  cases i <;> rfl

/-- Settles O24. Of what completes only the register file and RIP differ from the state before (`State.complete_eq`),
and the result is computed from vector registers and the operand. -/
theorem flagsNeitherReadNorWritten : Obligations.FlagsNeitherReadNorWritten := by
  intro i s f x
  have unread : ({ s with eflags := f, mxcsr := x } : State) = s.withUnread { s with eflags := f, mxcsr := x } := rfl
  rw [unread]
  exact exec_congr _ (preCheck_withUnread ..) (placesOf_withUnread ..) fun ps _ => by cases i <;> rfl

/-- Settles O26. An exception comes from the checks or from placing the operand. -/
theorem exceptionsIndependentOfData : Obligations.ExceptionsIndependentOfData := by
  intro i s f v raised
  have unread : ({ s with vr := v } : State) = s.withUnread { s with vr := v } := rfl
  rw [exec_eq_places] at raised ⊢
  rw [unread, preCheck_withUnread, placesOf_withUnread]
  cases hc : s.preCheck i.len (udOf s i) with
  | some x => simpa [hc] using raised
  | none =>
    rw [hc] at raised
    obtain hp | ⟨ps, -, h⟩ := andThen_eq_fault.mp raised
    · simp [hp, andThen]
    · cases h

/-! ### The old destination (R83, R84) -/

/-- A register written twice holds the second value. -/
theorem State.complete_writeVr (s : State) (dst : RegNum) (v w : VReg) (len : Nat) :
    (s.writeVr dst v).complete dst w len = s.complete dst w len := by
  simp only [State.complete, State.writeVr, Vector.set_set]
  rfl

/-- A form whose result does not depend on its destination executes alike whatever that holds. -/
theorem exec_writeVr_dst {i : Instr} {s : State} {v : VReg}
    (result : ∀ m, resultOf (s.writeVr i.dst v) m i = resultOf s m i) : exec i (s.writeVr i.dst v) = exec i s := by
  have unread : s.writeVr i.dst v = s.withUnread (s.writeVr i.dst v) := rfl
  have same := exec_congr (s := s) (s' := s.writeVr i.dst v) (i := i) id (by rw [unread, preCheck_withUnread])
    (by rw [unread, placesOf_withUnread]) fun ps _ => by rw [result, State.complete_writeVr]; rfl
  rw [same]
  cases exec i s <;> rfl

theorem State.xmm_writeVr_other {s : State} {n m : RegNum} (h : m ≠ n) (v : VReg) :
    (s.writeVr n v).xmm m = s.xmm m := by
  rw [State.xmm, State.readVr_writeVr_other s v h, State.xmm]

theorem State.ymm_writeVr_other {s : State} {n m : RegNum} (h : m ≠ n) (v : VReg) :
    (s.writeVr n v).ymm m = s.ymm m := by
  rw [State.ymm, State.readVr_writeVr_other s v h, State.ymm]

/-- Settles O21. The result of a VEX form is a function of its sources alone. -/
theorem vexOldDestinationIrrelevant : Obligations.VexOldDestinationIrrelevant := by
  intro e dst src1 src2 o imm v s h1
  have x1 := State.xmm_writeVr_other (s := s) h1.symm v
  have y1 := State.ymm_writeVr_other (s := s) h1.symm v
  refine ⟨fun h2 => ?_, ?_, ?_⟩
  · have x2 := State.xmm_writeVr_other (s := s) h2.symm v
    have y2 := State.ymm_writeVr_other (s := s) h2.symm v
    exact ⟨exec_writeVr_dst (i := .vmpsadbw128Reg e dst src1 src2 imm) fun m => by simp [resultOf, Instr.dst, x1, x2],
      exec_writeVr_dst (i := .vmpsadbw256Reg e dst src1 src2 imm) fun m => by simp [resultOf, Instr.dst, y1, y2]⟩
  · exact exec_writeVr_dst (i := .vmpsadbw128Mem e dst src1 o imm) fun m => by simp [resultOf, Instr.dst, x1]
  · exact exec_writeVr_dst (i := .vmpsadbw256Mem e dst src1 o imm) fun m => by simp [resultOf, Instr.dst, y1]

/-! ### The immediate's ignored bits (R63) -/

/-- The selects of the low lane are bits 2:0. -/
theorem selectLo_congr {imm imm' : BitVec 8} (h : imm'.toNat % 8 = imm.toNat % 8) :
    s1Lo imm' = s1Lo imm ∧ s2Lo imm' = s2Lo imm := by
  refine ⟨BitVec.eq_of_toNat_eq ?_, BitVec.eq_of_toNat_eq ?_⟩
  · rw [s1Lo_toNat, s1Lo_toNat]; omega
  · rw [s2Lo_toNat, s2Lo_toNat]; omega

/-- The selects of both lanes are bits 5:0. -/
theorem selectHi_congr {imm imm' : BitVec 8} (h : imm'.toNat % 64 = imm.toNat % 64) :
    s1Hi imm' = s1Hi imm ∧ s2Hi imm' = s2Hi imm := by
  refine ⟨BitVec.eq_of_toNat_eq ?_, BitVec.eq_of_toNat_eq ?_⟩
  · rw [s1Hi_toNat, s1Hi_toNat]; omega
  · rw [s2Hi_toNat, s2Hi_toNat]; omega

theorem sad128_congr {imm imm' : BitVec 8} (h : imm'.toNat % 8 = imm.toNat % 8) (a b : Lane) :
    sad128 a b imm' = sad128 a b imm := by
  rw [sad128, sad128, (selectLo_congr h).1, (selectLo_congr h).2]

theorem sad256_congr {imm imm' : BitVec 8} (h : imm'.toNat % 64 = imm.toNat % 64) (a b : BitVec 256) :
    sad256 a b imm' = sad256 a b imm := by
  have low : imm'.toNat % 8 = imm.toNat % 8 := by omega
  rw [sad256, sad256, (selectLo_congr low).1, (selectLo_congr low).2, (selectHi_congr h).1, (selectHi_congr h).2]

/-- Two instructions that differ in what no stage of R86 reads execute alike. -/
theorem exec_eq_exec {i i' : Instr} {s : State} (len : i'.len = i.len) (dst : i'.dst = i.dst)
    (ud : udOf s i' = udOf s i) (operand : operandOf s i' = operandOf s i)
    (result : ∀ m, resultOf s m i' = resultOf s m i) : exec i' s = exec i s := by
  rw [exec_eq, exec_eq, len, dst, ud, operand]
  simp only [result]

/-- Settles O18. The immediate enters an execution through its selects alone. -/
theorem immediateIgnoredBits : Obligations.ImmediateIgnoredBits := by
  intro imm imm' s
  refine ⟨fun h => ⟨?_, ?_, ?_, ?_⟩, fun h => ⟨?_, ?_⟩⟩ <;> intros
  iterate 4 exact exec_eq_exec rfl rfl rfl rfl fun m => by simp only [resultOf, sad128_congr h]
  iterate 2 exact exec_eq_exec rfl rfl rfl rfl fun m => by simp only [resultOf, sad256_congr h]

/-! ### Memory outside the blocks (R80) -/

/-- A 128-bit computation reads four bytes of its second source, if that is an operand's number. -/
theorem sad128_leNat_congr {bs bs' : List Byte} {imm : BitVec 8} (len : bs.length = 16) (len' : bs'.length = 16)
    (block2 : ∀ k < 4, bs'[4 * (imm.toNat % 4) + k]? = bs[4 * (imm.toNat % 4) + k]?) (a : Lane) :
    sad128 a (BitVec.ofNat 128 (leNat bs')) imm = sad128 a (BitVec.ofNat 128 (leNat bs)) imm := by
  refine sad8_congr (fun _ _ => rfl) fun k hk => ?_
  rw [byteOf_leNat _ _ (by omega), byteOf_leNat _ _ (by omega), s2Lo_toNat, block2 k hk]

/-- A 256-bit computation reads four bytes of each lane of its second source, if that is an operand's number. -/
theorem sad256_leNat_congr {bs bs' : List Byte} {imm : BitVec 8} (len : bs.length = 32) (len' : bs'.length = 32)
    (block2 : ∀ k < 4, bs'[4 * (imm.toNat % 4) + k]? = bs[4 * (imm.toNat % 4) + k]?)
    (block4 : ∀ k < 4, bs'[16 + (4 * (imm.toNat / 8 % 4) + k)]? = bs[16 + (4 * (imm.toNat / 8 % 4) + k)]?)
    (a : BitVec 256) :
    sad256 a (BitVec.ofNat 256 (leNat bs')) imm = sad256 a (BitVec.ofNat 256 (leNat bs)) imm := by
  have lane (lo : Nat) {j : Nat} (hj : j < 16) (h : bs'[lo + j]? = bs[lo + j]?) :
      byteOf ((BitVec.ofNat 256 (leNat bs')).extractLsb' (8 * lo) 128) j =
        byteOf ((BitVec.ofNat 256 (leNat bs)).extractLsb' (8 * lo) 128) j := by
    rw [byteOf_extractLane _ _ _ hj, byteOf_extractLane _ _ _ hj, byteOf_leNat _ _ (by omega),
      byteOf_leNat _ _ (by omega), h]
  have low := sad8_congr (s1 := s1Lo imm) (s2 := s2Lo imm) (a := a.extractLsb' 0 128) (fun _ _ => rfl) fun k hk =>
    lane 0 (j := 4 * (s2Lo imm).toNat + k) (by omega) (by simpa [s2Lo_toNat] using block2 k hk)
  have high := sad8_congr (s1 := s1Hi imm) (s2 := s2Hi imm) (a := a.extractLsb' 128 128) (fun _ _ => rfl) fun k hk =>
    lane 16 (j := 4 * (s2Hi imm).toNat + k) (by omega) (by simpa [s2Hi_toNat] using block4 k hk)
  exact congrArg₂ (· ++ ·) high low

/-- The result of a memory form depends on no byte of its operand outside the blocks. -/
theorem resultOf_congr_blocks {i : Instr} {o : MemOp} (ho : i.memOp = some o) {bs bs' : List Byte}
    (len : bs.length = i.operandBytes) (len' : bs'.length = i.operandBytes)
    (blocks : ∀ j < i.operandBytes, inBlock i j → bs'[j]? = bs[j]?) (s : State) :
    resultOf s bs' i = resultOf s bs i := by
  have sixteen : 16 ≤ i.operandBytes := by cases i <;> simp [Instr.operandBytes]
  have block2 : ∀ k < 4, bs'[4 * (i.imm8.toNat % 4) + k]? = bs[4 * (i.imm8.toNat % 4) + k]? := fun k hk =>
    blocks _ (by omega) (.inl ⟨by omega, by omega⟩)
  have block4 (wide : i.operandBytes = 32) : ∀ k < 4,
      bs'[16 + (4 * (i.imm8.toNat / 8 % 4) + k)]? = bs[16 + (4 * (i.imm8.toNat / 8 % 4) + k)]? := fun k hk =>
    blocks _ (by omega) (.inr ⟨wide, by omega, by omega⟩)
  cases i with
  | mpsadbwReg | vmpsadbw128Reg | vmpsadbw256Reg => cases ho
  | mpsadbwMem e d o imm | vmpsadbw128Mem e d v o imm =>
    simp only [resultOf, sad128_leNat_congr (imm := imm) len len' block2]
  | vmpsadbw256Mem e d v o imm =>
    simp only [resultOf, sad256_leNat_congr (imm := imm) len len' block2 (block4 rfl)]

/-- The places of a memory form are those of its bytes, in order. -/
theorem placesOf_eq_next {i : Instr} {o : MemOp} (ho : i.memOp = some o) {s : State} {ps : List Nat}
    (h : placesOf s i = .next ps) :
    ps.length = i.operandBytes ∧
      ∀ j (hj : j < ps.length), s.translate (s.byteAddr (Instr.laOf i s o) j) = .ok ps[j] := by
  simp only [placesOf, ho] at h
  obtain ⟨-, -, translated, -⟩ := State.operandPlaces_eq_next.mp h
  exact State.translateAll_byteAddrs translated

/-- Settles O23. Memory enters after the operand is placed, and then only through the result. -/
theorem onlyTheBlocksMatter : Obligations.OnlyTheBlocksMatter := by
  intro i o s mem' ho same
  have unread : ({ s with mem := mem' } : State) = s.withUnread { s with mem := mem' } := rfl
  refine exec_congr _ (by rw [unread, preCheck_withUnread]) (by rw [unread, placesOf_withUnread]) fun ps placed => ?_
  obtain ⟨length, each⟩ := placesOf_eq_next ho placed
  have result : resultOf s (ps.map mem'.read) i = resultOf s (ps.map s.mem.read) i := by
    refine resultOf_congr_blocks ho (by simpa using length) (by simpa using length) (fun j hj block => ?_) s
    have hj' : j < ps.length := length ▸ hj
    simpa [hj'] using same j hj block _ (each j hj')
  have resultMem (m : List Byte) : resultOf ({ s with mem := mem' } : State) m i = resultOf s m i := by cases i <;> rfl
  rw [resultMem, result]
  rfl

/-! ### The privilege level (R113) -/

/-- Where an address may be read at two levels it stands at one place. -/
theorem State.translate_cpl {s : State} {c : BitVec 2} {a : Addr} {p q : Nat} (hp : s.translate a = .ok p)
    (hq : ({ s with cpl := c } : State).translate a = .ok q) :
    ({ s with cpl := c } : State).translate a = .ok p := by
  rw [hq]
  rcases State.translate_eq_ok.mp hp with ⟨off, rfl⟩ | ⟨regions, r, paged, notReal, found, -, rfl⟩ <;>
    rcases State.translate_eq_ok.mp hq with ⟨off', rfl⟩ | ⟨regions', r', paged', notReal', found', -, rfl⟩
  · rfl
  · rcases off with off | real
    · cases off.symm.trans paged'
    · exact absurd real notReal'
  · rcases off' with off' | real'
    · cases off'.symm.trans paged
    · exact absurd real' notReal
  · obtain rfl : regions = regions' := Translation.paged.inj (paged.symm.trans paged')
    obtain rfl : r = r' := Option.some.inj (found.symm.trans found')
    rfl

/-- An operand that may be read at two levels stands at the same places. -/
theorem placesOf_cpl {i : Instr} {s : State} {c : BitVec 2} {ps : List Nat}
    (readable : ∀ o, i.memOp = some o → ∀ j < i.operandBytes,
      ∃ p, ({ s with cpl := c } : State).translate (s.byteAddr (Instr.laOf i s o) j) = .ok p)
    (placed : placesOf s i = .next ps) : placesOf { s with cpl := c } i = .next ps := by
  unfold placesOf at placed ⊢
  split at placed
  · exact placed
  · rename_i o ho
    obtain ⟨segment, aligned, translated, ordinary⟩ := State.operandPlaces_eq_next.mp placed
    refine State.operandPlaces_eq_next.mpr ⟨segment, aligned, ?_, ordinary⟩
    rw [State.translateAll_eq_ok] at translated ⊢
    refine List.forall₂_iff_get.mpr ⟨translated.length_eq, fun j h1 h2 => ?_⟩
    have here := (List.forall₂_iff_get.mp translated).2 j h1 h2
    simp only [State.byteAddrs, List.length_map, List.length_range] at h1
    obtain ⟨q, hq⟩ := readable o ho j h1
    refine State.translate_cpl here (q := q) ?_
    simp only [State.byteAddrs, List.get_eq_getElem, List.getElem_map, List.getElem_range]
    exact hq

/-- Settles O25. At both levels the checks and the places of the operand are the same. -/
theorem privilegeLevelIrrelevant : Obligations.PrivilegeLevelIrrelevant := by
  intro i s t c readable completed
  obtain ⟨decodable, m, operand, rfl⟩ := exec_eq_next.mp completed
  rw [operandOf_eq_places, andThen_eq_next] at operand
  obtain ⟨ps, placed, bytes⟩ := operand
  refine exec_eq_next.mpr ⟨by cases i <;> exact decodable, m, ?_, by cases i <;> rfl⟩
  rw [operandOf_eq_places, placesOf_cpl readable placed]
  exact bytes

/-! ### CR2, and the restart after a fault (R109) -/

theorem exec_cr2 (i : Instr) (s : State) (a : Addr) :
    exec i { s with cr2 := a } = mapNext (fun t => { t with cr2 := a }) (exec i s) := by
  have unread : ({ s with cr2 := a } : State) = s.withUnread { s with cr2 := a } := rfl
  rw [unread]
  exact exec_congr _ (preCheck_withUnread ..) (placesOf_withUnread ..) fun ps _ => by cases i <;> rfl

/-- No step reads CR2 or writes it, but for the fault of R105. -/
theorem step_cr2 (s : State) (a : Addr) :
    step { s with cr2 := a } = mapNext (fun t => { t with cr2 := a }) (step s) := by
  have fetched : ({ s with cr2 := a } : State).fetchBytes = s.fetchBytes := by
    simp only [State.fetchBytes, State.fetchFrom_eq]
    rfl
  cases ended : s.atEnd with
  | true => rw [step_eq_endOfProgram.mpr ended, (step_eq_endOfProgram (s := { s with cr2 := a })).mpr ended]; rfl
  | false =>
    cases decoded : decode s.mode s.fetchBytes with
    | error e =>
      rw [step_of_decode_error ended decoded,
        step_of_decode_error (s := { s with cr2 := a }) ended (by rw [fetched]; exact decoded)]
      rfl
    | ok x =>
      obtain ⟨i, rest⟩ := x
      rw [step_of_decode ended decoded,
        step_of_decode (s := { s with cr2 := a }) ended (by rw [fetched]; exact decoded), exec_cr2]
      have inPlace : ({ s with cr2 := a } : State).fetchStraddles i.len = s.fetchStraddles i.len := rfl
      rw [inPlace]
      split <;> rfl

theorem State.atFault_eq (s : State) (f : Fault) : s.atFault f = { s with cr2 := (s.atFault f).cr2 } := by
  cases f <;> rfl

/-- Settles O38. The faulted state is the state before but for CR2 (`State.atFault_eq`), which the step from it does not
read. -/
theorem faultChangesNothing : Obligations.FaultChangesNothing := by
  intro s f _
  rw [State.atFault_eq s f]
  refine ⟨rfl, fun _ => rfl, fun dst => ?_, fun tr => step_cr2 { s with translation := tr } _⟩
  simp [State.SameBut]

end Sys2Proof.Machine
end

section
/-! The exceptions of the operand, their order and their causes (R32, R34, R101, R103 to R108, R114, R116, R133). -/

namespace Sys2Proof.Machine

open Sys2Proof

/-! ### What raises an exception -/

/-- An instruction that the checks before the operand stop raises an exception (R108). -/
theorem exec_fault_of_not_decodable {i : Instr} {s : State} (h : ¬ s.Decodable i) : ∃ f, exec i s = .fault f := by
  rw [← preCheck_eq_none_iff] at h
  obtain ⟨f, hf⟩ := Option.ne_none_iff_exists'.mp h
  exact ⟨f, exec_eq_fault.mpr (.inl hf)⟩

/-- Past those checks the exceptions are those of the memory operand. -/
theorem exec_eq_fault_of_decodable {i : Instr} {s : State} {f : Fault} (h : s.Decodable i) :
    exec i s = .fault f ↔ ∃ o, i.memOp = some o ∧
      s.readOperand i.isLegacy (Instr.segOf i s o) (Instr.eaOf i s o) i.operandBytes = .fault f := by
  refine ⟨fun raised => ?_, fun ⟨o, ho, operand⟩ => exec_fault_of_operand h ho operand⟩
  obtain ⟨len, noCause, noTs⟩ := h
  obtain ⟨long, -⟩ | ⟨-, cause, -⟩ | ⟨-, -, ts, -⟩ | ⟨-, operand⟩ := exec_fault_cases raised
  · exact absurd len (Nat.not_le.mpr long)
  · exact absurd cause noCause
  · rw [noTs] at ts
    cases ts
  · exact operand

/-- The exception of a failed segment check (R36). -/
def State.segmentFault (s : State) (g : SegReg) : Fault :=
  if g = .ss ∧ s.mode ≠ .real ∧ s.mode ≠ .v8086 then .stackSegment else .generalProtection

theorem State.segmentFault_eq_stackSegment {s : State} {g : SegReg} :
    s.segmentFault g = .stackSegment ↔ g = .ss ∧ s.mode ≠ .real ∧ s.mode ≠ .v8086 := by
  unfold State.segmentFault
  split <;> simp_all

theorem State.segmentFault_eq_generalProtection {s : State} {g : SegReg} :
    s.segmentFault g = .generalProtection ↔ g ≠ .ss ∨ s.mode = .real ∨ s.mode = .v8086 := by
  unfold State.segmentFault
  split <;> grind

/-- The operand's exceptions and their causes, in the order of R108. -/
theorem State.readOperand_eq_fault_iff {s : State} {al : Bool} {g : SegReg} {ea : Addr} {n : Nat} {f : Fault}
    (hn : 0 < n) :
    s.readOperand al g ea n = .fault f ↔
      (s.SegFails g ea n ∧ f = s.segmentFault g) ∨
      (¬ s.SegFails g ea n ∧ al = true ∧ (s.linear g ea).toNat % 16 ≠ 0 ∧ f = .generalProtection) ∨
      (¬ s.SegFails g ea n ∧ (al = true → (s.linear g ea).toNat % 16 = 0) ∧
        ∃ bad c, s.translateAll (s.byteAddrs (s.linear g ea) n) = .error (bad, c) ∧
          f = .pageFault c (s.pfAddr (s.linear g ea) n bad)) := by
  refine ⟨State.readOperand_fault_cases hn, ?_⟩
  rintro (⟨fails, rfl⟩ | ⟨passes, rfl, misaligned, rfl⟩ | ⟨passes, aligned, bad, c, translated, rfl⟩)
  · exact State.readOperand_segment (State.segCheck_of_segFails hn fails)
  · exact State.readOperand_misaligned ((State.segCheck_eq_none hn).mpr passes) misaligned
  · exact State.readOperand_pageFault ((State.segCheck_eq_none hn).mpr passes) aligned translated

section Causes

variable {i : Instr} {o : MemOp} {s : State}

theorem exec_of_segFails (h : s.Decodable i) (ho : i.memOp = some o)
    (fails : s.SegFails (Instr.segOf i s o) (Instr.eaOf i s o) i.operandBytes) :
    exec i s = .fault (s.segmentFault (Instr.segOf i s o)) :=
  exec_fault_of_operand h ho ((State.readOperand_eq_fault_iff (Instr.operandBytes_pos i)).mpr (.inl ⟨fails, rfl⟩))

theorem exec_of_misaligned (h : s.Decodable i) (ho : i.memOp = some o)
    (passes : ¬ s.SegFails (Instr.segOf i s o) (Instr.eaOf i s o) i.operandBytes) (legacy : i.isLegacy = true)
    (misaligned : (Instr.laOf i s o).toNat % 16 ≠ 0) : exec i s = .fault .generalProtection :=
  exec_fault_of_operand h ho
    ((State.readOperand_eq_fault_iff (Instr.operandBytes_pos i)).mpr (.inr (.inl ⟨passes, legacy, misaligned, rfl⟩)))

/-- The first byte whose translation fails gives the page fault, and CR2 a byte of the operand in its page (R105). -/
theorem exec_of_translate_error (h : s.Decodable i) (ho : i.memOp = some o)
    (passes : ¬ s.SegFails (Instr.segOf i s o) (Instr.eaOf i s o) i.operandBytes)
    (aligned : i.isLegacy = true → (Instr.laOf i s o).toNat % 16 = 0) {j : Nat} (hj : j < i.operandBytes)
    (before : ∀ k < j, ∃ p, s.translate (s.byteAddr (Instr.laOf i s o) k) = .ok p) {c : BitVec 32}
    (here : s.translate (s.byteAddr (Instr.laOf i s o) j) = .error c) :
    ∃ a, exec i s = .fault (.pageFault c a) ∧
      (∃ k < i.operandBytes, a = s.byteAddr (Instr.laOf i s o) k) ∧
      a >>> pageBits = (s.byteAddr (Instr.laOf i s o) j) >>> pageBits := by
  refine ⟨_, exec_fault_of_operand h ho ((State.readOperand_eq_fault_iff (Instr.operandBytes_pos i)).mpr
    (.inr (.inr ⟨passes, aligned, _, c, State.translateAll_first hj before here, rfl⟩))), ?_⟩
  have candidate := State.pfAddr_mem (s := s) (la := Instr.laOf i s o) hj
  simp only [State.pfCandidates, State.byteAddrs, List.mem_filter, List.mem_map, List.mem_range, samePage,
    decide_eq_true_eq] at candidate
  obtain ⟨⟨k, hk, address⟩, page⟩ := candidate
  exact ⟨⟨k, hk, address.symm⟩, page.symm⟩

end Causes

/-! ### The causes of each exception -/

/-- Settles O30. Of the operand's three exceptions only a failed segment check can be `#SS(0)`. -/
theorem stackSegmentCauses : Obligations.StackSegmentCauses := by
  intro i s h
  refine ⟨fun raised => ?_, fun ⟨o, ho, ss, notReal, notV, fails⟩ => ?_⟩
  · obtain ⟨o, ho, operand⟩ := (exec_eq_fault_of_decodable h).mp raised
    obtain ⟨fails, fault⟩ | ⟨-, -, -, fault⟩ | ⟨-, -, bad, c, -, fault⟩ :=
      (State.readOperand_eq_fault_iff (Instr.operandBytes_pos i)).mp operand
    · obtain ⟨ss, notReal, notV⟩ := State.segmentFault_eq_stackSegment.mp fault.symm
      exact ⟨o, ho, ss, notReal, notV, ss ▸ fails⟩
    · cases fault
    · cases fault
  · rw [exec_of_segFails h ho (ss ▸ fails), State.segmentFault_eq_stackSegment.mpr ⟨ss, notReal, notV⟩]

/-- Settles O31. `#GP(0)` comes from the length, the segment check, or the alignment. -/
theorem generalProtectionCauses : Obligations.GeneralProtectionCauses := by
  refine ⟨rfl, rfl, fun i s => ⟨fun raised => ?_, ?_⟩⟩
  · obtain ⟨long, -⟩ | ⟨-, -, fault⟩ | ⟨-, -, -, fault⟩ | ⟨h, o, ho, operand⟩ := exec_fault_cases raised
    · exact .inl long
    · cases fault
    · cases fault
    · refine .inr ⟨h, o, ho, ?_⟩
      obtain ⟨fails, fault⟩ | ⟨passes, legacy, misaligned, -⟩ | ⟨-, -, bad, c, -, fault⟩ :=
        (State.readOperand_eq_fault_iff (Instr.operandBytes_pos i)).mp operand
      · exact .inl ⟨fails, State.segmentFault_eq_generalProtection.mp fault.symm⟩
      · exact .inr ⟨passes, legacy, misaligned⟩
      · cases fault
  · rintro (long | ⟨h, o, ho, ⟨fails, notSs⟩ | ⟨passes, legacy, misaligned⟩⟩)
    · exact exec_fault_of_checks.1 long
    · rw [exec_of_segFails h ho fails, State.segmentFault_eq_generalProtection.mpr notSs]
    · exact exec_of_misaligned h ho passes legacy misaligned

/-- Settles O32. The first failing byte stops the translation, and CR2 is one of its candidates. -/
theorem pageFaultOfLowestByte : Obligations.PageFaultOfLowestByte :=
  fun _ _ _ _ _ h ho passes aligned hj before here => exec_of_translate_error h ho passes aligned hj before here

/-- Settles O34, each clause by the lemma of its cause. -/
theorem exceptionPriority : Obligations.ExceptionPriority := by
  intro i s
  refine ⟨exec_fault_of_checks.1, exec_fault_of_checks.2.1, exec_fault_of_checks.2.2, fun o h ho =>
    ⟨fun fails => ?_, exec_of_misaligned h ho, fun passes aligned j hj before c here => ?_⟩⟩
  · rw [exec_of_segFails h ho fails, State.segmentFault]
    split
    · exact .inl rfl
    · exact .inr rfl
  · obtain ⟨a, raised, -⟩ := exec_of_translate_error h ho passes aligned hj before here
    exact ⟨a, raised⟩

/-- Settles O35. A byte that fails to translate leaves no list of places, and without one an operand is neither read nor
refused. -/
theorem everyOperandByteChecked : Obligations.EveryOperandByteChecked := by
  intro i o s ho failing
  by_cases h : s.Decodable i
  · obtain fails | ⟨j, hj, c, here⟩ := failing
    · exact ⟨_, exec_of_segFails h ho fails⟩
    · have untranslated (ps : List Nat) :
          s.translateAll (s.byteAddrs (Instr.laOf i s o) i.operandBytes) ≠ .ok ps := fun translated => by
        obtain ⟨p, hp⟩ := State.exists_place_of_byte translated hj
        rw [here] at hp
        cases hp
      cases executed : exec i s with
      | fault f => exact ⟨f, rfl⟩
      | next t =>
        obtain ⟨-, m, operand, -⟩ := exec_eq_next.mp executed
        simp only [operandOf, ho] at operand
        obtain ⟨-, -, ps, translated, -⟩ := State.readOperand_eq_next.mp operand
        exact absurd translated (untranslated ps)
      | refused r =>
        obtain ⟨-, operand⟩ := exec_eq_refused.mp executed
        simp only [operandOf, ho] at operand
        obtain ⟨-, ps, translated, -⟩ := State.readOperand_eq_refused operand
        exact absurd translated (untranslated ps)
  · exact exec_fault_of_not_decodable h

/-- Settles O36. Misalignment is tested for the legacy form alone. -/
theorem alignmentRule : Obligations.AlignmentRule := by
  intro i o s m h ho
  refine ⟨fun legacy passes misaligned => exec_of_misaligned h ho passes legacy misaligned, fun vex reads => ?_⟩
  exact ⟨_, exec_eq_next.mpr ⟨h, _, operandOf_of_reads ho reads (by simp [vex]), rfl⟩⟩

/-- Settles O39. What is refused has a byte in a device window. -/
theorem completesOrRaises : Obligations.CompletesOrRaises := by
  refine fun i s => ⟨fun f _ => by cases f <;> simp [Fault.vector], fun ordinary => ?_⟩
  cases executed : exec i s with
  | next t => exact .inl ⟨t, rfl⟩
  | fault f => exact .inr ⟨f, rfl⟩
  | refused r =>
    obtain ⟨-, operand⟩ := exec_eq_refused.mp executed
    unfold operandOf at operand
    split at operand
    · cases operand
    · rename_i o ho
      obtain ⟨-, ps, translated, device⟩ := State.readOperand_eq_refused operand
      obtain ⟨p, hp, isDevice⟩ := List.any_eq_true.mp device
      obtain ⟨j, hj, place⟩ := State.exists_byte_of_place translated hp
      simp [ordinary o ho j hj p place] at isDevice

/-! ### The page-fault error code (R116) -/

/-- Every code is one of `pfCode`, whose bits say what was denied (R116). -/
theorem Denial.code_bits (d : Denial) (cpl : BitVec 2) :
    (d = .notPresent → (d.code cpl).getLsbD 0 = false) ∧ (d = .protection ∨ d = .key → (d.code cpl).getLsbD 0 = true) ∧
      ((d.code cpl).getLsbD 3 = true ↔ ∃ p, d = .reservedBit p) ∧ ((d.code cpl).getLsbD 5 = true ↔ d = .key) := by
  have bits (p r k : Bool) : (pfCode p cpl r k).getLsbD 0 = p ∧ (pfCode p cpl r k).getLsbD 3 = r ∧
      (pfCode p cpl r k).getLsbD 5 = k := by
    obtain ⟨h0, -, -, h3, -, h5, -⟩ := pfCode_bits p cpl r k
    exact ⟨h0, h3, h5⟩
  cases d <;> simp only [Denial.code, bits] <;> simp

/-- What every code of a data read has: W/R, I/D and bits 6 and up are 0, and U/S is the level (R116). -/
theorem Denial.code_common (d : Denial) (cpl : BitVec 2) :
    (d.code cpl).getLsbD 1 = false ∧ (d.code cpl).getLsbD 4 = false ∧ (∀ b, 6 ≤ b → (d.code cpl).getLsbD b = false) ∧
      ((d.code cpl).getLsbD 2 = true ↔ cpl = 3#2) := by
  have all (p r k : Bool) : (pfCode p cpl r k).getLsbD 1 = false ∧ (pfCode p cpl r k).getLsbD 4 = false ∧
      (∀ b, 6 ≤ b → (pfCode p cpl r k).getLsbD b = false) ∧ ((pfCode p cpl r k).getLsbD 2 = true ↔ cpl = 3#2) := by
    obtain ⟨-, h1, h2, -, h4, -, h6⟩ := pfCode_bits p cpl r k
    exact ⟨h1, h4, h6, by rw [h2, decide_eq_true_eq]⟩
  cases d <;> exact all ..

theorem Denial.code_notPresent (cpl : BitVec 2) :
    Denial.notPresent.code cpl = if cpl = 3#2 then 4#32 else 0#32 := by
  revert cpl; decide

/-- Where the translation of an operand stops, it stops at one of its bytes, and those before it translate. -/
theorem State.exists_byte_of_translateAll_error {s : State} {la : Addr} {n : Nat} {bad : Addr} {c : BitVec 32}
    (h : s.translateAll (s.byteAddrs la n) = .error (bad, c)) :
    ∃ j < n, (∀ k < j, ∃ p, s.translate (s.byteAddr la k) = .ok p) ∧ s.translate (s.byteAddr la j) = .error c := by
  obtain ⟨pre, post, addresses, before, here⟩ := State.translateAll_eq_error h
  have length := congrArg List.length addresses
  simp only [State.byteAddrs_length, List.length_append, List.length_cons] at length
  have address {k : Nat} (hk : k < n) : (pre ++ bad :: post)[k]? = some (s.byteAddr la k) := by
    simp [← addresses, State.byteAddrs, hk]
  refine ⟨pre.length, by omega, fun k hk => before _ ?_, ?_⟩
  · have byte := address (k := k) (by omega)
    rw [List.getElem?_append_left hk] at byte
    exact List.mem_of_getElem? byte
  · have byte := address (k := pre.length) (by omega)
    rw [List.getElem?_append_right le_rfl, Nat.sub_self, List.getElem?_cons_zero, Option.some.injEq] at byte
    rw [← byte]
    exact here

/-- A page fault is that of the first byte of the operand whose translation fails. -/
theorem exists_byte_of_pageFault {i : Instr} {s : State} {c : BitVec 32} {a : Addr}
    (raised : exec i s = .fault (.pageFault c a)) :
    ∃ o j, i.memOp = some o ∧ j < i.operandBytes ∧
      (∀ k < j, ∃ p, s.translate (s.byteAddr (Instr.laOf i s o) k) = .ok p) ∧
      s.translate (s.byteAddr (Instr.laOf i s o) j) = .error c := by
  obtain ⟨-, fault⟩ | ⟨-, -, fault⟩ | ⟨-, -, -, fault⟩ | ⟨-, o, ho, operand⟩ := exec_fault_cases raised
  iterate 3 cases fault
  obtain ⟨-, fault⟩ | ⟨-, -, -, fault⟩ | ⟨-, -, bad, c', translated, fault⟩ :=
    (State.readOperand_eq_fault_iff (Instr.operandBytes_pos i)).mp operand
  · unfold State.segmentFault at fault
    split at fault <;> cases fault
  · cases fault
  · cases fault
    obtain ⟨j, hj, before, here⟩ := State.exists_byte_of_translateAll_error translated
    exact ⟨o, j, ho, hj, before, here⟩

/-- Settles O33. The byte's translation fails for want of a region or by its region's denial, and the code is the
denial's. -/
theorem pageFaultErrorCode : Obligations.PageFaultErrorCode := by
  intro i s c a raised
  obtain ⟨o, j, ho, hj, before, here⟩ := exists_byte_of_pageFault raised
  obtain ⟨regions, paged, -, ⟨noRegion, rfl⟩ | ⟨r, d, region, denied, rfl⟩⟩ := State.translate_eq_error.mp here
  · obtain ⟨write, fetch, high, user⟩ := Denial.code_common .notPresent s.cpl
    refine ⟨write, fetch, high, user, o, j, regions, ho, hj, before, here, paged, ?_⟩
    rw [noRegion]
    exact Denial.code_notPresent s.cpl
  · obtain ⟨write, fetch, high, user⟩ := d.code_common s.cpl
    refine ⟨write, fetch, high, user, o, j, regions, ho, hj, before, here, paged, ?_⟩
    rw [region]
    exact ⟨d, denied, d.code_bits s.cpl⟩

/-! ### Forms and modes (R100, R114) -/

/-- A register form past the checks completes. -/
theorem exec_register {i : Instr} {s : State} (h : s.Decodable i) (register : i.memOp = none) :
    exec i s = .next (s.complete i.dst (resultOf s [] i) i.len) :=
  exec_eq_next.mpr ⟨h, [], by simp [operandOf, register], rfl⟩

/-- Settles O40. The mode is itself a cause of `#UD` for a VEX form and none for the legacy form. -/
theorem realAndVirtualMode : Obligations.RealAndVirtualMode := by
  intro i s hm len
  refine ⟨fun vex => exec_fault_of_checks.2.1 len (State.udCause_of_vex hm vex), ?_⟩
  rintro e dst src2 imm rfl ready
  exact ⟨_, exec_register ((legacyReady_iff s e _).mp ready) rfl⟩

/-- Settles O28. The flag is a cause of `#UD` when it is missing; when it is there, AVX is too, and the two VEX forms
have the same causes. -/
theorem vexL1NeedsAvx2 : Obligations.VexL1NeedsAvx2 := by
  intro e dst src1 src2 o imm s
  have missing (h : s.hasAvx2 = false) : s.VexUdCause s.hasAvx2 e := by simp [State.VexUdCause, h]
  refine ⟨fun h len => exec_fault_of_checks.2.1 len (missing h), fun h len => exec_fault_of_checks.2.1 len (missing h),
    fun h raised => ?_⟩
  obtain ⟨-, fault⟩ | ⟨len, cause, -⟩ | ⟨-, -, -, fault⟩ | ⟨decodable, o', none, -⟩ := exec_fault_cases raised
  · cases fault
  · refine exec_fault_of_checks.2.1 len ?_
    simpa only [State.UdCause, h, State.hasAvx_of_hasAvx2 h] using cause
  · cases fault
  · cases none

end Sys2Proof.Machine
end

section
/-! The results of the six rows, and the laws over the forms (R80 to R88). -/

namespace Sys2Proof.Machine

open Sys2Proof

/-! ### What the destination holds -/

/-- The legacy write keeps the bits from 128 up to `MAXVL` (R82). -/
theorem State.complete_keepUpper (s : State) (dst : RegNum) (r : Lane) (len : Nat) {b : Nat} (hb : 128 ≤ b)
    (hb' : b < maxVlBits s.maxVl) :
    ((s.complete dst (keepUpper (s.readVr dst) r) len).readVr dst).getLsbD b = (s.readVr dst).getLsbD b := by
  have := maxVlBits_le s.maxVl
  rw [State.readVr_complete, getLsbD_readVr_writeVr_same, keepUpper_high _ _ _ hb (by omega)]
  simp [hb', show b < 512 by omega]

/-- A zero-extended result leaves every bit above it 0 (R83, R84). -/
theorem State.complete_setWidth_above (s : State) (dst : RegNum) {w : Nat} (r : BitVec w) (len : Nat) {b : Nat}
    (hb : w ≤ b) : ((s.complete dst (r.setWidth 512) len).readVr dst).getLsbD b = false := by
  rw [State.readVr_complete, getLsbD_readVr_writeVr_same, BitVec.getLsbD_setWidth, BitVec.getLsbD_of_ge r b hb]
  simp

/-! ### Results of the six rows -/

/-- Settles O11. What completes is `State.complete` with the legacy write, whose low lane holds the sums. -/
theorem legacyRegisterResult : Obligations.LegacyRegisterResult := by
  intro e dst src2 imm s ready
  refine ⟨_, exec_register ((legacyReady_iff s e _).mp ready) rfl, ?_,
    fun b hb hb' => s.complete_keepUpper _ _ _ hb hb', s.nextRip_toNat _, s.sameBut_complete ..⟩
  exact laneHolds_low s dst _ _ _ imm _ _ (keepUpper_low ..) (s.byteOf_xmm dst) (s.byteOf_xmm src2)

/-- Settles O12. As the register row, with the bytes read as the second source. -/
theorem legacyMemoryResult : Obligations.LegacyMemoryResult := by
  intro e dst o imm s m ready reads aligned
  refine ⟨_, exec_eq_next.mpr ⟨(legacyReady_iff s e _).mp ready, _, operandOf_of_reads rfl reads fun _ => aligned, rfl⟩,
    ?_, fun b hb hb' => s.complete_keepUpper _ _ _ hb hb', s.nextRip_toNat _, s.sameBut_complete ..⟩
  exact laneHolds_low s dst _ _ _ imm _ _ (keepUpper_low ..) (s.byteOf_xmm dst)
    (byteOf_leNat_map 16 m 128 (by decide))

/-- Settles O13. What completes is `State.complete` with the lane zero-extended. -/
theorem vex128RegisterResult : Obligations.Vex128RegisterResult := by
  intro e dst src1 src2 imm s ready
  refine ⟨_, exec_register ((vexReady_iff s _ e _).mp ready) rfl, ?_, fun b hb => s.complete_setWidth_above _ _ _ hb,
    s.nextRip_toNat _, s.sameBut_complete ..⟩
  exact laneHolds_low s dst _ _ _ imm _ _ (setWidth_low _) (s.byteOf_xmm src1) (s.byteOf_xmm src2)

/-- Settles O14. As the register row, with the bytes read as the second source. -/
theorem vex128MemoryResult : Obligations.Vex128MemoryResult := by
  intro e dst src1 o imm s m ready reads
  refine ⟨_, exec_eq_next.mpr ⟨(vexReady_iff s _ e _).mp ready, _, operandOf_of_reads rfl reads nofun, rfl⟩, ?_,
    fun b hb => s.complete_setWidth_above _ _ _ hb, s.nextRip_toNat _, s.sameBut_complete ..⟩
  exact laneHolds_low s dst _ _ _ imm _ _ (setWidth_low _) (s.byteOf_xmm src1)
    (byteOf_leNat_map 16 m 128 (by decide))

/-- The part of a ready 256-bit form has `MAXVL ≥ 256` (R6). -/
theorem State.maxVl_of_vexReady {s : State} {e : VexEnc} {len : Nat} (ready : s.VexReady s.hasAvx2 e len) :
    256 ≤ maxVlBits s.maxVl := by
  obtain ⟨-, hasAvx2, -⟩ := ready
  exact State.maxVl_of_hasAvx (State.hasAvx_of_hasAvx2 hasAvx2)

/-- Settles O15. Each lane of what is written is the lane function of that lane of the sources. -/
theorem vex256RegisterResult : Obligations.Vex256RegisterResult := by
  intro e dst src1 src2 imm s ready
  refine ⟨_, exec_register ((vexReady_iff s _ e _).mp ready) rfl, ?_, ?_,
    fun b hb => s.complete_setWidth_above _ _ _ hb, s.nextRip_toNat _, s.sameBut_complete ..⟩
  · exact laneHolds_low s dst _ _ _ imm _ _ (sad256_low ..) (s.byteOf_ymm_low src1) (s.byteOf_ymm_low src2)
  · exact laneHolds_high s dst _ _ _ imm _ _ (State.maxVl_of_vexReady ready) (sad256_high ..) (s.byteOf_ymm_high src1)
      (s.byteOf_ymm_high src2)

/-- Settles O16. As the register row, with each lane of the bytes read as that of the second source. -/
theorem vex256MemoryResult : Obligations.Vex256MemoryResult := by
  intro e dst src1 o imm s m ready reads
  have lane (lo : Nat) {j : Nat} (hj : j < 16) (h : lo + j < 32) :
      byteOf ((BitVec.ofNat 256 (leNat ((List.range 32).map m))).extractLsb' (8 * lo) 128) j = m (lo + j) := by
    rw [byteOf_extractLane _ _ _ hj, byteOf_leNat_map 32 m 256 (by decide) _ h]
  refine ⟨_, exec_eq_next.mpr ⟨(vexReady_iff s _ e _).mp ready, _, operandOf_of_reads rfl reads nofun, rfl⟩, ?_, ?_,
    fun b hb => s.complete_setWidth_above _ _ _ hb, s.nextRip_toNat _, s.sameBut_complete ..⟩
  · exact laneHolds_low s dst _ _ _ imm _ _ (sad256_low ..) (s.byteOf_ymm_low src1) fun j hj =>
      (lane 0 hj (by omega)).trans (congrArg m (Nat.zero_add j))
  · exact laneHolds_high s dst _ _ _ imm _ _ (State.maxVl_of_vexReady ready) (sad256_high ..) (s.byteOf_ymm_high src1)
      fun j hj => lane 16 hj (by omega)

/-! ### The low lane and the whole of a written register -/

theorem setWidth_keepUpper (old : VReg) (r : Lane) : (keepUpper old r).setWidth 128 = r := by
  rw [BitVec.setWidth_eq_extractLsb' (by decide), keepUpper_low]

/-- A register's low 128 bits after a write are those of the value. -/
theorem State.xmm_complete (s : State) (dst : RegNum) (v : VReg) (len : Nat) :
    (s.complete dst v len).xmm dst = v.setWidth 128 := by
  have := maxVlBits_ge s.maxVl
  rw [State.xmm, State.readVr_complete, State.readVr_writeVr_same]
  apply BitVec.eq_of_getLsbD_eq
  intro k hk
  simp [hk, show k < 512 by omega, show k < maxVlBits s.maxVl by omega]

/-- A register's low 256 bits after a write are those of the value, on a part that has as many. -/
theorem State.ymm_complete {s : State} (hw : 256 ≤ maxVlBits s.maxVl) (dst : RegNum) (v : VReg) (len : Nat) :
    (s.complete dst v len).ymm dst = v.setWidth 256 := by
  rw [State.ymm, State.readVr_complete, State.readVr_writeVr_same]
  apply BitVec.eq_of_getLsbD_eq
  intro k hk
  simp [hk, show k < 512 by omega, show k < maxVlBits s.maxVl by omega]

theorem State.ymm_low (s : State) (n : RegNum) : (s.ymm n).extractLsb' 0 128 = s.xmm n := by
  rw [State.ymm, State.xmm, BitVec.extractLsb'_setWidth_of_le (by decide), BitVec.setWidth_eq_extractLsb' (by decide)]

theorem setWidth_setWidth_512 {w : Nat} (hw : w ≤ 512) (r : BitVec w) : (r.setWidth 512).setWidth w = r := by
  rw [BitVec.setWidth_setWidth_of_le _ hw, BitVec.setWidth_eq]

section Completed

variable {dst src1 src2 : RegNum} {imm : BitVec 8} {s t : State}

theorem xmm_of_mpsadbwReg {e : LegacyEnc} (h : exec (.mpsadbwReg e dst src2 imm) s = .next t) :
    t.xmm dst = sad128 (s.xmm dst) (s.xmm src2) imm := by
  obtain ⟨-, m, -, rfl⟩ := exec_eq_next.mp h
  exact (s.xmm_complete dst _ _).trans (setWidth_keepUpper ..)

theorem xmm_of_vmpsadbw128Reg {e : VexEnc} (h : exec (.vmpsadbw128Reg e dst src1 src2 imm) s = .next t) :
    t.xmm dst = sad128 (s.xmm src1) (s.xmm src2) imm := by
  obtain ⟨-, m, -, rfl⟩ := exec_eq_next.mp h
  exact (s.xmm_complete dst _ _).trans (setWidth_setWidth_512 (by decide) _)

/-- A 256-bit form that completes runs on a part with 256 bits (R6, R101). -/
theorem maxVl_of_vmpsadbw256Reg {e : VexEnc} (h : exec (.vmpsadbw256Reg e dst src1 src2 imm) s = .next t) :
    256 ≤ maxVlBits s.maxVl := by
  obtain ⟨decodable, -⟩ := exec_eq_next.mp h
  exact State.maxVl_of_vexReady ((vexReady_iff s _ e _).mpr decodable)

theorem ymm_of_vmpsadbw256Reg {e : VexEnc} (h : exec (.vmpsadbw256Reg e dst src1 src2 imm) s = .next t) :
    t.ymm dst = sad256 (s.ymm src1) (s.ymm src2) imm := by
  have hw := maxVl_of_vmpsadbw256Reg h
  obtain ⟨-, m, -, rfl⟩ := exec_eq_next.mp h
  exact (State.ymm_complete hw dst _ _).trans (setWidth_setWidth_512 (by decide) _)

end Completed

/-! ### The intrinsics (R88) -/

/-- Settles O20: each register holds the form's computation, and the mask's bits are the immediate's. -/
theorem intrinsicsAreTheInstruction : Obligations.IntrinsicsAreTheInstruction := by
  intro dst src1 src2 mask s t
  have s1 : s1Lo (mask.setWidth 8) = mask.extractLsb' 2 1 := BitVec.extractLsb'_setWidth_of_le (by decide)
  have s2 : s2Lo (mask.setWidth 8) = mask.extractLsb' 0 2 := BitVec.extractLsb'_setWidth_of_le (by decide)
  have intrinsic (a b : Lane) : sad128 a b (mask.setWidth 8) = mmMpsadbwEpu8 a b mask := by
    rw [sad128, s1, s2, mmMpsadbwEpu8]
  refine ⟨fun e h => ?_, fun e h => ?_, fun e h => ?_⟩
  · rw [xmm_of_mpsadbwReg h, intrinsic]
  · rw [xmm_of_vmpsadbw128Reg h, intrinsic]
  · rw [ymm_of_vmpsadbw256Reg h, mm256MpsadbwEpu8, BitVec.setWidth_eq_extractLsb' (by decide)]

/-! ### The forms against each other (R87) -/

theorem sadOf_le (a b : Nat → Byte) (o1 o2 i : Nat) : sadOf a b o1 o2 i ≤ 1020 := by
  have bound (x y : Byte) : ((x.toNat : Int) - (y.toNat : Int)).natAbs ≤ 255 := absDiff_le x y
  have h0 := bound (a (o1 + i + 0)) (b (o2 + 0))
  have h1 := bound (a (o1 + i + 1)) (b (o2 + 1))
  have h2 := bound (a (o1 + i + 2)) (b (o2 + 2))
  have h3 := bound (a (o1 + i + 3)) (b (o2 + 3))
  simp only [sadOf, List.range_succ, List.range_zero, List.nil_append, List.cons_append, List.map_cons, List.map_nil,
    List.sum_cons, List.sum_nil]
  omega

/-- A window equal to block_2 sums to 0. -/
theorem sadOf_eq_zero {a b : Nat → Byte} {o1 o2 i : Nat} (h : ∀ k < 4, a (o1 + i + k) = b (o2 + k)) :
    sadOf a b o1 o2 i = 0 := by
  rw [sadOf, List.sum_eq_zero_iff]
  intro x hx
  obtain ⟨k, hk, rfl⟩ := List.mem_map.mp hx
  rw [h k (List.mem_range.mp hk)]
  omega

/-- The selects of the upper lane are those of the low lane in `imm8[5:3]` (R63). -/
theorem selectHi_eq (imm : BitVec 8) : s1Hi imm = s1Lo (imm >>> 3) ∧ s2Hi imm = s2Lo (imm >>> 3) := by
  revert imm; decide

/-- The upper lane of the 256-bit computation is the 128-bit computation with `imm8[5:3]` (R87). -/
theorem sad256_high_eq (a b : BitVec 256) (imm : BitVec 8) :
    (sad256 a b imm).extractLsb' 128 128 =
      sad128 (a.extractLsb' 128 128) (b.extractLsb' 128 128) (imm >>> 3) := by
  rw [sad128, ← (selectHi_eq imm).1, ← (selectHi_eq imm).2, sad256, BitVec.extractLsb'_append_eq_left]

/-- Settles O17. (a) and (b) compare the computations; (c), (e) and (f) are the results of the rows
(`legacyRegisterResult`, `vex128RegisterResult`, `vex256RegisterResult`) and (d) is `immediateIgnoredBits`. -/
theorem formsAgree : Obligations.FormsAgree := by
  intro l v dst src2 imm s legacy vex hasAvx2
  have vex256 : s.VexReady s.hasAvx2 v (Instr.vmpsadbw256Reg v dst dst src2 imm).len := by
    rwa [State.hasAvx_of_hasAvx2 hasAvx2, ← hasAvx2] at vex
  obtain ⟨t1, run1, low1, keeps, -⟩ := legacyRegisterResult l dst src2 imm s legacy
  obtain ⟨t2, run2, -, above, -⟩ := vex128RegisterResult v dst dst src2 imm s vex
  obtain ⟨t3, run3, low3, high3, -⟩ := vex256RegisterResult v dst dst src2 imm s vex256
  have lane3 : t3.xmm dst = sad128 (s.xmm dst) (s.xmm src2) imm := by
    rw [← State.ymm_low, ymm_of_vmpsadbw256Reg run3, ← State.ymm_low, ← State.ymm_low, ← sad256_low,
      BitVec.extractLsb'_setWidth_of_le (by decide)]
  refine ⟨t1, t2, t3, run1, run2, run3, ⟨?_, ?_⟩, fun s' t' ⟨upper1, upper2⟩ run => ?_,
    fun b hb hb' => ⟨keeps b hb hb', above b hb⟩, fun imm' same => ?_, fun imm' same => ?_, fun i hi => ?_,
    fun i hi same => ?_⟩
  · rw [xmm_of_mpsadbwReg run1, xmm_of_vmpsadbw128Reg run2]
  · rw [lane3, xmm_of_vmpsadbw128Reg run2]
  · rw [ymm_of_vmpsadbw256Reg run3, sad256_high_eq, xmm_of_vmpsadbw128Reg run, upper1, upper2]
  · obtain ⟨register, -, vexRegister, -⟩ := (immediateIgnoredBits imm imm' s).1 same
    exact ⟨(register ..).trans run1, (vexRegister ..).trans run2⟩
  · exact ((immediateIgnoredBits imm imm' s).2 same).1 .. |>.trans run3
  · by_cases h : i < 8
    · have word := low3 i h
      rw [Nat.zero_add] at word
      exact word ▸ sadOf_le ..
    · have word := high3 (i - 8) (by omega)
      rw [show 8 + (i - 8) = i by omega] at word
      exact word ▸ sadOf_le ..
  · have word := low1 i hi
    rw [Nat.zero_add, sadOf_eq_zero same] at word
    exact BitVec.eq_of_toNat_eq word

/-! ### The page's Operation sections (R9, R80, R85) -/

/-- The sum of result line `i`, from the captured bytes. -/
def lineSum (b1 b2 : Nat → Byte) (i : Nat) : Nat :=
  absDiff (b1 i) (b2 0) + absDiff (b1 (i + 1)) (b2 1) + absDiff (b1 (i + 2)) (b2 2) + absDiff (b1 (i + 3)) (b2 3)

theorem opLine_eq (b1 b2 : Nat → Byte) (base : Nat) (dest : VReg) (i : Nat) :
    opLine b1 b2 base dest i = setWord dest (16 * i + base) (BitVec.ofNat 16 (lineSum b1 b2 i)) := rfl

/-- An assigned word reads back, and every other bit is kept. -/
theorem getLsbD_setWord (v : VReg) (lo : Nat) (x : BitVec 16) {b : Nat} (hb : b < 512) :
    (setWord v lo x).getLsbD b = if lo ≤ b ∧ b < lo + 16 then x.getLsbD (b - lo) else v.getLsbD b := by
  have mask (k : Nat) : (0xFFFF#512).getLsbD k = decide (k < 16) := by
    rw [BitVec.getLsbD_ofNat, show 0xFFFF = 2 ^ 16 - 1 by rfl, Nat.testBit_two_pow_sub_one]
    grind
  simp only [setWord, BitVec.getLsbD_or, BitVec.getLsbD_and, BitVec.getLsbD_not, BitVec.getLsbD_shiftLeft, mask,
    BitVec.getLsbD_setWidth, hb]
  by_cases below : b < lo
  · simp [below, show ¬ lo ≤ b by omega]
  · by_cases inside : b < lo + 16
    · simp [below, inside, show b - lo < 16 by omega, show lo ≤ b by omega, show b - lo < 512 by omega]
    · simp [below, inside, show ¬ b - lo < 16 by omega, BitVec.getLsbD_of_ge x (b - lo) (by omega)]

/-- The first `n` result lines leave the sums in `n` words from `base` on. -/
theorem getLsbD_opLines (b1 b2 : Nat → Byte) (base : Nat) (dest : VReg) (n : Nat) {b : Nat} (hb : b < 512) :
    ((List.range n).foldl (opLine b1 b2 base) dest).getLsbD b =
      if base ≤ b ∧ b < base + 16 * n then
        (BitVec.ofNat 16 (lineSum b1 b2 ((b - base) / 16))).getLsbD ((b - base) % 16)
      else dest.getLsbD b := by
  induction n with
  | zero => simp
  | succ n ih =>
    rw [List.range_succ, List.foldl_append, List.foldl_cons, List.foldl_nil, opLine_eq, getLsbD_setWord _ _ _ hb]
    by_cases last : 16 * n + base ≤ b ∧ b < 16 * n + base + 16
    · rw [if_pos last, if_pos (by omega), show (b - base) / 16 = n by omega,
        show (b - base) % 16 = b - (16 * n + base) by omega]
    · rw [if_neg last, ih]
      by_cases before : base ≤ b ∧ b < base + 16 * n
      · rw [if_pos before, if_pos (by omega)]
      · rw [if_neg before, if_neg (by omega)]

theorem getLsbD_packWords (t : Nat → Nat) {k : Nat} (hk : k < 128) :
    (packWords t).getLsbD k = (BitVec.ofNat 16 (t (k / 16))).getLsbD (k % 16) := by
  rw [← wordOf_packWords t (k / 16) (by omega), wordOf, BitVec.getLsbD_extractLsb']
  simp [show k % 16 < 16 by omega, show 16 * (k / 16) + k % 16 = k by omega]

/-- The eight lines leave `SAD8` in the lane at `base`, if the captured bytes are those of its blocks, and every other
bit of the destination as it was. -/
theorem getLsbD_opLines_sad8 {b1 b2 : Nat → Byte} {x y : Lane} {s1 : BitVec 1} {s2 : BitVec 2}
    (block1 : ∀ k < 11, b1 k = byteOf x (4 * s1.toNat + k)) (block2 : ∀ k < 4, b2 k = byteOf y (4 * s2.toNat + k))
    (base : Nat) (dest : VReg) {b : Nat} (hb : b < 512) :
    (opLines b1 b2 base dest).getLsbD b =
      if base ≤ b ∧ b < base + 128 then (sad8 x y s1 s2).getLsbD (b - base) else dest.getLsbD b := by
  rw [opLines, getLsbD_opLines _ _ _ _ _ hb]
  by_cases lane : base ≤ b ∧ b < base + 128
  · rw [if_pos lane, if_pos lane, sad8, getLsbD_packWords _ (by omega)]
    have hi : (b - base) / 16 < 8 := by omega
    generalize (b - base) / 16 = i at hi
    congr 2
    rw [lineSum, sadSum, block1 i (by omega), block1 (i + 1) (by omega), block1 (i + 2) (by omega),
      block1 (i + 3) (by omega), block2 0 (by omega), block2 1 (by omega), block2 2 (by omega), block2 3 (by omega)]
    rfl
  · rw [if_neg lane, if_neg lane]

/-- A byte slice inside a lane. -/
theorem bitByte_eq (v : VReg) (lo : Nat) {j : Nat} (hj : j < 16) :
    bitByte v (8 * lo + 8 * j) = byteOf (v.extractLsb' (8 * lo) 128) j := by
  rw [byteOf_extractLane v lo j hj, bitByte, byteOf, Nat.mul_add]

/-- The page's text for the low lane is the 128-bit computation put under the upper bits (R80, R82). -/
theorem opLow_eq (imm : BitVec 8) (src1 src2 dest : VReg) :
    opLow imm src1 src2 dest = keepUpper dest (sad128 (src1.setWidth 128) (src2.setWidth 128) imm) := by
  have s1 := (s1Lo imm).isLt
  have s2 := (s2Lo imm).isLt
  have slice (v : VReg) (o k : Nat) (h : 4 * o + k < 16) :
      bitByte v (o * 32 + 8 * k) = byteOf (v.setWidth 128) (4 * o + k) := by
    rw [BitVec.setWidth_eq_extractLsb' (by decide), ← bitByte_eq v 0 h]
    congr 1
    omega
  apply BitVec.eq_of_getLsbD_eq
  intro b hb
  rw [opLow, getLsbD_opLines_sad8 (fun k hk => slice src1 _ k (by omega))
    (fun k hk => slice src2 _ k (by omega)) 0 dest hb, keepUpper, BitVec.getLsbD_append,
    BitVec.getLsbD_extractLsb', sad128]
  by_cases low : b < 128
  · simp [low]
  · simp [low, show b - 128 < 384 by omega, show 128 + (b - 128) = b by omega]

/-- The page's text for the upper lane, cut to 256 bits, is the upper lane's computation over the destination's low
lane (R84). -/
theorem opHigh_eq (imm : BitVec 8) (src1 src2 dest : VReg) :
    (opHigh imm src1 src2 dest).setWidth 256 =
      sad8 (src1.extractLsb' 128 128) (src2.extractLsb' 128 128) (s1Hi imm) (s2Hi imm) ++ dest.setWidth 128 := by
  have s1 := (s1Hi imm).isLt
  have s2 := (s2Hi imm).isLt
  have slice (v : VReg) (o k : Nat) (h : 4 * o + k < 16) :
      bitByte v (o * 32 + 128 + 8 * k) = byteOf (v.extractLsb' 128 128) (4 * o + k) := by
    rw [← bitByte_eq v 16 h]
    congr 1
    omega
  apply BitVec.eq_of_getLsbD_eq
  intro b hb
  rw [BitVec.getLsbD_setWidth, opHigh, getLsbD_opLines_sad8 (fun k hk => slice src1 _ k (by omega))
    (fun k hk => slice src2 _ k (by omega)) 128 dest (by omega), BitVec.getLsbD_append, BitVec.getLsbD_setWidth]
  by_cases low : b < 128
  · simp [low, hb, show ¬ 128 ≤ b by omega]
  · simp [low, hb, show 128 ≤ b by omega]

/-- The first half of the VEX.256 Operation leaves every upper lane as it was, that of the destination too. -/
theorem State.opVex256Low_upper {s : State} (hw : 256 ≤ maxVlBits s.maxVl) (dst src1 src2 : RegNum) (imm : BitVec 8)
    (n : RegNum) :
    ((s.opVex256Low dst src1 src2 imm).readVr n).extractLsb' 128 128 = (s.readVr n).extractLsb' 128 128 := by
  by_cases hn : n = dst
  · subst hn
    apply BitVec.eq_of_getLsbD_eq
    intro k hk
    rw [BitVec.getLsbD_extractLsb', BitVec.getLsbD_extractLsb', State.opVex256Low, getLsbD_readVr_writeVr_same,
      opLow_eq, keepUpper_high _ _ _ (by omega) (by omega)]
    simp [show 128 + k < 512 by omega, show 128 + k < maxVlBits s.maxVl by omega]
  · rw [State.opVex256Low, State.readVr_writeVr_other _ _ hn]

/-- The first half of the VEX.256 Operation leaves the low lane's result in the destination. -/
theorem State.opVex256Low_low (s : State) (dst src1 src2 : RegNum) (imm : BitVec 8) :
    ((s.opVex256Low dst src1 src2 imm).readVr dst).setWidth 128 = sad128 (s.xmm src1) (s.xmm src2) imm := by
  have low := s.xmm_complete dst (opLow imm (s.readVr src1) (s.readVr src2) (s.readVr dst)) 0
  rw [State.xmm, State.readVr_complete, opLow_eq, setWidth_keepUpper] at low
  rw [State.opVex256Low, opLow_eq]
  exact low

theorem State.ymm_high (s : State) (n : RegNum) : (s.ymm n).extractLsb' 128 128 = (s.readVr n).extractLsb' 128 128 :=
  BitVec.extractLsb'_setWidth_of_le (by decide)

/-- The VEX.256 Operation writes the 256-bit computation over the old registers: its upper lane reads only upper lanes,
which the first half has left alone (R85). -/
theorem State.opVex256_vr {s : State} (hw : 256 ≤ maxVlBits s.maxVl) (dst src1 src2 : RegNum) (imm : BitVec 8) :
    (s.opVex256 dst src1 src2 imm).vr =
      (s.writeVr dst ((sad256 (s.ymm src1) (s.ymm src2) imm).setWidth 512)).vr := by
  have value : (opHigh imm ((s.opVex256Low dst src1 src2 imm).readVr src1)
      ((s.opVex256Low dst src1 src2 imm).readVr src2) ((s.opVex256Low dst src1 src2 imm).readVr dst)).setWidth 256 =
      sad256 (s.ymm src1) (s.ymm src2) imm := by
    rw [opHigh_eq, State.opVex256Low_upper hw, State.opVex256Low_upper hw, State.opVex256Low_low, sad256,
      State.ymm_high, State.ymm_high, State.ymm_low, State.ymm_low]
    rfl
  rw [State.opVex256, value, State.opVex256Low, State.writeVr_vr, State.writeVr_vr, State.writeVr_vr, Vector.set_set]
  rfl

/-- Settles O19. Each Operation writes to the destination the value that the meaning writes. -/
theorem pageOperationsRefined : Obligations.PageOperationsRefined := by
  intro s dst src1 src2 imm _
  refine ⟨fun e t h => ?_, fun e t h => ?_, fun e t h => ?_⟩
  · obtain ⟨-, m, -, rfl⟩ := exec_eq_next.mp h
    rw [State.opLegacy, opLow_eq]
    rfl
  · obtain ⟨-, m, -, rfl⟩ := exec_eq_next.mp h
    rw [State.opVex128, opLow_eq, setWidth_keepUpper]
    rfl
  · have hw := maxVl_of_vmpsadbw256Reg h
    obtain ⟨-, m, -, rfl⟩ := exec_eq_next.mp h
    exact State.opVex256_vr hw dst src1 src2 imm

end Sys2Proof.Machine
end
